-- ==== Sys2Proof/Word.lean ====
section
/-! DEFINITION. The word types of HUFFENC (00_scope.md R8, R12). -/

namespace Sys2Proof

/-- A register or operand: `WORD_W` = 32 bits (R8, R12). -/
abbrev Word := BitVec 32

/-- A host byte address: `ADDR_W` = 32 bits (R8, R80). -/
abbrev Addr := BitVec 32

/-- A byte of host memory: 8 bits (R80). -/
abbrev Byte := BitVec 8

end Sys2Proof
end

