-- ==== Sys2Proof/Config.lean ====
section
/-! DEFINITION. The implementation parameters of 00_scope.md R8, the free values of `draw()` (R13), and the
configuration that `State.reset` holds. A configuration is a field of State that no step writes, so a statement about
every state is a statement about every configuration. -/

namespace Sys2Proof

/-- One code: a 5-bit length and a `CODE_W` = 16-bit pattern (10_state.md R32). -/
structure Code where
  len : BitVec 5
  pat : BitVec 16
deriving DecidableEq, Repr, Inhabited

/-- The bytes `base, ..., base + size - 1`. The end is a sum over unbounded integers: no address wraps
(20_memory.md R88). -/
structure Region where
  base : Nat
  size : Nat
deriving DecidableEq, Repr, Inhabited

/-- The parameters that are left OPEN and that a step reads (00_scope.md R8, 10_state.md R58). `allowed` is the predicate
ADMIT as the list of the address ranges it holds of. N_CTX is the number of contexts State holds (log 3). N_HOST and
WINDOW_BASE change no outcome (log 11, log 12). -/
structure Config where
  codeTable : List Code
  jumpTable : List Byte
  allowed   : List Region
deriving DecidableEq, Repr, Inhabited

/-- `NSYM`: symbols 0..256 (R8). -/
abbrev Config.numSymbols : Nat := 257

/-- `TERM`: the terminator symbol (R8). -/
abbrev Config.terminator : Nat := 256

/-- `CODE_W`: the width of a pattern and the largest admitted length (R8). -/
abbrev Config.codeWidth : Nat := 16

/-- `NJUMP` (R8). -/
abbrev Config.numJump : Nat := 20

/-- The number of bytes of MEM, `2^ADDR_W` (20_memory.md R80). -/
abbrev Config.memSize : Nat := 4294967296

/-- `draw()` of 32 bits (R13): the `k`-th value drawn is this constant at `k`, of which nothing is known (log 9). -/
opaque Config.freeWord : Nat → Word

/-- `draw()` of 8 bits (R13), as `freeWord` (log 9). -/
opaque Config.freeByte : Nat → Byte

/-- The codes `first, ..., first + count - 1`, all of length `len`. -/
def Code.consecutive (len : BitVec 5) (first count : Nat) : List Code :=
  (List.range' first count).map fun p => ⟨len, BitVec.ofNat 16 p⟩

/-- The synthetic table TT1 of 95_test_vectors.md section 2.1. It is NOT the real table, which the spec does not give
(91_not_in_source.md N1). DESIGN CHOICE, unsafe (log 1): it only fills the OPEN parameter of `State.reset`. -/
def Config.tableTT1 : List Code :=
  Code.consecutive 8#5 0x00 64 ++ [⟨5#5, 0x0A#16⟩] ++ Code.consecutive 8#5 0x40 16 ++
    Code.consecutive 8#5 0x58 120 ++ Code.consecutive 8#5 0xE0 9 ++ Code.consecutive 9#5 0x1D2 46 ++ [⟨4#5, 0x0D#16⟩]

/-- The configuration `State.reset` holds: TT1, a jump table of zeros, and ADMIT as in 95_test_vectors.md section 2.8.
DESIGN CHOICE, unsafe (log 1, log 2, log 4). -/
def Config.reference : Config where
  codeTable := Config.tableTT1
  jumpTable := List.replicate Config.numJump 0#8
  allowed   := [⟨0x1000, 0x100⟩, ⟨0x2000, 0x100⟩]

end Sys2Proof
end

