-- ==== Sys2Proof/Machine/Table.lean ====
section
/-! DEFINITION. What is computed from the configuration alone: the code of a symbol, the checks of a code table, the
largest code length, the destination bound, address ranges and ADMIT. -/

namespace Sys2Proof

/-- `p[l-1] p[l-2] ... p[0]`: the `l` low bits of `p`, most significant first (00_scope.md R16). -/
def codeBits (l : Nat) (p : Word) : List Bool :=
  (List.range l).map fun k => p.getLsbD (l - 1 - k)

/-- `Code(s)` of a table entry (R16). -/
def Code.bits (c : Code) : List Bool :=
  codeBits c.len.toNat (c.pat.zeroExtend 32)

/-- `TABLE[s]` or `CODE_TABLE[s]`. Every table holds 257 entries and every symbol read is at most 256, so the default
is never reached. -/
def codeAt (table : List Code) (sym : Nat) : Code :=
  table.getD sym ⟨0#5, 0#16⟩

/-- The length range of 10_state.md R33. -/
def Code.lenInRange (c : Code) : Bool :=
  decide (1 ≤ c.len.toNat) && decide (c.len.toNat ≤ Config.codeWidth)

/-- No bit of the pattern at or above position `len` (R34). -/
def Code.noStrayBits (c : Code) : Bool :=
  decide (c.pat.toNat < 2 ^ c.len.toNat)

/-- The 16-bit strings that begin with this code, as a bit set: bit `x` is set when the code is the top `len` bits of
the 16-bit number `x`. One code is a prefix of another exactly when they share such a string. -/
def Code.windows (c : Code) : Nat :=
  ((1 <<< (1 <<< (Config.codeWidth - c.len.toNat))) - 1) <<< (c.pat.toNat <<< (Config.codeWidth - c.len.toNat))

/-- No code of the list begins a 16-bit string of the set `taken` or of an earlier code. From the empty set this is
prefix-freedom, R35(i), of codes that pass R33 and R34. -/
def prefixFreeFrom (taken : Nat) : List Code → Bool
  | [] => true
  | c :: cs => (taken &&& c.windows == 0) && prefixFreeFrom (taken ||| c.windows) cs

/-- `Σ 2^(CODE_W - len)`, the Kraft sum of R35(ii) scaled by `2^CODE_W`. -/
def kraftSum (table : List Code) : Nat :=
  (table.map fun c => 2 ^ (Config.codeWidth - c.len.toNat)).sum

/-- The two entries the source states (R36). -/
def pinnedEntries (table : List Code) : Bool :=
  decide (codeAt table 64 = ⟨5#5, 0x0A#16⟩) && decide (codeAt table 256 = ⟨4#5, 0x0D#16⟩)

/-- The values a jump-table entry may have (10_state.md R40). -/
def jumpValue (v : Byte) : Bool :=
  v == 0#8 || v == 15#8 || v == 25#8

/-- `MAX_CODE_LEN`, the largest length in CODE_TABLE (R37). -/
def Config.maxCodeLen (cfg : Config) : Nat :=
  cfg.codeTable.foldl (fun m c => max m c.len.toNat) 0

/-- `ceil(a / b)` (00_scope.md R12). -/
def ceilDiv (a b : Nat) : Nat :=
  (a + (b - 1)) / b

/-- `BOUND(L) = ceil(MAX_CODE_LEN * L / 8) + 1` (41_encode.md R166). -/
def Config.bound (cfg : Config) (len : Nat) : Nat :=
  ceilDiv (cfg.maxCodeLen * len) 8 + 1

/-- The address `a` lies in the range. -/
def Region.contains (r : Region) (a : Nat) : Bool :=
  decide (r.base ≤ a) && decide (a < r.base + r.size)

/-- The two ranges share an address. -/
def Region.overlaps (x y : Region) : Bool :=
  decide (0 < x.size) && decide (0 < y.size) && decide (x.base < y.base + y.size) && decide (y.base < x.base + x.size)

/-- The addresses of the range, in rising order. -/
def Region.addrs (r : Region) : List Nat :=
  List.range' r.base r.size

/-- `ADMIT(a)` (00_scope.md R8, 20_memory.md R93). A number past the address space names no host byte. -/
def Config.admits (cfg : Config) (a : Nat) : Bool :=
  decide (a < Config.memSize) && cfg.allowed.any fun r => r.contains a

end Sys2Proof
end

