-- ==== Sys2Proof/Syntax.lean ====
section
/-! DEFINITION. The commands of HUFFENC: one constructor per row of spec/opcode_table.json (30_encoding.md R122, R136,
R137). The eight ENCODE forms carry the strategy hint STRAT, a number 0..15 (R127, R136). -/

namespace Sys2Proof

inductive Instr where
  /-- BUILD_TABLE, 40_table_build.md R140. -/
  | buildTable
  /-- FLATTEN_TABLE, 40_table_build.md R144. -/
  | flattenTable
  /-- BUILD_JUMP, 40_table_build.md R148. -/
  | buildJump
  /-- REGISTER_BUFFERS, 42_registration.md R200. -/
  | registerBuffers
  /-- ENCODE.P, 41_encode.md R175. -/
  | encodeP (strat : Nat)
  /-- ENCODE.P.SO, R175 and R177. -/
  | encodePSo (strat : Nat)
  /-- ENCODE.P.RR, R175 and R178. -/
  | encodePRr (strat : Nat)
  /-- ENCODE.P.SO.RR, R175, R177 and R178. -/
  | encodePSoRr (strat : Nat)
  /-- ENCODE.G, R176. -/
  | encodeG (strat : Nat)
  /-- ENCODE.G.SO, R176 and R177. -/
  | encodeGSo (strat : Nat)
  /-- ENCODE.G.RR, R176 and R178. -/
  | encodeGRr (strat : Nat)
  /-- ENCODE.G.SO.RR, R176, R177 and R178. -/
  | encodeGSoRr (strat : Nat)
deriving DecidableEq, Repr, Inhabited

end Sys2Proof
end

