-- ==== Sys2Proof/WellFormed.lean ====
section
/-! DEFINITION. The checks of a command and of a configuration. A term that fails one is refused (00_scope.md R15). -/

namespace Sys2Proof

/-- STRAT is a 4-bit field: 0..15 (30_encoding.md R127, R136). -/
def Instr.wf : Instr → Bool
  | .buildTable => true
  | .flattenTable => true
  | .buildJump => true
  | .registerBuffers => true
  | .encodeP strat => decide (strat < 16)
  | .encodePSo strat => decide (strat < 16)
  | .encodePRr strat => decide (strat < 16)
  | .encodePSoRr strat => decide (strat < 16)
  | .encodeG strat => decide (strat < 16)
  | .encodeGSo strat => decide (strat < 16)
  | .encodeGRr strat => decide (strat < 16)
  | .encodeGSoRr strat => decide (strat < 16)

/-- The code table is one the spec describes: 257 entries (10_state.md R32), lengths 1..16 (R33), no stray bits (R34),
a complete prefix code (R35), the pinned entries (R36). -/
def codeTableWf (table : List Code) : Bool :=
  decide (table.length = Config.numSymbols) && pinnedEntries table && table.all Code.lenInRange &&
    table.all Code.noStrayBits && decide (kraftSum table = 2 ^ Config.codeWidth) && prefixFreeFrom 0 table

/-- The jump table has 20 entries, each 0, 15 or 25 (R40). -/
def jumpTableWf (jump : List Byte) : Bool :=
  decide (jump.length = Config.numJump) && jump.all jumpValue

/-- The configuration is one the model gives a meaning (R15). -/
def Config.wf (cfg : Config) : Bool :=
  jumpTableWf cfg.jumpTable && codeTableWf cfg.codeTable

/-- The number of contexts of a machine: `1 <= N_CTX <= 16` (00_scope.md R8). -/
def nCtxWf (n : Nat) : Bool :=
  decide (1 ≤ n) && decide (n ≤ 16)

end Sys2Proof
end

