-- ==== Sys2Proof/Decode.lean ====
section
/-! DEFINITION. The command word: decoding, total on every 32-bit word and rejecting by name (30_encoding.md R130),
and the encoder, written from the same table (R121, R136). -/

namespace Sys2Proof

/-- Why a command word is illegal (R133). Each of these is the fault F06 at issue. -/
inductive IllegalWord where
  /-- A bit of 31:13 is set (R129). -/
  | reservedBits
  /-- CN = 1 (R126). -/
  | completionRequest
  /-- A command other than ENCODE with a bit of 11:4 set (R128). -/
  | modeBits
  /-- An ENCODE with PS != PD (R123). -/
  | mixedPointers
  /-- OP 0x0 or 0x6-0xF (R122). -/
  | reservedOp
deriving DecidableEq, Repr

/-- `w[lo+n-1 : lo]` as an unsigned number (00_scope.md R11). -/
def field (w : Word) (lo n : Nat) : Nat :=
  (w.extractLsb' lo n).toNat

/-- A command without mode bits: bits 31:4 must all be 0 (R128). -/
def decodePlain (w : Word) (i : Instr) : Except IllegalWord Instr :=
  if field w 4 28 ≠ 0 then .error .modeBits else .ok i

/-- `ENCODE{P, SO, RR, STRAT}` (R137). -/
def encodeForm (p so rr : Bool) (strat : Nat) : Instr :=
  match p, so, rr with
  | true, false, false => .encodeP strat
  | true, true, false => .encodePSo strat
  | true, false, true => .encodePRr strat
  | true, true, true => .encodePSoRr strat
  | false, false, false => .encodeG strat
  | false, true, false => .encodeGSo strat
  | false, false, true => .encodeGRr strat
  | false, true, true => .encodeGSoRr strat

/-- An ENCODE word: PS must equal PD (R123). -/
def decodeEncode (w : Word) : Except IllegalWord Instr :=
  if w.getLsbD 4 ≠ w.getLsbD 5 then .error .mixedPointers
  else .ok (encodeForm (w.getLsbD 4) (w.getLsbD 6) (w.getLsbD 7) (field w 8 4))

/-- `Decode(w)` (R130). -/
def decode (w : Word) : Except IllegalWord Instr :=
  if field w 13 19 ≠ 0 then .error .reservedBits
  else if w.getLsbD 12 then .error .completionRequest
  else
    match field w 0 4 with
    | 1 => decodePlain w .buildTable
    | 2 => decodePlain w .flattenTable
    | 3 => decodePlain w .buildJump
    | 4 => decodePlain w .registerBuffers
    | 5 => decodeEncode w
    | _ => .error .reservedOp

/-- The instruction the decoder reads from a table row's word. Every command word is exactly 32 bits (R134), so
`nbits` only says which bits of `w` are given: the rest are 0. -/
def decodeTableWord (nbits w : Nat) : Option Instr :=
  match decode (BitVec.ofNat 32 (w % 2 ^ nbits)) with
  | .ok i => some i
  | .error _ => none

/-- An ENCODE word from its fields (R121, R136). -/
def encodeWord (p so rr : Bool) (strat : Nat) : Word :=
  (if p then 0x00000035#32 else 0x00000005#32) ||| (if so then 1#32 <<< 6 else 0#32) |||
    (if rr then 1#32 <<< 7 else 0#32) ||| (BitVec.ofNat 32 strat <<< 8)

/-- The command word of a well-formed command (R136). -/
def encode : Instr → Word
  | .buildTable => 0x00000001#32
  | .flattenTable => 0x00000002#32
  | .buildJump => 0x00000003#32
  | .registerBuffers => 0x00000004#32
  | .encodeP strat => encodeWord true false false strat
  | .encodePSo strat => encodeWord true true false strat
  | .encodePRr strat => encodeWord true false true strat
  | .encodePSoRr strat => encodeWord true true true strat
  | .encodeG strat => encodeWord false false false strat
  | .encodeGSo strat => encodeWord false true false strat
  | .encodeGRr strat => encodeWord false false true strat
  | .encodeGSoRr strat => encodeWord false true true strat

end Sys2Proof
end

