-- ==== Sys2Proof/Machine/Kinds.lean ====
section
/-! DEFINITION. The kinds of command that the rules tell apart, and the OP field. -/

namespace Sys2Proof

/-- BUILD_TABLE, FLATTEN_TABLE or BUILD_JUMP. -/
def Instr.isBuild : Instr → Bool
  | .buildTable => true
  | .flattenTable => true
  | .buildJump => true
  | .registerBuffers => false
  | .encodeP _ => false
  | .encodePSo _ => false
  | .encodePRr _ => false
  | .encodePSoRr _ => false
  | .encodeG _ => false
  | .encodeGSo _ => false
  | .encodeGRr _ => false
  | .encodeGSoRr _ => false

/-- An ENCODE of any form. -/
def Instr.isEncode : Instr → Bool
  | .buildTable => false
  | .flattenTable => false
  | .buildJump => false
  | .registerBuffers => false
  | .encodeP _ => true
  | .encodePSo _ => true
  | .encodePRr _ => true
  | .encodePSoRr _ => true
  | .encodeG _ => true
  | .encodeGSo _ => true
  | .encodeGRr _ => true
  | .encodeGSoRr _ => true

/-- A pointer-less ENCODE, ENCODE.G (30_encoding.md R123). -/
def Instr.isEncodeG : Instr → Bool
  | .buildTable => false
  | .flattenTable => false
  | .buildJump => false
  | .registerBuffers => false
  | .encodeP _ => false
  | .encodePSo _ => false
  | .encodePRr _ => false
  | .encodePSoRr _ => false
  | .encodeG _ => true
  | .encodeGSo _ => true
  | .encodeGRr _ => true
  | .encodeGSoRr _ => true

/-- The OP field of a command (30_encoding.md R122). -/
def Instr.op : Instr → BitVec 4
  | .buildTable => 0x1#4
  | .flattenTable => 0x2#4
  | .buildJump => 0x3#4
  | .registerBuffers => 0x4#4
  | .encodeP _ => 0x5#4
  | .encodePSo _ => 0x5#4
  | .encodePRr _ => 0x5#4
  | .encodePSoRr _ => 0x5#4
  | .encodeG _ => 0x5#4
  | .encodeGSo _ => 0x5#4
  | .encodeGRr _ => 0x5#4
  | .encodeGSoRr _ => 0x5#4

end Sys2Proof
end

