-- ==== Sys2Proof/Machine/State.lean ====
section
/-! DEFINITION. Everything the spec gives the machine (10_state.md R31-R59) as plain data, the reasons a step can stop,
and the state after reset. -/

namespace Sys2Proof.Machine

/-- The argument registers of a context (10_state.md R45). -/
inductive ArgReg where
  | src | dst | doff | len | soff
deriving DecidableEq, Repr

/-- The fault reasons of 60_exceptions.md R211, each with the information R211 records. A fault is the spec's own
absorbing verdict (R214), so each is safe. -/
inductive Fault where
  /-- F01: a host register access that is not 32-bit or not aligned (30_encoding.md R111). Safe. -/
  | busMisaligned (offset : Nat) (width : Nat)
  /-- F02: a host register access at an unmapped offset (R112). Safe. -/
  | busUnmapped (offset : Nat)
  /-- F03: a host write to a read-only register (R113). Safe. -/
  | busReadOnlyWrite (offset : Nat)
  /-- F04: a CMD write while the context is busy (R120). Safe. -/
  | commandWhileBusy (c : Nat)
  /-- F05: an argument-register write while the context is busy (R114). Safe. -/
  | argWriteWhileBusy (c : Nat) (offset : Nat)
  /-- F06: an illegal command word (R130). Safe. -/
  | illegalCommand (c : Nat) (word : Word)
  /-- F07: a build command and a conflicting command in flight together (40_table_build.md R140, R144, R148;
  41_encode.md R171). Safe. -/
  | initRace (c : Nat)
  /-- F08: REGISTER_BUFFERS and an ENCODE.G in flight together (42_registration.md R200; R171). Safe. -/
  | registrationRace (c : Nat)
  /-- F09: FLATTEN_TABLE before BUILD_TABLE (R144). Safe. -/
  | flattenBeforeBuild (c : Nat)
  /-- F10: ENCODE before READY (R171). Safe. -/
  | notInitialised (c : Nat)
  /-- F11: ENCODE.G before any registration (R171). Safe. -/
  | noRegistration (c : Nat)
  /-- F12: a needed argument register was never written since reset (R171, R200). Safe. -/
  | unwrittenOperand (c : Nat) (reg : ArgReg)
  /-- F13: a negative offset or length (R171). Safe. -/
  | negativeOperand (c : Nat) (reg : ArgReg)
  /-- F14: a footprint passes 2^32 (20_memory.md R88). Safe. -/
  | addressOverflow (c : Nat)
  /-- F15: the source and destination footprints share a byte (R98). Safe. -/
  | overlap (c : Nat)
  /-- F16: a footprint conflicts with an ENCODE in flight in another context (R97). Safe. -/
  | footprintRace (c : Nat) (other : Nat)
  /-- F17: a footprint byte fails ADMIT at Perform (R93). Safe. -/
  | outOfBounds (c : Nat) (address : Nat)
  /-- F18: a host byte write into a footprint of an ENCODE in flight (R95). Safe. -/
  | hostRace (address : Addr)
deriving DecidableEq, Repr

/-- What the model gives no meaning to (00_scope.md R15). -/
inductive Refusal where
  /-- Raised by `exec` for an instruction that has no meaning yet; no arm does. Safe. -/
  | notModelled (mnemonic : String)
  /-- Raised by `step` before anything else: the configuration or the number of contexts breaks 00_scope.md R8 or
  10_state.md R33-R36, R40. Safe. -/
  | illFormedConfig
  /-- Raised by `step`: the schedule names a Perform that is not enabled (10_state.md R30). Safe (log 7). -/
  | stepNotEnabled (c : Nat)
deriving DecidableEq, Repr

/-- The phases of the datapath (R56). -/
inductive Phase where
  | idle | sym | term | flush
deriving DecidableEq, Repr

/-- The hidden datapath registers of a context (R56). `nbits` is a count, 0..`ACC_W`. `sptr` and `dptr` past the last byte
are 0, DESIGN CHOICE (log 28). -/
structure Datapath where
  phase : Phase
  acc   : Word
  nbits : Nat
  sptr  : Addr
  dptr  : Addr
  cnt   : Word
deriving DecidableEq, Repr

/-- The latch of a context (R57): the decoded command, which holds op, PS, PD, SO, RR and STRAT, and the resolved
operands. REGISTER_BUFFERS latches `inputBase` in `sbase` and `outputBase` in `dbase`. The operand fields
that a command does not have hold 0, DESIGN CHOICE (log 27). -/
structure Latch where
  cmd   : Instr
  sbase : Addr
  dbase : Addr
  doff  : Word
  len   : Word
  soff  : Word
deriving DecidableEq, Repr

/-- The written flags of a context (R46). -/
structure Written where
  src  : Bool
  dst  : Bool
  doff : Bool
  len  : Bool
  soff : Bool
  cmd  : Bool
deriving DecidableEq, Repr

/-- A context (R44-R49, R56, R57). `encoded` says that an ENCODE has performed here since reset (R49, log 17). -/
structure Context where
  cmd         : Word
  argSrc      : Word
  argDst      : Word
  argDoff     : Word
  argLen      : Word
  argSoff     : Word
  written     : Written
  busy        : Bool
  done        : Bool
  lastOp      : BitVec 4
  resLen      : Word
  resRem      : Word
  resOutStart : Word
  encoded     : Bool
  latch       : Latch
  dp          : Datapath
deriving DecidableEq, Repr

/-- Host memory MEM: the bytes that are not 0, by rising address. An unlisted byte reads 0 (20_memory.md R80; log 13). -/
structure Memory where
  cells : List Host.Cell
deriving DecidableEq, Repr

/-- A step of an agent (10_state.md R30). A window access names its offset and its width in bits. -/
inductive Event where
  | regRead (offset : Nat) (width : Nat)
  | regWrite (offset : Nat) (width : Nat) (value : Word)
  | memRead (a : Addr)
  | memWrite (a : Addr) (value : Byte)
  | reset
  | perform (c : Nat)
deriving DecidableEq, Repr

/-- Which half of a command is about to run: its issue in context `c` (30_encoding.md R120), or the engine's
`Perform(c)` (10_state.md R30). The model's own (log 8). -/
inductive Turn where
  | issue (c : Nat)
  | perform (c : Nat)
deriving DecidableEq, Repr

/-- What the last host read returned. The model's own (log 10). -/
inductive Reply where
  | none
  | word (v : Word)
  | byte (v : Byte)
deriving DecidableEq, Repr

/-- The state (R31). `cfg` holds the parameters of the step (R58), which no step writes; the number of contexts is
N_CTX. The last four fields are the model's own (log 5, log 8, log 9, log 10). -/
structure State where
  cfg        : Config
  table      : List Code
  flat       : List Word
  jump       : List Byte
  tableBuilt : Bool
  flatBuilt  : Bool
  jumpBuilt  : Bool
  regInBase  : Addr
  regOutBase : Addr
  regValid   : Bool
  ctxs       : List Context
  mem        : Memory
  fault      : Option Fault
  schedule   : List Event
  turn       : Turn
  draws      : Nat
  reply      : Reply
deriving DecidableEq, Repr

/-- The hidden registers after reset: PHASE is IDLE (R59); the others are unspecified, DESIGN CHOICE 0 (log 14). -/
def Datapath.reset : Datapath where
  phase := .idle
  acc := 0#32
  nbits := 0
  sptr := 0#32
  dptr := 0#32
  cnt := 0#32

/-- The latch after reset is undefined (R59): DESIGN CHOICE (log 14). -/
def Latch.reset : Latch where
  cmd := .buildTable
  sbase := 0#32
  dbase := 0#32
  doff := 0#32
  len := 0#32
  soff := 0#32

/-- Every written flag is 0 after reset (R46, R59). -/
def Written.reset : Written where
  src := false
  dst := false
  doff := false
  len := false
  soff := false
  cmd := false

/-- A context after reset (R59): STATUS 0, every written flag 0, PHASE IDLE; the registers the spec leaves unspecified
are 0, DESIGN CHOICE (log 14). -/
def Context.reset : Context where
  cmd := 0#32
  argSrc := 0#32
  argDst := 0#32
  argDoff := 0#32
  argLen := 0#32
  argSoff := 0#32
  written := Written.reset
  busy := false
  done := false
  lastOp := 0#4
  resLen := 0#32
  resRem := 0#32
  resOutStart := 0#32
  encoded := false
  latch := Latch.reset
  dp := Datapath.reset

/-- No byte is listed: every byte reads 0 (log 13). -/
def Memory.empty : Memory where
  cells := []

/-- The state just after power-on (70_reset_and_hazards.md R242) of a machine with `n` contexts and the configuration
`cfg`, whose launch gives the memory `m` and the agents' steps `sched`: R59, with no fault and nothing in flight. -/
def State.powerOn (cfg : Config) (n : Nat) (m : Memory) (sched : List Event) : State where
  cfg := cfg
  table := List.replicate Config.numSymbols ⟨0#5, 0#16⟩
  flat := List.replicate (2 * Config.numSymbols) 0#32
  jump := List.replicate Config.numJump 0#8
  tableBuilt := false
  flatBuilt := false
  jumpBuilt := false
  regInBase := 0#32
  regOutBase := 0#32
  regValid := false
  ctxs := List.replicate n Context.reset
  mem := m
  fault := none
  schedule := sched
  turn := .issue 0
  draws := 0
  reply := .none

/-- The machine right after reset: the reference instance, one context (00_scope.md R8), with nothing written to memory
and no step scheduled (log 1, log 3, log 5, log 13). -/
def State.reset : State :=
  State.powerOn Config.reference 1 Memory.empty []

end Sys2Proof.Machine
end

