-- ==== Sys2Proof/Machine/Ops.lean ====
section
/-! DEFINITION. The operations over memory, contexts, draws and footprints that every meaning is built from, and the one
operation by which a fault is raised and marked. -/

namespace Sys2Proof.Machine

/-! ### Host memory (20_memory.md R80) -/

/-- The byte listed at `a`, or 0 (log 13). -/
def readCells (a : Nat) : List Host.Cell → Byte
  | [] => 0#8
  | (k, w) :: rest => if k = a then w else readCells a rest

/-- Put `v` at `a`, keeping the addresses rising and no byte 0 listed. -/
def writeCells (a : Nat) (v : Byte) : List Host.Cell → List Host.Cell
  | [] => if v = 0#8 then [] else [(a, v)]
  | (k, w) :: rest =>
    if a < k then (if v = 0#8 then (k, w) :: rest else (a, v) :: (k, w) :: rest)
    else if a = k then (if v = 0#8 then rest else (a, v) :: rest)
    else (k, w) :: writeCells a v rest

/-- The addresses rise from `lo` on, lie in the address space, and no byte 0 is listed. -/
def cellsWf (lo : Nat) : List Host.Cell → Bool
  | [] => true
  | (k, w) :: rest => decide (lo ≤ k) && decide (k < Config.memSize) && decide (w ≠ 0#8) && cellsWf (k + 1) rest

/-- The canonical form of MEM: equal memories are equal lists. -/
def Memory.wf (m : Memory) : Bool :=
  cellsWf 0 m.cells

/-- `MemRead(a, 1)` (00_scope.md R13). -/
def Memory.read (m : Memory) (a : Nat) : Byte :=
  readCells a m.cells

/-- `MemWrite(a, 1, v)` (R13). A number past the address space names no byte: nothing is written. No run reaches such a
write (log 20). -/
def Memory.write (m : Memory) (a : Nat) (v : Byte) : Memory :=
  if a < Config.memSize then ⟨writeCells a v m.cells⟩ else m

/-- `MemWrite(a + j, 1, bytes[j])` for each byte in turn. -/
def Memory.writeBytes (m : Memory) (a : Nat) : List Byte → Memory
  | [] => m
  | b :: bs => Memory.writeBytes (m.write a b) (a + 1) bs

/-- The `n` bytes from `a` on, in rising order. -/
def Memory.readBytes (m : Memory) (a n : Nat) : List Byte :=
  (List.range n).map fun i => m.read (a + i)

/-! ### Contexts (10_state.md R44) -/

/-- `N_CTX` (00_scope.md R8; log 3). -/
def State.nCtx (s : State) : Nat :=
  s.ctxs.length

/-- `C[c]`. Every rule names a context below N_CTX, so the default is never reached. -/
def State.ctx (s : State) (c : Nat) : Context :=
  s.ctxs.getD c Context.reset

/-- Replace `C[c]`. -/
def State.setCtx (s : State) (c : Nat) (k : Context) : State :=
  { s with ctxs := s.ctxs.set c k }

/-- The value of an argument register (R45). -/
def Context.arg (k : Context) : ArgReg → Word
  | .src => k.argSrc
  | .dst => k.argDst
  | .doff => k.argDoff
  | .len => k.argLen
  | .soff => k.argSoff

/-- The written flag of an argument register (R46). -/
def Context.argWritten (k : Context) : ArgReg → Bool
  | .src => k.written.src
  | .dst => k.written.dst
  | .doff => k.written.doff
  | .len => k.written.len
  | .soff => k.written.soff

/-- A host write of an argument register: its value and its written flag (R46; 30_encoding.md R116). -/
def Context.writeArg (k : Context) (r : ArgReg) (v : Word) : Context :=
  match r with
  | .src => { k with argSrc := v, written := { k.written with src := true } }
  | .dst => { k with argDst := v, written := { k.written with dst := true } }
  | .doff => { k with argDoff := v, written := { k.written with doff := true } }
  | .len => { k with argLen := v, written := { k.written with len := true } }
  | .soff => { k with argSoff := v, written := { k.written with soff := true } }

/-- `C[c].CMD <- w; C[c].WR.CMD <- 1` (R47; 30_encoding.md R120). -/
def Context.writeCmd (k : Context) (w : Word) : Context :=
  { k with cmd := w, written := { k.written with cmd := true } }

/-! ### Footprints and commands in flight (20_memory.md R85, 00_scope.md R19) -/

/-- `SrcFP` (R85). -/
def Latch.srcFP (l : Latch) : Region where
  base := l.sbase.toNat + l.soff.toNat
  size := l.len.toNat

/-- `DstFP` (R85). -/
def Latch.dstFP (cfg : Config) (l : Latch) : Region where
  base := l.dbase.toNat + l.doff.toNat
  size := cfg.bound l.len.toNat

/-- `C[c]` has a command of the kind `p` in flight. -/
def State.inFlight (s : State) (p : Instr → Bool) (c : Nat) : Bool :=
  (s.ctx c).busy && p (s.ctx c).latch.cmd

/-- A command of the kind `p` is in flight in a context other than `c`. -/
def State.inFlightElsewhere (s : State) (c : Nat) (p : Instr → Bool) : Bool :=
  (List.range s.nCtx).any fun c' => decide (c' ≠ c) && s.inFlight p c'

/-- The address lies in `DstFP` of an ENCODE in flight (R96). -/
def State.inFlightDst (s : State) (a : Nat) : Bool :=
  (List.range s.nCtx).any fun c => s.inFlight Instr.isEncode c && ((s.ctx c).latch.dstFP s.cfg).contains a

/-- The address lies in `SrcFP` of an ENCODE in flight (R95). -/
def State.inFlightSrc (s : State) (a : Nat) : Bool :=
  (List.range s.nCtx).any fun c => s.inFlight Instr.isEncode c && (s.ctx c).latch.srcFP.contains a

/-! ### Draws (00_scope.md R13; log 9) -/

/-- The next `draw()` of 32 bits. -/
def State.nextWord (s : State) : Word :=
  Config.freeWord s.draws

/-- The next `n` draws of 8 bits. -/
def State.nextBytes (s : State) (n : Nat) : List Byte :=
  (List.range n).map fun k => Config.freeByte (s.draws + k)

/-! ### Faults (00_scope.md R14; 60_exceptions.md R211-R215) -/

/-- The outcomes of one step. -/
abbrev Result := Host.Outcome State Fault Refusal

/-- The condition of one check of a rule: the fault it raises, if it does. -/
def check (cond : Bool) (f : Fault) : Option Fault :=
  if cond then some f else none

/-- The first check that fails, in the order the rule lists them (60_exceptions.md R212). -/
def firstFault (checks : List (Option Fault)) : Option Fault :=
  checks.findSome? id

/-- Raise the fault, or go on to `t`. -/
def faultOr (f : Option Fault) (t : State) : Result :=
  match f with
  | some r => .fault r
  | none => .next t

/-- The state of a faulted machine: the state just before the faulting step, plus the mark (R215). -/
def State.markFault (s : State) (f : Fault) : State :=
  { s with fault := some f }

end Sys2Proof.Machine
end

