-- ==== Sys2Proof/Machine/Flags.lean ====
section
/-! DEFINITION. Every flag of HUFFENC: STATUS, GSTATUS and the constant CONFIG, and the changes a command's issue and
Perform make to STATUS (10_state.md R41, R48, R50, R52). -/

namespace Sys2Proof.Machine

/-- `G.READY = TABLE_BUILT AND FLAT_BUILT AND JUMP_BUILT` (R41). -/
def State.ready (s : State) : Bool :=
  s.tableBuilt && s.flatBuilt && s.jumpBuilt

/-- One bit at a position of a word. -/
def bit (b : Bool) (pos : Nat) : Word :=
  if b then 1#32 <<< pos else 0#32

/-- STATUS (R48). -/
def Context.status (k : Context) : Word :=
  bit k.busy 0 ||| bit k.done 1 ||| (k.lastOp.zeroExtend 32 <<< 4)

/-- GSTATUS (R50). -/
def State.gstatus (s : State) : Word :=
  bit s.tableBuilt 0 ||| bit s.flatBuilt 1 ||| bit s.jumpBuilt 2 ||| bit s.ready 3 ||| bit s.regValid 4

/-- CONFIG (R52). -/
def State.configWord (s : State) : Word :=
  BitVec.ofNat 32 (s.nCtx % 256) ||| (BitVec.ofNat 32 (s.cfg.maxCodeLen % 256) <<< 8) |||
    (BitVec.ofNat 32 Config.codeWidth <<< 16)

/-- ID (R51). -/
def idWord : Word := 0x48554631#32

/-- The last act of an issue: latch, `LAST_OP <- OP, DONE <- 0, BUSY <- 1` (30_encoding.md R120). -/
def Context.issued (k : Context) (l : Latch) : Context :=
  { k with latch := l, lastOp := l.cmd.op, done := false, busy := true }

/-- The last act of a Perform: `BUSY <- 0, DONE <- 1` (R48). The latch, undefined from here on (R57), keeps its value
(log 15). -/
def Context.performed (k : Context) : Context :=
  { k with busy := false, done := true }

/-- Issue the latched command in context `c`. -/
def State.issue (s : State) (c : Nat) (l : Latch) : State :=
  s.setCtx c ((s.ctx c).issued l)

/-- Complete the command of context `c`. -/
def State.complete (s : State) (c : Nat) : State :=
  s.setCtx c (s.ctx c).performed

end Sys2Proof.Machine
end

