-- ==== Sys2Proof/Machine/Operands.lean ====
section
/-! DEFINITION. Operand assembly: which operands each form reads, how each is resolved at issue, and the checks on them
(30_encoding.md R131, R132; 41_encode.md R171; 42_registration.md R200). -/

namespace Sys2Proof.Machine

/-- The mode of an ENCODE: P = PS = PD, SO and RR (30_encoding.md R123-R125). -/
structure Mode where
  p  : Bool
  so : Bool
  rr : Bool
deriving DecidableEq, Repr

/-- The operands an ENCODE needs (R171), in the order the rule lists them (log 18). -/
def Mode.needs (m : Mode) : List ArgReg :=
  [ArgReg.doff, ArgReg.len] ++ (if m.p then [ArgReg.src, ArgReg.dst] else []) ++
    (if m.so then [ArgReg.soff] else [])

/-- The first operand of the list that was never written since reset (10_state.md R46). -/
def Context.firstUnwritten (k : Context) (need : List ArgReg) : Option ArgReg :=
  need.find? fun r => !k.argWritten r

/-- `sint32(v) < 0` (00_scope.md R12). -/
def negative (v : Word) : Bool :=
  decide (v.toInt < 0)

/-- The resolved operands of an ENCODE (R171): the pointers from the argument registers or from the registration slot,
`soff` from ARG_SOFF or 0. -/
def State.encodeLatch (s : State) (i : Instr) (m : Mode) (c : Nat) : Latch where
  cmd := i
  sbase := if m.p then (s.ctx c).argSrc else s.regInBase
  dbase := if m.p then (s.ctx c).argDst else s.regOutBase
  doff := (s.ctx c).argDoff
  len := (s.ctx c).argLen
  soff := if m.so then (s.ctx c).argSoff else 0#32

/-- The first offset or length that is negative, in the order of R171 (log 18). -/
def Latch.firstNegative (l : Latch) : Option ArgReg :=
  if negative l.doff then some .doff
  else if negative l.len then some .len
  else if negative l.soff then some .soff
  else none

/-- A footprint passes 2^32, with the sums taken over unbounded integers (20_memory.md R88). -/
def Latch.overflows (cfg : Config) (l : Latch) : Bool :=
  decide (Config.memSize < l.srcFP.base + l.srcFP.size) ||
    decide (Config.memSize < (l.dstFP cfg).base + (l.dstFP cfg).size)

/-- The command's own footprints share a byte (R98). -/
def Latch.selfOverlap (cfg : Config) (l : Latch) : Bool :=
  l.srcFP.overlaps (l.dstFP cfg)

/-- The footprints of two ENCODEs in different contexts conflict (R97). -/
def Latch.conflicts (cfg : Config) (new old : Latch) : Bool :=
  (new.dstFP cfg).overlaps old.srcFP || (new.dstFP cfg).overlaps (old.dstFP cfg) ||
    new.srcFP.overlaps (old.dstFP cfg)

/-- The first context other than `c` with an ENCODE in flight whose footprints conflict with `l` (R97, log 18). -/
def State.footprintConflict (s : State) (c : Nat) (l : Latch) : Option Nat :=
  (List.range s.nCtx).find? fun c' =>
    decide (c' ≠ c) && s.inFlight Instr.isEncode c' && l.conflicts s.cfg (s.ctx c').latch

/-- The operands REGISTER_BUFFERS needs (42_registration.md R200). -/
def registerNeeds : List ArgReg := [.src, .dst]

/-- The resolved record of REGISTER_BUFFERS (R200): `inputBase` and `outputBase`. R57 gives its `doff`, `len` and `soff`
no value: DESIGN CHOICE 0, which nothing reads (log 27). -/
def State.registerLatch (s : State) (c : Nat) : Latch where
  cmd := .registerBuffers
  sbase := (s.ctx c).argSrc
  dbase := (s.ctx c).argDst
  doff := 0#32
  len := 0#32
  soff := 0#32

/-- The record of a build command, which has no operands (40_table_build.md R140, R144, R148). R57 gives the five operand
fields no value then: DESIGN CHOICE 0, which nothing reads (log 27). -/
def buildLatch (i : Instr) : Latch where
  cmd := i
  sbase := 0#32
  dbase := 0#32
  doff := 0#32
  len := 0#32
  soff := 0#32

end Sys2Proof.Machine
end

