-- ==== Sys2Proof/Machine/Build.lean ====
section
/-! DEFINITION. BUILD_TABLE, FLATTEN_TABLE and BUILD_JUMP (40_table_build.md). -/

namespace Sys2Proof.Machine

/-- Run the half of a command whose turn it is (log 8): its issue, or its Perform. -/
def State.byTurn (s : State) (issue perform : Nat → State → Result) : Result :=
  match s.turn with
  | .issue c => issue c s
  | .perform c => perform c s

/-- The commands that BUILD_TABLE races with: ENCODE and FLATTEN_TABLE (R140). -/
def racesWithBuildTable (i : Instr) : Bool :=
  i.isEncode || decide (i = .flattenTable)

/-- The commands that FLATTEN_TABLE races with: ENCODE and BUILD_TABLE (R144). -/
def racesWithFlatten (i : Instr) : Bool :=
  i.isEncode || decide (i = .buildTable)

/-- The interleaved view of a code table: `FLAT[2s] = zext_32(len_s)`, `FLAT[2s+1] = zext_32(pat_s)` (R144). -/
def flatten (table : List Code) : List Word :=
  table.flatMap fun c => [c.len.zeroExtend 32, c.pat.zeroExtend 32]

/-- Issue of BUILD_TABLE in context `c` (R140): F07. -/
def issueBuildTable (c : Nat) (s : State) : Result :=
  faultOr (firstFault [check (s.inFlightElsewhere c racesWithBuildTable) (.initRace c)])
    (s.issue c (buildLatch .buildTable))

/-- `Perform(c)` for BUILD_TABLE (R140). -/
def performBuildTable (c : Nat) (s : State) : Result :=
  .next (State.complete { s with table := s.cfg.codeTable, tableBuilt := true } c)

/-- BUILD_TABLE (R140). -/
def execBuildTable (s : State) : Result :=
  s.byTurn issueBuildTable performBuildTable

/-- Issue of FLATTEN_TABLE in context `c` (R144): F07, then F09. -/
def issueFlattenTable (c : Nat) (s : State) : Result :=
  faultOr
    (firstFault
      [check (s.inFlightElsewhere c racesWithFlatten) (.initRace c),
        check (!s.tableBuilt) (.flattenBeforeBuild c)])
    (s.issue c (buildLatch .flattenTable))

/-- `Perform(c)` for FLATTEN_TABLE (R144). -/
def performFlattenTable (c : Nat) (s : State) : Result :=
  .next (State.complete { s with flat := flatten s.table, flatBuilt := true } c)

/-- FLATTEN_TABLE (R144). -/
def execFlattenTable (s : State) : Result :=
  s.byTurn issueFlattenTable performFlattenTable

/-- Issue of BUILD_JUMP in context `c` (R148): F07. -/
def issueBuildJump (c : Nat) (s : State) : Result :=
  faultOr (firstFault [check (s.inFlightElsewhere c Instr.isEncode) (.initRace c)])
    (s.issue c (buildLatch .buildJump))

/-- `Perform(c)` for BUILD_JUMP (R148). -/
def performBuildJump (c : Nat) (s : State) : Result :=
  .next (State.complete { s with jump := s.cfg.jumpTable, jumpBuilt := true } c)

/-- BUILD_JUMP (R148). -/
def execBuildJump (s : State) : Result :=
  s.byTurn issueBuildJump performBuildJump

end Sys2Proof.Machine
end

