-- ==== Sys2Proof/Machine/EncodeFun.lean ====
section
/-! DEFINITION. The encode function: `Bits`, `Pack` and `OUT` (41_encode.md R161-R165; 00_scope.md R16, R17), and the
reference decoder of R181, which the round-trip property speaks of and no command runs. -/

namespace Sys2Proof.Machine

/-- `FLAT[k]`. `FLAT` holds 514 words and every index read is at most 513, so the default is never reached. -/
def flatAt (flat : List Word) (k : Nat) : Word :=
  flat.getD k 0#32

/-- The code of a symbol, read from `FLAT` (R170). -/
def symbolBits (flat : List Word) (sym : Nat) : List Bool :=
  codeBits (flatAt flat (2 * sym)).toNat (flatAt flat (2 * sym + 1))

/-- `Bits(b_0 ... b_{L-1})`: the codes of the bytes in order, then the terminator's (R161-R163). -/
def encodeBits (flat : List Word) (input : List Byte) : List Bool :=
  input.flatMap (fun b => symbolBits flat b.toNat) ++ symbolBits flat Config.terminator

/-- `Σ_{k=0..7} p[base+k] * 2^(7-k)` (R17); a bit past the end of `p` is a pad bit, 0. -/
def packByte (p : List Bool) (base : Nat) : Byte :=
  BitVec.ofNat 8 ((List.range 8).map fun k => if p.getD (base + k) false then 2 ^ (7 - k) else 0).sum

/-- `Pack(bits)`: most significant bit first, zero pad bits (R17; log 25). -/
def pack (bits : List Bool) : List Byte :=
  (List.range (ceilDiv bits.length 8)).map fun j => packByte bits (8 * j)

/-- `OUT` (R161). -/
def encodeOut (flat : List Word) (input : List Byte) : List Byte :=
  pack (encodeBits flat input)

/-- The bits of one byte, bit 7 first. -/
def byteBits (b : Byte) : List Bool :=
  (List.range 8).map fun k => b.getLsbD (7 - k)

/-- The bits of a byte sequence, each byte bit 7 first (R181). -/
def unpack (bytes : List Byte) : List Bool :=
  bytes.flatMap byteBits

/-- The symbols whose code is a prefix of the stream. -/
def matchingSymbols (table : List Code) (stream : List Bool) : List Nat :=
  (List.range Config.numSymbols).filter fun s => (codeAt table s).bits.isPrefixOf stream

/-- The loop of `Dec` (R181), with at most `fuel` symbols: find the unique symbol whose code the stream begins with;
stop at the terminator. -/
def decodeStream (table : List Code) : Nat → List Bool → Option (List Byte)
  | 0, _ => none
  | fuel + 1, stream =>
    match matchingSymbols table stream with
    | [s] =>
      if s = Config.terminator then some []
      else
        (decodeStream table fuel (stream.drop (codeAt table s).bits.length)).map
          fun out => BitVec.ofNat 8 s :: out
    | _ => none

/-- `Dec(bytes)` (R181); every code has at least one bit, so no more symbols than bits are decoded. -/
def refDecode (table : List Code) (bytes : List Byte) : Option (List Byte) :=
  decodeStream table (unpack bytes).length (unpack bytes)

end Sys2Proof.Machine
end

