-- ==== Sys2Proof/Machine/Microsteps.lean ====
section
/-! DEFINITION. The reference datapath (41_encode.md R185-R189): one admitted implementation of an ENCODE's Perform, on
the hidden registers of 10_state.md R56. Its micro-steps are internal to the one Perform step (R185). -/

namespace Sys2Proof.Machine

/-- The registers and the memory that the micro-steps work on. -/
structure Engine where
  dp  : Datapath
  mem : Memory
deriving DecidableEq, Repr

/-- The start of a Perform, after the F17 check (R185). SPTR and DPTR are 32-bit registers (10_state.md R56), and no rule
says what one holds past the last byte: DESIGN CHOICE, modulo 2^32 (log 28). -/
def Engine.start (l : Latch) (m : Memory) : Engine where
  dp :=
    { phase := if 0 < l.len.toNat then .sym else .term
      acc := 0#32
      nbits := 0
      sptr := l.sbase + l.soff
      dptr := l.dbase + l.doff
      cnt := l.len }
  mem := m

/-- Write one byte at DPTR and advance it (R187, R189), modulo 2^32: DESIGN CHOICE (log 28). -/
def Engine.put (e : Engine) (b : Byte) (nbits : Nat) : Engine where
  dp := { e.dp with dptr := e.dp.dptr + 1#32, nbits := nbits }
  mem := e.mem.write e.dp.dptr.toNat b

/-- Drain: emit every complete byte (R187). Each turn takes 8 from NBITS, so NBITS turns are enough. -/
def Engine.drainLoop : Nat → Engine → Engine
  | 0, e => e
  | fuel + 1, e =>
    if 8 ≤ e.dp.nbits then
      Engine.drainLoop fuel (e.put ((e.dp.acc >>> (e.dp.nbits - 8)).truncate 8) (e.dp.nbits - 8))
    else e

/-- Drain (R187). -/
def Engine.drain (e : Engine) : Engine :=
  Engine.drainLoop e.dp.nbits e

/-- `ACC <- ((ACC << l) | p) mod 2^ACC_W; NBITS <- NBITS + l` (R186, R188). -/
def Engine.append (flat : List Word) (e : Engine) (sym : Nat) : Engine :=
  { e with
    dp :=
      { e.dp with
        acc := (e.dp.acc <<< (flatAt flat (2 * sym)).toNat) ||| flatAt flat (2 * sym + 1)
        nbits := e.dp.nbits + (flatAt flat (2 * sym)).toNat } }

/-- The symbol micro-step, up to its Drain (R186). SPTR advances modulo 2^32: DESIGN CHOICE (log 28). -/
def Engine.takeByte (flat : List Word) (e : Engine) : Engine :=
  let e' := e.append flat (e.mem.read e.dp.sptr.toNat).toNat
  { e' with dp := { e'.dp with sptr := e'.dp.sptr + 1#32, cnt := e'.dp.cnt - 1#32 } }

/-- The symbol micro-step (R186). -/
def Engine.symStep (flat : List Word) (e : Engine) : Engine :=
  let e' := (e.takeByte flat).drain
  { e' with dp := { e'.dp with phase := if e'.dp.cnt = 0#32 then .term else e'.dp.phase } }

/-- Rule R186 while PHASE = SYM; each turn takes 1 from CNT, so CNT turns are enough. -/
def Engine.symLoop (flat : List Word) : Nat → Engine → Engine
  | 0, e => e
  | fuel + 1, e => if e.dp.phase = .sym then Engine.symLoop flat fuel (e.symStep flat) else e

/-- The terminator micro-step (R188). -/
def Engine.termStep (flat : List Word) (e : Engine) : Engine :=
  let e' := (e.append flat Config.terminator).drain
  { e' with dp := { e'.dp with phase := .flush } }

/-- The flush micro-step (R189), without the result registers: write the last byte with zero pad bits; PHASE <- IDLE. -/
def Engine.flushStep (e : Engine) : Engine :=
  let e' := if 0 < e.dp.nbits then e.put ((e.dp.acc <<< (8 - e.dp.nbits)).truncate 8) 0 else e
  { e' with dp := { e'.dp with phase := .idle } }

/-- The whole datapath (R185). -/
def Engine.run (flat : List Word) (l : Latch) (m : Memory) : Engine :=
  ((Engine.symLoop flat l.len.toNat (Engine.start l m)).termStep flat).flushStep

/-- `RES_LEN <- DPTR - (dbase + doff)` of the flush micro-step (R189), modulo 2^32 as DPTR is (log 28). -/
def Engine.resLen (l : Latch) (e : Engine) : Word :=
  e.dp.dptr - (l.dbase + l.doff)

end Sys2Proof.Machine
end

