-- ==== Sys2Proof/Machine/Encode.lean ====
section
/-! DEFINITION. ENCODE, its issue and its Perform, and the eight forms (41_encode.md R160-R178). -/

namespace Sys2Proof.Machine

/-- The issue checks of ENCODE in context `c`, in the order of R171: F07, F08, F10, F11, F12, F13, F14, F15, F16. -/
def encodeChecks (m : Mode) (c : Nat) (l : Latch) (s : State) : List (Option Fault) :=
  [check (s.inFlightElsewhere c Instr.isBuild) (.initRace c),
    check (!m.p && s.inFlightElsewhere c fun i => decide (i = .registerBuffers)) (.registrationRace c),
    check (!s.ready) (.notInitialised c),
    check (!m.p && !s.regValid) (.noRegistration c),
    ((s.ctx c).firstUnwritten m.needs).map (.unwrittenOperand c),
    l.firstNegative.map (.negativeOperand c),
    check (l.overflows s.cfg) (.addressOverflow c),
    check (l.selfOverlap s.cfg) (.overlap c),
    (s.footprintConflict c l).map (.footprintRace c)]

/-- Issue of the ENCODE `i` of mode `m` in context `c` (R171). -/
def issueEncode (i : Instr) (m : Mode) (c : Nat) (s : State) : Result :=
  faultOr (firstFault (encodeChecks m c (s.encodeLatch i m c) s)) (s.issue c (s.encodeLatch i m c))

/-- The first footprint byte that fails ADMIT (R93, R170; log 18). -/
def Latch.firstUnadmitted (cfg : Config) (l : Latch) : Option Nat :=
  (l.srcFP.addrs ++ (l.dstFP cfg).addrs).find? fun a => !cfg.admits a

/-- `OUT` of the latched ENCODE: its source bytes as they stand now (20_memory.md R86), through `FLAT` (R170). -/
def State.encodeOutput (s : State) (l : Latch) : List Byte :=
  encodeOut s.flat (s.mem.readBytes l.srcFP.base l.srcFP.size)

/-- How many bytes of `DstFP` lie past `OUT`: the tail `N .. BOUND(L)-1` (R173). -/
def State.tailSize (s : State) (l : Latch) : Nat :=
  (l.dstFP s.cfg).size - (s.encodeOutput l).length

/-- The bytes Perform writes from `dbase + doff` on: `OUT`, then a draw for each tail byte (R172, R173). -/
def State.encodeWrites (s : State) (l : Latch) : List Byte :=
  s.encodeOutput l ++ s.nextBytes (s.tailSize l)

/-- The result registers of an ENCODE's Perform (R174): RES_LEN, RES_OUT_START, and RES_REM, which is 0 if RR = 1 and a
draw if RR = 0 (30_encoding.md R125; log 16). The hidden registers are those the reference datapath leaves (R189;
log 19). -/
def Context.encodeResults (k : Context) (rr : Bool) (n : Nat) (rem : Word) (dp : Datapath) : Context :=
  { k with
    resLen := BitVec.ofNat 32 n
    resOutStart := k.latch.doff
    resRem := if rr then 0#32 else rem
    encoded := true
    dp := dp }

/-- The state after the writes of an ENCODE's Perform (R170), STATUS apart. -/
def State.encodeEffect (s : State) (rr : Bool) (c : Nat) : State :=
  let l := (s.ctx c).latch
  State.setCtx
    { s with
      mem := s.mem.writeBytes (l.dstFP s.cfg).base (s.encodeWrites l)
      draws := s.draws + s.tailSize l + 1 }
    c
    ((s.ctx c).encodeResults rr (s.encodeOutput l).length (Config.freeWord (s.draws + s.tailSize l))
      (Engine.run s.flat l s.mem).dp)

/-- `Perform(c)` for ENCODE (R170): F17, else every write of the rule. -/
def performEncode (rr : Bool) (c : Nat) (s : State) : Result :=
  faultOr ((Latch.firstUnadmitted s.cfg (s.ctx c).latch).map (.outOfBounds c)) ((s.encodeEffect rr c).complete c)

/-- The ENCODE `i` of mode `m` (R160). -/
def encodeCommand (i : Instr) (m : Mode) (s : State) : Result :=
  s.byTurn (issueEncode i m) (performEncode m.rr)

/-- ENCODE.P (R175). -/
def execEncodeP (strat : Nat) (s : State) : Result :=
  encodeCommand (.encodeP strat) ⟨true, false, false⟩ s

/-- ENCODE.P.SO (R175, R177). -/
def execEncodePSo (strat : Nat) (s : State) : Result :=
  encodeCommand (.encodePSo strat) ⟨true, true, false⟩ s

/-- ENCODE.P.RR (R175, R178). -/
def execEncodePRr (strat : Nat) (s : State) : Result :=
  encodeCommand (.encodePRr strat) ⟨true, false, true⟩ s

/-- ENCODE.P.SO.RR (R175, R177, R178). -/
def execEncodePSoRr (strat : Nat) (s : State) : Result :=
  encodeCommand (.encodePSoRr strat) ⟨true, true, true⟩ s

/-- ENCODE.G (R176). -/
def execEncodeG (strat : Nat) (s : State) : Result :=
  encodeCommand (.encodeG strat) ⟨false, false, false⟩ s

/-- ENCODE.G.SO (R176, R177). -/
def execEncodeGSo (strat : Nat) (s : State) : Result :=
  encodeCommand (.encodeGSo strat) ⟨false, true, false⟩ s

/-- ENCODE.G.RR (R176, R178). -/
def execEncodeGRr (strat : Nat) (s : State) : Result :=
  encodeCommand (.encodeGRr strat) ⟨false, false, true⟩ s

/-- ENCODE.G.SO.RR (R176, R177, R178). -/
def execEncodeGSoRr (strat : Nat) (s : State) : Result :=
  encodeCommand (.encodeGSoRr strat) ⟨false, true, true⟩ s

end Sys2Proof.Machine
end

