-- ==== Sys2Proof/Machine/HostBus.lean ====
section
/-! DEFINITION. The host steps: the register window, its reads and writes, byte accesses to MEM, and Reset
(30_encoding.md R110-R120; 20_memory.md R95, R96; 70_reset_and_hazards.md R240, R241). -/

namespace Sys2Proof.Machine

/-- The registers of the window (30_encoding.md R110, R115). -/
inductive Reg where
  | id
  | gstatus
  | regInBase
  | regOutBase
  | config
  | tbl (sym : Nat)
  | cmd (c : Nat)
  | arg (c : Nat) (r : ArgReg)
  | status (c : Nat)
  | resLen (c : Nat)
  | resRem (c : Nat)
  | resOutStart (c : Nat)
deriving DecidableEq, Repr

/-- `CB(c)`, the offset of context `c`'s block (R115). -/
def ctxBase (c : Nat) : Nat :=
  0x100 + 0x40 * c

/-- The register at an offset of context `c`'s block (R115); offsets 0x28-0x3C are unmapped. -/
def ctxRegAt (c k : Nat) : Option Reg :=
  match k with
  | 0x00 => some (.cmd c)
  | 0x04 => some (.arg c .src)
  | 0x08 => some (.arg c .dst)
  | 0x0C => some (.arg c .doff)
  | 0x10 => some (.arg c .len)
  | 0x14 => some (.arg c .soff)
  | 0x18 => some (.status c)
  | 0x1C => some (.resLen c)
  | 0x20 => some (.resRem c)
  | 0x24 => some (.resOutStart c)
  | _ => none

/-- The register at an offset of the window of a machine with `n` contexts (R110). Only asked of offsets divisible
by 4 (R111). -/
def regAt (n offset : Nat) : Option Reg :=
  if offset = 0x000 then some .id
  else if offset = 0x004 then some .gstatus
  else if offset = 0x008 then some .regInBase
  else if offset = 0x00C then some .regOutBase
  else if offset = 0x010 then some .config
  else if 0x100 ≤ offset ∧ offset < ctxBase n then ctxRegAt ((offset - 0x100) / 0x40) ((offset - 0x100) % 0x40)
  else if 0x800 ≤ offset ∧ offset ≤ 0xC00 then some (.tbl ((offset - 0x800) / 4))
  else none

/-- The registers a host may write: CMD and the argument registers (R113, R115). -/
def Reg.writable : Reg → Bool
  | .id => false
  | .gstatus => false
  | .regInBase => false
  | .regOutBase => false
  | .config => false
  | .tbl _ => false
  | .cmd _ => true
  | .arg _ _ => true
  | .status _ => false
  | .resLen _ => false
  | .resRem _ => false
  | .resOutStart _ => false

/-- What a read of a register returns: a value, or a draw (00_scope.md R13). -/
inductive ReadValue where
  | value (v : Word)
  | draw
deriving DecidableEq, Repr

/-- The value if the condition holds, else a draw. -/
def readIf (known : Bool) (v : Word) : ReadValue :=
  if known then .value v else .draw

/-- `zext_32(len_s) << 16 | zext_32(pat_s)` (10_state.md R54). -/
def Code.tblWord (c : Code) : Word :=
  (c.len.zeroExtend 32 <<< 16) ||| c.pat.zeroExtend 32

/-- A result register may be read: not while BUSY, nor before the context's first ENCODE since reset (R49). -/
def Context.resultsKnown (k : Context) : Bool :=
  !k.busy && k.encoded

/-- What a host read of a register returns (30_encoding.md R117; 10_state.md R46-R54). -/
def State.readReg (s : State) : Reg → ReadValue
  | .id => .value idWord
  | .gstatus => .value s.gstatus
  | .regInBase => readIf s.regValid s.regInBase
  | .regOutBase => readIf s.regValid s.regOutBase
  | .config => .value s.configWord
  | .tbl sym => readIf s.tableBuilt (Code.tblWord (codeAt s.table sym))
  | .cmd c => readIf (s.ctx c).written.cmd (s.ctx c).cmd
  | .arg c r => readIf ((s.ctx c).argWritten r) ((s.ctx c).arg r)
  | .status c => .value (s.ctx c).status
  | .resLen c => readIf (s.ctx c).resultsKnown (s.ctx c).resLen
  | .resRem c => readIf (s.ctx c).resultsKnown (s.ctx c).resRem
  | .resOutStart c => readIf (s.ctx c).resultsKnown (s.ctx c).resOutStart

/-- F01, then F02 (R111, R112, R212): the register a window access reaches. -/
def busTarget (n offset width : Nat) : Except Fault Reg :=
  if width ≠ 32 ∨ offset % 4 ≠ 0 then .error (.busMisaligned offset width)
  else
    match regAt n offset with
    | some r => .ok r
    | none => .error (.busUnmapped offset)

/-- The reply to a read: a drawn value uses up one draw (log 9). -/
def State.answer (s : State) : ReadValue → State
  | .value v => { s with reply := .word v }
  | .draw => { s with reply := .word s.nextWord, draws := s.draws + 1 }

/-- `RegRead(off)` (R111, R112, R117): no component of the spec's state changes. -/
def regRead (offset width : Nat) (s : State) : Result :=
  match busTarget s.nCtx offset width with
  | .error f => .fault f
  | .ok r => .next (s.answer (s.readReg r))

/-- What a `RegWrite` comes to: an argument register is written, a command word reaches CMD, or a fault. -/
inductive BusWrite where
  | arg (c : Nat) (r : ArgReg)
  | cmd (c : Nat)
  | fault (f : Fault)
deriving DecidableEq, Repr

/-- The checks of a `RegWrite`: F01, F02, then F03 and F05, or F04 at CMD (R111-R114, R120, R212). -/
def State.busWrite (s : State) (offset width : Nat) : BusWrite :=
  match busTarget s.nCtx offset width with
  | .error f => .fault f
  | .ok (.cmd c) => if (s.ctx c).busy then .fault (.commandWhileBusy c) else .cmd c
  | .ok (.arg c r) => if (s.ctx c).busy then .fault (.argWriteWhileBusy c offset) else .arg c r
  | .ok _ => .fault (.busReadOnlyWrite offset)

/-- A write of an argument register (R116). -/
def State.writeArg (s : State) (c : Nat) (r : ArgReg) (v : Word) : State :=
  s.setCtx c ((s.ctx c).writeArg r v)

/-- The state in which the command word `w` is issued: `C[c].CMD <- w; C[c].WR.CMD <- 1` (R120). -/
def State.writeCmd (s : State) (c : Nat) (w : Word) : State :=
  { s.setCtx c ((s.ctx c).writeCmd w) with turn := .issue c }

/-- `HostMemRead(a)` (20_memory.md R96). -/
def memRead (a : Addr) (s : State) : Result :=
  if s.inFlightDst a.toNat then .next { s with reply := .byte (Config.freeByte s.draws), draws := s.draws + 1 }
  else .next { s with reply := .byte (s.mem.read a.toNat) }

/-- `HostMemWrite(a, v)`: F18, or the byte is written (R95). -/
def memWrite (a : Addr) (v : Byte) (s : State) : Result :=
  faultOr (check (s.inFlightSrc a.toNat || s.inFlightDst a.toNat) (.hostRace a))
    { s with mem := s.mem.write a.toNat v }

/-- Every byte of `DstFP` becomes a draw (70_reset_and_hazards.md R241). -/
def State.smear (s : State) (r : Region) : State :=
  { s with mem := s.mem.writeBytes r.base (s.nextBytes r.size), draws := s.draws + r.size }

/-- R241 for context `c`, if it has an ENCODE in flight. -/
def State.abandon (s : State) (c : Nat) : State :=
  if s.inFlight Instr.isEncode c then s.smear ((s.ctx c).latch.dstFP s.cfg) else s

/-- R241 for every context. -/
def State.abandonAll (s : State) : State :=
  (List.range s.nCtx).foldl State.abandon s

/-- `Reset` (R240): every component takes its value of 10_state.md R59; MEM changes only by R241. The configuration,
the fault mark and the model's own fields stay (log 24). -/
def resetStep (s : State) : Result :=
  let t := s.abandonAll
  let z := State.powerOn t.cfg t.nCtx t.mem t.schedule
  .next { z with fault := t.fault, turn := t.turn, draws := t.draws, reply := t.reply }

end Sys2Proof.Machine
end

