-- ==== Sys2Proof/Machine/Agents.lean ====
section
/-! DEFINITION. Which agent acts next and what it does (10_state.md R30): the schedule's next step, or, when the
schedule is used up, the Perform of an engine still in flight (70_reset_and_hazards.md R262). -/

namespace Sys2Proof.Machine

/-- What the next step comes to: a command's meaning is run in a state, or the step is done without one. -/
inductive Action where
  | run (i : Instr) (s : State)
  | done (o : Result)

/-- `RegWrite(off, v)`. A write to CMD decodes the word (F06, 30_encoding.md R130) and issues the command (R120). -/
def regWrite (offset width : Nat) (v : Word) (s : State) : Action :=
  match s.busWrite offset width with
  | .fault f => .done (.fault f)
  | .arg c r => .done (.next (s.writeArg c r v))
  | .cmd c =>
    match decode v with
    | .error _ => .done (.fault (.illegalCommand c v))
    | .ok i => .run i (s.writeCmd c v)

/-- `Perform(c)`: enabled exactly when `C[c].BUSY = 1`; it runs the command latched in `C[c].LATCH` (10_state.md R30,
R57). A Perform that is not enabled is no step of the machine (log 7). -/
def engineStep (c : Nat) (s : State) : Action :=
  if (s.ctx c).busy then .run (s.ctx c).latch.cmd { s with turn := .perform c }
  else .done (.refused (.stepNotEnabled c))

/-- One scheduled step (R30), in the state whose schedule no longer holds it. -/
def agentStep (e : Event) (s : State) : Action :=
  match e with
  | .regRead offset width => .done (regRead offset width s)
  | .regWrite offset width v => regWrite offset width v s
  | .memRead a => .done (memRead a s)
  | .memWrite a v => .done (memWrite a v s)
  | .reset => .done (resetStep s)
  | .perform c => engineStep c s

/-- The lowest-numbered context with a command in flight (log 6). -/
def State.firstBusy (s : State) : Option Nat :=
  (List.range s.nCtx).find? fun c => (s.ctx c).busy

/-- No host step is left: a command in flight performs; with none in flight the state is final and stays as it is
(70_reset_and_hazards.md R262, R264; log 6). -/
def idleStep (s : State) : Action :=
  match s.firstBusy with
  | some c => engineStep c s
  | none => .done (.next s)

/-- The next step. A configuration the model gives no meaning is refused before any step (00_scope.md R15; log 23); a
faulted machine takes none (60_exceptions.md R214). -/
def nextAction (s : State) : Action :=
  if (nCtxWf s.nCtx && s.cfg.wf) = false then .done (.refused .illFormedConfig)
  else
    match s.fault with
    | some f => .done (.fault f)
    | none =>
      match s.schedule with
      | [] => idleStep s
      | e :: es => agentStep e { s with schedule := es }

end Sys2Proof.Machine
end

