-- ==== Sys2Proof/Machine/Register.lean ====
section
/-! DEFINITION. REGISTER_BUFFERS (42_registration.md R200-R205). -/

namespace Sys2Proof.Machine

/-- Issue of REGISTER_BUFFERS in context `c` (R200): F08, then F12. -/
def issueRegisterBuffers (c : Nat) (s : State) : Result :=
  faultOr
    (firstFault
      [check (s.inFlightElsewhere c Instr.isEncodeG) (.registrationRace c),
        ((s.ctx c).firstUnwritten registerNeeds).map (.unwrittenOperand c)])
    (s.issue c (s.registerLatch c))

/-- `Perform(c)` for REGISTER_BUFFERS (R200): the slot is overwritten unconditionally (R201). -/
def performRegisterBuffers (c : Nat) (s : State) : Result :=
  .next
    (State.complete
      { s with
        regInBase := (s.ctx c).latch.sbase
        regOutBase := (s.ctx c).latch.dbase
        regValid := true } c)

/-- REGISTER_BUFFERS (R200). -/
def execRegisterBuffers (s : State) : Result :=
  s.byTurn issueRegisterBuffers performRegisterBuffers

end Sys2Proof.Machine
end

