-- ==== Sys2Proof/Machine/Dispatch.lean ====
section
/-! DEFINITION. Which meaning each command has: one arm per constructor. -/

namespace Sys2Proof.Machine

/-- The meaning of a command: its issue or its Perform, by `s.turn`. -/
def exec (i : Instr) (s : State) : Host.Outcome State Fault Refusal :=
  match i with
  | .buildTable => Sys2Proof.Machine.execBuildTable s
  | .flattenTable => Sys2Proof.Machine.execFlattenTable s
  | .buildJump => Sys2Proof.Machine.execBuildJump s
  | .registerBuffers => Sys2Proof.Machine.execRegisterBuffers s
  | .encodeP strat => Sys2Proof.Machine.execEncodeP strat s
  | .encodePSo strat => Sys2Proof.Machine.execEncodePSo strat s
  | .encodePRr strat => Sys2Proof.Machine.execEncodePRr strat s
  | .encodePSoRr strat => Sys2Proof.Machine.execEncodePSoRr strat s
  | .encodeG strat => Sys2Proof.Machine.execEncodeG strat s
  | .encodeGSo strat => Sys2Proof.Machine.execEncodeGSo strat s
  | .encodeGRr strat => Sys2Proof.Machine.execEncodeGRr strat s
  | .encodeGSoRr strat => Sys2Proof.Machine.execEncodeGSoRr strat s

end Sys2Proof.Machine
end

