-- ==== Sys2Proof/Machine/Step.lean ====
section
/-! DEFINITION. One step of the machine: one agent's step (10_state.md R30). -/

namespace Sys2Proof.Machine

/-- One step: the next agent's action, a command by its meaning. It is one indivisible event (20_memory.md R99;
log 26). -/
def step (s : State) : Host.Outcome State Fault Refusal :=
  match nextAction s with
  | .run i t => exec i t
  | .done o => o

/-- The machine has no program store and fetches nothing: a command is run by a host's write of its word to CMD
(30_encoding.md R120). The write to context 0's CMD, at offset 0x100 (R115), stands next in the schedule (log 22). -/
def State.withFetchWord (s : State) (nbits w : Nat) : State :=
  { s with schedule := .regWrite (ctxBase 0) 32 (BitVec.ofNat 32 (w % 2 ^ nbits)) :: s.schedule }

/-- The state a step leaves, with the fault mark of R215 written (log 21); a refusal leaves the state as it was. -/
def advance (s : State) : State :=
  match step s with
  | .next t => t
  | .fault f => s.markFault f
  | .refused _ => s

end Sys2Proof.Machine
end

