-- ==== Sys2Proof/Safety.lean ====
section
/-! DEFINITION. What a safe run is, what is observed at its end, the invariants of the machine, and the conditions of
the spec's rules in the words that statements use. -/

namespace Sys2Proof.Machine

/-! ### Runs and their end (70_reset_and_hazards.md R264) -/

/-- No context has a command in flight. -/
def State.quiet (s : State) : Prop :=
  ∀ c < s.nCtx, (s.ctx c).busy = false

/-- A final state: no host step is left, no command is in flight, no fault (R264). -/
def State.final (s : State) : Prop :=
  s.schedule = [] ∧ s.quiet ∧ s.fault = none

/-- The run of `k` steps from `s`. -/
def runSteps (k : Nat) (s : State) : Result :=
  Host.Core.run Sys2Proof.core k s

/-- No step of a run from `s` faults or is refused. -/
def State.safe (s : State) : Prop :=
  ∀ k, ∃ t, runSteps k s = .next t

/-- The global registers of the window, TBL apart (30_encoding.md R110). -/
def globalRegs : List Reg :=
  [Reg.id, Reg.gstatus, Reg.regInBase, Reg.regOutBase, Reg.config]

/-- The registers of context `c`'s block (R115). -/
def ctxRegs (c : Nat) : List Reg :=
  [Reg.cmd c, Reg.arg c ArgReg.src, Reg.arg c ArgReg.dst, Reg.arg c ArgReg.doff, Reg.arg c ArgReg.len,
    Reg.arg c ArgReg.soff, Reg.status c, Reg.resLen c, Reg.resRem c, Reg.resOutStart c]

/-- Every register of the window of a machine with `n` contexts (R110, R115). -/
def allRegs (n : Nat) : List Reg :=
  globalRegs ++ (List.range Config.numSymbols).map Reg.tbl ++ (List.range n).flatMap ctxRegs

/-- What is observed of a final state: MEM and every host-readable register, of which some read as draws (R264). -/
structure Observation where
  mem  : Memory
  regs : List (Reg × ReadValue)
deriving DecidableEq, Repr

/-- The observation of a state (R264). -/
def State.observe (s : State) : Observation where
  mem := s.mem
  regs := (allRegs s.nCtx).map fun r => (r, s.readReg r)

/-! ### The words of the rules -/

/-- The offset of a register (30_encoding.md R110, R115). -/
def Reg.offset : Reg → Nat
  | .id => 0x000
  | .gstatus => 0x004
  | .regInBase => 0x008
  | .regOutBase => 0x00C
  | .config => 0x010
  | .tbl sym => 0x800 + 4 * sym
  | .cmd c => ctxBase c
  | .arg c .src => ctxBase c + 0x04
  | .arg c .dst => ctxBase c + 0x08
  | .arg c .doff => ctxBase c + 0x0C
  | .arg c .len => ctxBase c + 0x10
  | .arg c .soff => ctxBase c + 0x14
  | .status c => ctxBase c + 0x18
  | .resLen c => ctxBase c + 0x1C
  | .resRem c => ctxBase c + 0x20
  | .resOutStart c => ctxBase c + 0x24

/-- The register exists in a machine with `n` contexts (R110). -/
def Reg.existsIn (n : Nat) : Reg → Prop
  | .id => True
  | .gstatus => True
  | .regInBase => True
  | .regOutBase => True
  | .config => True
  | .tbl sym => sym ≤ 256
  | .cmd c => c < n
  | .arg c _ => c < n
  | .status c => c < n
  | .resLen c => c < n
  | .resRem c => c < n
  | .resOutStart c => c < n

/-- The machine is one the model gives a meaning, and it has not faulted: its agents have steps (00_scope.md R15,
60_exceptions.md R214). -/
def State.live (s : State) : Prop :=
  nCtxWf s.nCtx = true ∧ s.cfg.wf = true ∧ s.fault = none

/-- A command of the kind `p` is in flight in a context other than `c`. -/
def State.busyElsewhere (s : State) (c : Nat) (p : Instr → Prop) : Prop :=
  ∃ c' < s.nCtx, c' ≠ c ∧ (s.ctx c').busy = true ∧ p (s.ctx c').latch.cmd

/-- An address in both ranges. -/
def Region.meets (x y : Region) : Prop :=
  ∃ a, x.contains a = true ∧ y.contains a = true

/-- The footprints of a new ENCODE conflict with those of one in flight (20_memory.md R97). -/
def footprintsConflict (cfg : Config) (new old : Latch) : Prop :=
  Region.meets (new.dstFP cfg) old.srcFP ∨ Region.meets (new.dstFP cfg) (old.dstFP cfg) ∨
    Region.meets new.srcFP (old.dstFP cfg)

/-- The conditions of R171 on the machine: no race with a build or a registration, READY, and a registration if the
form is pointer-less. -/
structure EncodeAllowed (s : State) (c : Nat) (m : Mode) : Prop where
  noBuild : ¬ s.busyElsewhere c fun i => i = .buildTable ∨ i = .flattenTable ∨ i = .buildJump
  noRegister : m.p = false → ¬ s.busyElsewhere c fun i => i = .registerBuffers
  ready : s.tableBuilt = true ∧ s.flatBuilt = true ∧ s.jumpBuilt = true
  registered : m.p = false → s.regValid = true

/-- The conditions of R171 on the operands: every needed register written, no offset or length negative, no footprint
past 2^32, the own footprints disjoint, and no conflict with an ENCODE in flight elsewhere. -/
structure EncodeOperandsOk (s : State) (c : Nat) (m : Mode) (l : Latch) : Prop where
  written : ∀ r ∈ m.needs, (s.ctx c).argWritten r = true
  doffNonneg : 0 ≤ l.doff.toInt
  lenNonneg : 0 ≤ l.len.toInt
  soffNonneg : 0 ≤ l.soff.toInt
  srcInSpace : l.sbase.toNat + l.soff.toNat + l.len.toNat ≤ 2 ^ 32
  dstInSpace : l.dbase.toNat + l.doff.toNat + s.cfg.bound l.len.toNat ≤ 2 ^ 32
  disjoint : ¬ Region.meets l.srcFP (l.dstFP s.cfg)
  noConflict :
    ∀ c' < s.nCtx, c' ≠ c → (s.ctx c').busy = true → (s.ctx c').latch.cmd.isEncode = true →
      ¬ footprintsConflict s.cfg l (s.ctx c').latch

/-- Every byte of both footprints is admitted (20_memory.md R93). -/
def Latch.admitted (cfg : Config) (l : Latch) : Prop :=
  ∀ a, l.srcFP.contains a = true ∨ (l.dstFP cfg).contains a = true → cfg.admits a = true

/-- `Bits(b_0 ... b_{L-1})` from a code table (41_encode.md R161). -/
def tableBits (table : List Code) (input : List Byte) : List Bool :=
  (input.map fun b => (codeAt table b.toNat).bits).flatten ++ (codeAt table 256).bits

/-! ### Invariants -/

/-- The built register files hold what R38, R39, R40 and R145 say, and a FLATTEN_TABLE is in flight only once TABLE is
built (R144). -/
structure TablesSound (s : State) : Prop where
  table : s.tableBuilt = true → s.table = s.cfg.codeTable
  flat : s.flatBuilt = true → s.flat = flatten s.cfg.codeTable
  jump : s.jumpBuilt = true → s.jump = s.cfg.jumpTable
  flattenLater : ∀ c < s.nCtx, (s.ctx c).busy = true → (s.ctx c).latch.cmd = .flattenTable → s.tableBuilt = true

/-- STATUS is legal (R48): BUSY and DONE are never both 1, and while BUSY the field LAST_OP is the OP of the latched
command, whose fields fit their widths. Between steps PHASE is IDLE (R56, R185). -/
structure StatusSound (s : State) : Prop where
  notBoth : ∀ c < s.nCtx, ¬ ((s.ctx c).busy = true ∧ (s.ctx c).done = true)
  lastOp : ∀ c < s.nCtx, (s.ctx c).busy = true → (s.ctx c).lastOp = (s.ctx c).latch.cmd.op
  latched : ∀ c < s.nCtx, (s.ctx c).busy = true → (s.ctx c).latch.cmd.wf = true
  phase : ∀ c < s.nCtx, (s.ctx c).dp.phase = .idle

/-- What holds of the commands in flight: what their issue checked still holds (R171, R200; 20_memory.md R97, R100). -/
structure InFlightSound (s : State) : Prop where
  ready : ∀ c < s.nCtx, s.inFlight Instr.isEncode c = true →
    s.tableBuilt = true ∧ s.flatBuilt = true ∧ s.jumpBuilt = true
  operands : ∀ c < s.nCtx, s.inFlight Instr.isEncode c = true →
    (s.ctx c).latch.doff.toNat < 2 ^ 31 ∧ (s.ctx c).latch.len.toNat < 2 ^ 31 ∧ (s.ctx c).latch.soff.toNat < 2 ^ 31
  inSpace : ∀ c < s.nCtx, s.inFlight Instr.isEncode c = true →
    (s.ctx c).latch.srcFP.base + (s.ctx c).latch.srcFP.size ≤ 2 ^ 32 ∧
      ((s.ctx c).latch.dstFP s.cfg).base + ((s.ctx c).latch.dstFP s.cfg).size ≤ 2 ^ 32
  disjoint : ∀ c < s.nCtx, s.inFlight Instr.isEncode c = true →
    ¬ Region.meets (s.ctx c).latch.srcFP ((s.ctx c).latch.dstFP s.cfg)
  noBuild : ∀ c < s.nCtx, s.inFlight Instr.isEncode c = true → ∀ c' < s.nCtx, c' ≠ c →
    s.inFlight Instr.isBuild c' = false
  noRegister : ∀ c < s.nCtx, s.inFlight Instr.isEncodeG c = true → ∀ c' < s.nCtx, c' ≠ c →
    s.inFlight (fun i => decide (i = .registerBuffers)) c' = false
  noConflict : ∀ c < s.nCtx, s.inFlight Instr.isEncode c = true → ∀ c' < s.nCtx, c' ≠ c →
    s.inFlight Instr.isEncode c' = true → ¬ footprintsConflict s.cfg (s.ctx c).latch (s.ctx c').latch

/-- The invariant of the machine: memory is in its canonical form, the register files, STATUS and the commands in flight
are sound. -/
structure Inv (s : State) : Prop where
  mem : s.mem.wf = true
  tables : TablesSound s
  status : StatusSound s
  flight : InFlightSound s

end Sys2Proof.Machine
end

