-- ==== Sys2Proof/Certificates/Slice0/Obligations.lean ====
section
/-! DEFINITION. The statements for the provers, from the spec's numbered rules. In every statement `s.turn` says which
half of a command runs, its issue or its Perform (log 8), and a premise on it shuts out no form: the other half has its
own clause or statement. -/

open Sys2Proof Sys2Proof.Machine

/-! ### The command word (30_encoding.md) -/

/-- R137 (all eight ENCODE words) and the four fixed words of R136: each word decodes to its command. -/
def Obligations.CommandWordsDecode : Prop :=
  decode 0x00000001#32 = .ok .buildTable ∧ decode 0x00000002#32 = .ok .flattenTable ∧
    decode 0x00000003#32 = .ok .buildJump ∧ decode 0x00000004#32 = .ok .registerBuffers ∧
    decode 0x00000035#32 = .ok (.encodeP 0) ∧ decode 0x00000075#32 = .ok (.encodePSo 0) ∧
    decode 0x000000B5#32 = .ok (.encodePRr 0) ∧ decode 0x000000F5#32 = .ok (.encodePSoRr 0) ∧
    decode 0x00000005#32 = .ok (.encodeG 0) ∧ decode 0x00000045#32 = .ok (.encodeGSo 0) ∧
    decode 0x00000085#32 = .ok (.encodeGRr 0) ∧ decode 0x000000C5#32 = .ok (.encodeGSoRr 0)

/-- R130, R136: decoding the word of a well-formed command gives the command back, with every STRAT. -/
def Obligations.DecodeOfEncode : Prop :=
  ∀ i : Instr, i.wf = true → decode (encode i) = .ok i

/-- R130: a word that decodes is exactly the word of the well-formed command it decodes to, so there is one word for
each of the 132 commands; and its OP field is the command's (R121). -/
def Obligations.EncodeOfDecode : Prop :=
  ∀ (w : Word) (i : Instr), decode w = .ok i → i.wf = true ∧ encode i = w ∧ i.op = w.extractLsb' 0 4

/-- R128, R129, and with them every illegal class of R133: a write of such a word to an idle context's CMD raises F06,
which records the context and the word (R211). -/
def Obligations.IllegalWordFaults : Prop :=
  ∀ (s : State) (es : List Event) (c : Nat) (w : Word), s.live → c < s.nCtx → (s.ctx c).busy = false →
    s.schedule = .regWrite (0x100 + 0x40 * c) 32 w :: es →
    (w.extractLsb' 13 19 ≠ 0#19 ∨ w.getLsbD 12 = true ∨ w.extractLsb' 0 4 = 0x0#4 ∨ 0x6#4 ≤ w.extractLsb' 0 4 ∨
      (w.extractLsb' 0 4 ≠ 0x5#4 ∧ w.extractLsb' 4 28 ≠ 0#28) ∨
      (w.extractLsb' 0 4 = 0x5#4 ∧ w.getLsbD 4 ≠ w.getLsbD 5)) →
    step s = .fault (.illegalCommand c w)

/-! ### The register window (30_encoding.md) -/

/-- R111: a window access that is not 32-bit, or whose offset is not divisible by 4, raises F01. -/
def Obligations.MisalignedAccessFaults : Prop :=
  ∀ (s : State) (es : List Event) (off width : Nat) (v : Word), s.live → width ≠ 32 ∨ off % 4 ≠ 0 →
    s.schedule = .regRead off width :: es ∨ s.schedule = .regWrite off width v :: es →
    step s = .fault (.busMisaligned off width)

/-- R112, with the unmapped offsets of R110 and R115: an aligned 32-bit access there raises F02. -/
def Obligations.UnmappedAccessFaults : Prop :=
  ∀ (s : State) (es : List Event) (off : Nat) (v : Word), s.live → off % 4 = 0 →
    ((0x014 ≤ off ∧ off < 0x100) ∨ (0x100 + 0x40 * s.nCtx ≤ off ∧ off < 0x800) ∨ 0xC04 ≤ off ∨
      ∃ c < s.nCtx, 0x100 + 0x40 * c + 0x28 ≤ off ∧ off ≤ 0x100 + 0x40 * c + 0x3C) →
    s.schedule = .regRead off 32 :: es ∨ s.schedule = .regWrite off 32 v :: es →
    step s = .fault (.busUnmapped off)

/-- R113: a write to a read-only register raises F03. -/
def Obligations.ReadOnlyWriteFaults : Prop :=
  ∀ (s : State) (es : List Event) (off : Nat) (v : Word), s.live →
    (off = 0x000 ∨ off = 0x004 ∨ off = 0x008 ∨ off = 0x00C ∨ off = 0x010 ∨ (∃ sym ≤ 256, off = 0x800 + 4 * sym) ∨
      ∃ c < s.nCtx, off = 0x100 + 0x40 * c + 0x18 ∨ off = 0x100 + 0x40 * c + 0x1C ∨ off = 0x100 + 0x40 * c + 0x20 ∨
        off = 0x100 + 0x40 * c + 0x24) →
    s.schedule = .regWrite off 32 v :: es → step s = .fault (.busReadOnlyWrite off)

/-- R114: a write to an argument register of a busy context raises F05. -/
def Obligations.ArgWriteWhileBusyFaults : Prop :=
  ∀ (s : State) (es : List Event) (c : Nat) (r : ArgReg) (v : Word), s.live → c < s.nCtx → (s.ctx c).busy = true →
    s.schedule = .regWrite (Reg.arg c r).offset 32 v :: es →
    step s = .fault (.argWriteWhileBusy c (Reg.arg c r).offset)

/-- R120 (its first line), R250: a write to CMD of a busy context raises F04, whatever the word. -/
def Obligations.CommandWhileBusyFaults : Prop :=
  ∀ (s : State) (es : List Event) (c : Nat) (w : Word), s.live → c < s.nCtx → (s.ctx c).busy = true →
    s.schedule = .regWrite (0x100 + 0x40 * c) 32 w :: es → step s = .fault (.commandWhileBusy c)

/-- R116: a write to an argument register of an idle context sets the register to the value and its written flag to 1,
and has no other effect (the step itself leaves the schedule). -/
def Obligations.ArgWriteStores : Prop :=
  ∀ (s : State) (es : List Event) (c : Nat) (r : ArgReg) (v : Word), s.live → c < s.nCtx → (s.ctx c).busy = false →
    s.schedule = .regWrite (Reg.arg c r).offset 32 v :: es →
    ∃ k : Context, step s = .next { s with schedule := es, ctxs := s.ctxs.set c k } ∧
      k.arg r = v ∧ k.argWritten r = true ∧
      (∀ r' ≠ r, k.arg r' = (s.ctx c).arg r' ∧ k.argWritten r' = (s.ctx c).argWritten r') ∧
      k.cmd = (s.ctx c).cmd ∧ k.written.cmd = (s.ctx c).written.cmd ∧ k.busy = (s.ctx c).busy ∧
      k.done = (s.ctx c).done ∧ k.lastOp = (s.ctx c).lastOp ∧ k.resLen = (s.ctx c).resLen ∧
      k.resRem = (s.ctx c).resRem ∧ k.resOutStart = (s.ctx c).resOutStart ∧ k.encoded = (s.ctx c).encoded ∧
      k.latch = (s.ctx c).latch ∧ k.dp = (s.ctx c).dp

/-- R117, with the value each register's rule gives: R46, R47 (CMD and arguments), R48 (STATUS), R49 (results), R50
(GSTATUS), R51 (ID), R52 (CONFIG), R53 (the bases), R54 (TBL). A draw is the next free value (log 9). No other state
changes. -/
def Obligations.RegisterReads : Prop :=
  ∀ (s : State) (es : List Event) (r : Reg), s.live → r.existsIn s.nCtx → s.schedule = .regRead r.offset 32 :: es →
    ∃ (t : State) (v : Word), step s = .next t ∧
      t = { s with schedule := es, reply := .word v, draws := t.draws } ∧
      match r with
      | .id => v = 0x48554631#32
      | .gstatus =>
        v.toNat = s.tableBuilt.toNat + 2 * s.flatBuilt.toNat + 4 * s.jumpBuilt.toNat +
          8 * (s.tableBuilt && s.flatBuilt && s.jumpBuilt).toNat + 16 * s.regValid.toNat
      | .regInBase => v = if s.regValid then s.regInBase else Config.freeWord s.draws
      | .regOutBase => v = if s.regValid then s.regOutBase else Config.freeWord s.draws
      | .config => v.toNat = s.nCtx + 0x100 * s.cfg.maxCodeLen + 0x10000 * 16
      | .tbl sym =>
        if s.tableBuilt then v.toNat = 0x10000 * (codeAt s.table sym).len.toNat + (codeAt s.table sym).pat.toNat
        else v = Config.freeWord s.draws
      | .cmd c => v = if (s.ctx c).written.cmd then (s.ctx c).cmd else Config.freeWord s.draws
      | .arg c a => v = if (s.ctx c).argWritten a then (s.ctx c).arg a else Config.freeWord s.draws
      | .status c =>
        v.toNat = (s.ctx c).busy.toNat + 2 * (s.ctx c).done.toNat + 0x10 * (s.ctx c).lastOp.toNat
      | .resLen c =>
        v = if (s.ctx c).busy = false ∧ (s.ctx c).encoded = true then (s.ctx c).resLen else Config.freeWord s.draws
      | .resRem c =>
        v = if (s.ctx c).busy = false ∧ (s.ctx c).encoded = true then (s.ctx c).resRem else Config.freeWord s.draws
      | .resOutStart c =>
        v = if (s.ctx c).busy = false ∧ (s.ctx c).encoded = true then (s.ctx c).resOutStart
          else Config.freeWord s.draws

/-! ### Which command a step runs (10_state.md R30; 30_encoding.md R120) -/

/-- R120: a write of a legal word to CMD of an idle context runs the decoded command's issue, in the state with CMD and
its written flag set. -/
def Obligations.CommandWriteRunsDecoded : Prop :=
  ∀ (s : State) (es : List Event) (c : Nat) (w : Word) (i : Instr), s.live → c < s.nCtx → (s.ctx c).busy = false →
    s.schedule = .regWrite (0x100 + 0x40 * c) 32 w :: es → decode w = .ok i →
    step s =
      exec i
        { s with
          schedule := es
          turn := .issue c
          ctxs := s.ctxs.set c { s.ctx c with cmd := w, written := { (s.ctx c).written with cmd := true } } }

/-- R30(b), R57: a scheduled Perform of a busy context runs the Perform of the latched command; and when no host step is
left, the lowest-numbered busy context performs (the model's choice of order, log 6). -/
def Obligations.PerformRunsLatched : Prop :=
  ∀ (s : State) (es : List Event) (c : Nat), s.live → (s.ctx c).busy = true →
    s.schedule = .perform c :: es ∨ (s.schedule = [] ∧ es = [] ∧ ∀ c' < c, (s.ctx c').busy = false) →
    step s = exec (s.ctx c).latch.cmd { s with schedule := es, turn := .perform c }

/-- R30(b): Perform(c) is enabled exactly when BUSY = 1; a schedule that names one that is not is refused (the model's
choice, log 7). -/
def Obligations.IdlePerformRefused : Prop :=
  ∀ (s : State) (es : List Event) (c : Nat), s.live → (s.ctx c).busy = false → s.schedule = .perform c :: es →
    step s = .refused (.stepNotEnabled c)

/-- R15, with R8 (N_CTX), R33-R36 and R40 as what is checked: a configuration that breaks them is refused before any
step. -/
def Obligations.IllFormedConfigRefused : Prop :=
  ∀ s : State, s.nCtx < 1 ∨ 16 < s.nCtx ∨ s.cfg.wf = false → step s = .refused .illFormedConfig

/-- R227, R262: when no host step is left, every command in flight performs within N_CTX steps, unless a Perform raises
F17; the end is a final state (R264), which stays as it is. -/
def Obligations.EngineDrains : Prop :=
  ∀ s : State, s.live → s.schedule = [] →
    ∃ k ≤ s.nCtx,
      (∃ t, runSteps k s = .next t ∧ t.final ∧ step t = .next t) ∨ ∃ c a, runSteps k s = .fault (.outOfBounds c a)

/-! ### The build commands (40_table_build.md) -/

/-- R140: BUILD_TABLE. F07 against an ENCODE or a FLATTEN_TABLE elsewhere; otherwise the issue latches it; its Perform
loads TABLE from CODE_TABLE and sets TABLE_BUILT, and cannot fault. Nothing else changes. -/
def Obligations.BuildTableCommand : Prop :=
  decode 0x00000001#32 = .ok .buildTable ∧
    ∀ (s : State) (c : Nat),
      (s.turn = .issue c → s.busyElsewhere c (fun i => i.isEncode = true ∨ i = .flattenTable) →
        exec .buildTable s = .fault (.initRace c)) ∧
      (s.turn = .issue c → ¬ s.busyElsewhere c (fun i => i.isEncode = true ∨ i = .flattenTable) →
        ∃ l : Latch, l.cmd = .buildTable ∧
          exec .buildTable s =
            .next { s with ctxs := s.ctxs.set c { s.ctx c with latch := l, lastOp := 0x1#4, done := false, busy := true } }) ∧
      (s.turn = .perform c →
        exec .buildTable s =
          .next
            { s with
              table := s.cfg.codeTable
              tableBuilt := true
              ctxs := s.ctxs.set c { s.ctx c with busy := false, done := true } })

/-- R144: FLATTEN_TABLE. F07 against an ENCODE or a BUILD_TABLE elsewhere, then F09; otherwise the issue latches it; its
Perform writes the length and then the pattern of each entry of TABLE, and cannot fault. Nothing else changes. -/
def Obligations.FlattenTableCommand : Prop :=
  decode 0x00000002#32 = .ok .flattenTable ∧
    ∀ (s : State) (c : Nat),
      (s.turn = .issue c → s.busyElsewhere c (fun i => i.isEncode = true ∨ i = .buildTable) →
        exec .flattenTable s = .fault (.initRace c)) ∧
      (s.turn = .issue c → ¬ s.busyElsewhere c (fun i => i.isEncode = true ∨ i = .buildTable) →
        s.tableBuilt = false → exec .flattenTable s = .fault (.flattenBeforeBuild c)) ∧
      (s.turn = .issue c → ¬ s.busyElsewhere c (fun i => i.isEncode = true ∨ i = .buildTable) →
        s.tableBuilt = true →
        ∃ l : Latch, l.cmd = .flattenTable ∧
          exec .flattenTable s =
            .next { s with ctxs := s.ctxs.set c { s.ctx c with latch := l, lastOp := 0x2#4, done := false, busy := true } }) ∧
      (s.turn = .perform c →
        ∃ flat : List Word,
          exec .flattenTable s =
            .next
              { s with
                flat := flat
                flatBuilt := true
                ctxs := s.ctxs.set c { s.ctx c with busy := false, done := true } } ∧
          flat.length = 2 * s.table.length ∧
          ∀ sym < s.table.length,
            flatAt flat (2 * sym) = (codeAt s.table sym).len.zeroExtend 32 ∧
              flatAt flat (2 * sym + 1) = (codeAt s.table sym).pat.zeroExtend 32)

/-- R148: BUILD_JUMP. F07 against an ENCODE elsewhere; otherwise the issue latches it; its Perform loads JUMP from
JUMP_TABLE and sets JUMP_BUILT, and cannot fault. Nothing else changes. -/
def Obligations.BuildJumpCommand : Prop :=
  decode 0x00000003#32 = .ok .buildJump ∧
    ∀ (s : State) (c : Nat),
      (s.turn = .issue c → s.busyElsewhere c (fun i => i.isEncode = true) →
        exec .buildJump s = .fault (.initRace c)) ∧
      (s.turn = .issue c → ¬ s.busyElsewhere c (fun i => i.isEncode = true) →
        ∃ l : Latch, l.cmd = .buildJump ∧
          exec .buildJump s =
            .next { s with ctxs := s.ctxs.set c { s.ctx c with latch := l, lastOp := 0x3#4, done := false, busy := true } }) ∧
      (s.turn = .perform c →
        exec .buildJump s =
          .next
            { s with
              jump := s.cfg.jumpTable
              jumpBuilt := true
              ctxs := s.ctxs.set c { s.ctx c with busy := false, done := true } })

/-- R142, R146: where the built tables hold what the machine's invariant says, a repeated BUILD_TABLE or FLATTEN_TABLE
changes no entry and no build flag: its Perform changes only the context's STATUS. -/
def Obligations.RepeatedBuildChangesNothing : Prop :=
  ∀ (s : State) (c : Nat), TablesSound s → s.turn = .perform c → s.tableBuilt = true →
    exec .buildTable s = .next { s with ctxs := s.ctxs.set c { s.ctx c with busy := false, done := true } } ∧
      (s.flatBuilt = true →
        exec .flattenTable s = .next { s with ctxs := s.ctxs.set c { s.ctx c with busy := false, done := true } })

/-- R141: BUILD_TABLE is the only writer of TABLE, and it writes exactly CODE_TABLE: a step that changes TABLE is the
Perform of one, which ends it, or a Reset, which makes TABLE unspecified again (R59). -/
def Obligations.OnlyBuildTableWritesTable : Prop :=
  ∀ s t : State, step s = .next t → t.table ≠ s.table →
    (∃ es, s.schedule = .reset :: es) ∨
      ∃ c, (s.ctx c).busy = true ∧ (s.ctx c).latch.cmd = .buildTable ∧ (t.ctx c).busy = false ∧
        (t.ctx c).done = true ∧ t.table = s.cfg.codeTable

/-- R38, R39, R41, R143, R147: once built, the tables and the build flags stay until the next Reset. -/
def Obligations.BuiltTablesStay : Prop :=
  ∀ s t : State, TablesSound s → step s = .next t → (∀ es, s.schedule ≠ .reset :: es) →
    (s.tableBuilt = true → t.tableBuilt = true ∧ t.table = s.table) ∧
      (s.flatBuilt = true → t.flatBuilt = true ∧ t.flat = s.flat) ∧
      (s.jumpBuilt = true → t.jumpBuilt = true ∧ t.jump = s.jump)

/-! ### REGISTER_BUFFERS (42_registration.md) -/

/-- R200: REGISTER_BUFFERS. F08 against an ENCODE.G elsewhere, then F12 for an operand never written; otherwise the issue
latches the two bases; its Perform overwrites the slot (R201) and cannot fault. Nothing else changes. -/
def Obligations.RegisterBuffersCommand : Prop :=
  decode 0x00000004#32 = .ok .registerBuffers ∧
    ∀ (s : State) (c : Nat),
      (s.turn = .issue c → s.busyElsewhere c (fun i => i.isEncodeG = true) →
        exec .registerBuffers s = .fault (.registrationRace c)) ∧
      (s.turn = .issue c → ¬ s.busyElsewhere c (fun i => i.isEncodeG = true) →
        (s.ctx c).written.src = false ∨ (s.ctx c).written.dst = false →
        ∃ r, (s.ctx c).argWritten r = false ∧ (r = .src ∨ r = .dst) ∧
          exec .registerBuffers s = .fault (.unwrittenOperand c r)) ∧
      (s.turn = .issue c → ¬ s.busyElsewhere c (fun i => i.isEncodeG = true) →
        (s.ctx c).written.src = true → (s.ctx c).written.dst = true →
        ∃ l : Latch, l.cmd = .registerBuffers ∧ l.sbase = (s.ctx c).argSrc ∧ l.dbase = (s.ctx c).argDst ∧
          exec .registerBuffers s =
            .next { s with ctxs := s.ctxs.set c { s.ctx c with latch := l, lastOp := 0x4#4, done := false, busy := true } }) ∧
      (s.turn = .perform c →
        exec .registerBuffers s =
          .next
            { s with
              regInBase := (s.ctx c).latch.sbase
              regOutBase := (s.ctx c).latch.dbase
              regValid := true
              ctxs := s.ctxs.set c { s.ctx c with busy := false, done := true } })

/-- R204, R53: the registration keeps its value until a REGISTER_BUFFERS performs, which ends it, or a Reset. -/
def Obligations.RegistrationKept : Prop :=
  ∀ s t : State, step s = .next t →
    t.regInBase ≠ s.regInBase ∨ t.regOutBase ≠ s.regOutBase ∨ t.regValid ≠ s.regValid →
    (∃ es, s.schedule = .reset :: es) ∨
      ∃ c, (s.ctx c).busy = true ∧ (s.ctx c).latch.cmd = .registerBuffers ∧ (t.ctx c).busy = false ∧
        (t.ctx c).done = true ∧ t.regValid = true ∧ t.regInBase = (s.ctx c).latch.sbase ∧
        t.regOutBase = (s.ctx c).latch.dbase

/-- R203: the registration has no effect on ENCODE.P, ENCODE.P.SO, ENCODE.P.RR and ENCODE.P.SO.RR: with another slot
the same issue or Perform has the same outcome, the slot apart; and the two do not race, whichever is issued first. -/
def Obligations.ExplicitEncodeIgnoresRegistration : Prop :=
  ∀ (s : State) (so rr : Bool) (strat : Nat) (inB outB : Addr) (valid : Bool),
    (∀ t, exec (encodeForm true so rr strat) s = .next t →
      exec (encodeForm true so rr strat) { s with regInBase := inB, regOutBase := outB, regValid := valid } =
        .next { t with regInBase := inB, regOutBase := outB, regValid := valid }) ∧
    (∀ f, exec (encodeForm true so rr strat) s = .fault f →
      exec (encodeForm true so rr strat) { s with regInBase := inB, regOutBase := outB, regValid := valid } = .fault f) ∧
    (∀ c, exec (encodeForm true so rr strat) s ≠ .fault (.registrationRace c)) ∧
    ∀ c, s.turn = .issue c →
      (∀ c' < s.nCtx, c' ≠ c → (s.ctx c').busy = true →
        ∃ so' rr' strat', (s.ctx c').latch.cmd = encodeForm true so' rr' strat') →
      exec .registerBuffers s ≠ .fault (.registrationRace c)

/-! ### The code table and the encode function (10_state.md R32-R37; 41_encode.md R161-R184) -/

/-- R32-R36: the tables the model accepts are exactly those with 257 entries, lengths 1..16, no stray bits, no code a
prefix of another, Kraft sum 1, and the two pinned entries; a machine with any other table is refused. -/
def Obligations.AcceptedCodeTables : Prop :=
  (∀ s : State, codeTableWf s.cfg.codeTable = false → step s = .refused .illFormedConfig) ∧
  ∀ table : List Code,
    codeTableWf table = true ↔
      table.length = 257 ∧
        (∀ sym ≤ 256, 1 ≤ (codeAt table sym).len.toNat ∧ (codeAt table sym).len.toNat ≤ 16) ∧
        (∀ sym ≤ 256, (codeAt table sym).pat.toNat < 2 ^ (codeAt table sym).len.toNat) ∧
        (∀ a ≤ 256, ∀ b ≤ 256, a ≠ b → ¬ (codeAt table a).bits <+: (codeAt table b).bits) ∧
        ((List.range 257).map fun sym => 2 ^ (16 - (codeAt table sym).len.toNat)).sum = 2 ^ 16 ∧
        codeAt table 64 = ⟨5#5, 0x0A#16⟩ ∧ codeAt table 256 = ⟨4#5, 0x0D#16⟩

/-- R37: MAX_CODE_LEN is the largest length of the table, 9 <= MAX_CODE_LEN <= 16 for every well-formed table, and
CONFIG holds it in every state, before BUILD_TABLE too. -/
def Obligations.MaxCodeLenRange : Prop :=
  ∀ cfg : Config, cfg.wf = true →
    (∀ sym ≤ 256, (codeAt cfg.codeTable sym).len.toNat ≤ cfg.maxCodeLen) ∧
      (∃ sym ≤ 256, (codeAt cfg.codeTable sym).len.toNat = cfg.maxCodeLen) ∧ 9 ≤ cfg.maxCodeLen ∧ cfg.maxCodeLen ≤ 16 ∧
      ∀ s : State, s.cfg = cfg → (s.configWord.extractLsb' 8 8).toNat = cfg.maxCodeLen

/-- R161-R165 (and R17, R83): OUT, read bit 7 first, is the codes of the bytes in order, then the terminator's code,
then 8N - |Bits| zero bits, at most 7; and N = ceil(|Bits| / 8) with |Bits| the sum of the lengths plus 4. -/
def Obligations.OutputBits : Prop :=
  ∀ (cfg : Config) (input : List Byte), cfg.wf = true →
    ∃ pad ≤ 7,
      unpack (encodeOut (flatten cfg.codeTable) input) = tableBits cfg.codeTable input ++ List.replicate pad false ∧
        pad + (tableBits cfg.codeTable input).length = 8 * (encodeOut (flatten cfg.codeTable) input).length ∧
        (tableBits cfg.codeTable input).length =
          (input.map fun b => (codeAt cfg.codeTable b.toNat).len.toNat).sum + 4 ∧
        (encodeOut (flatten cfg.codeTable) input).length = ((tableBits cfg.codeTable input).length + 7) / 8

/-- R166, R168: `ceil((L*m + 4)/8) <= N <= BOUND(L) = ceil(MAX_CODE_LEN*L/8) + 1` for every input of L bytes, where no
code is shorter than m; so N >= 1. -/
def Obligations.OutputLengthBounds : Prop :=
  ∀ (cfg : Config) (input : List Byte) (m : Nat), cfg.wf = true →
    (∀ sym ≤ 256, m ≤ (codeAt cfg.codeTable sym).len.toNat) →
    cfg.bound input.length = (cfg.maxCodeLen * input.length + 7) / 8 + 1 ∧
      (encodeOut (flatten cfg.codeTable) input).length ≤ cfg.bound input.length ∧
      (input.length * m + 4 + 7) / 8 ≤ (encodeOut (flatten cfg.codeTable) input).length ∧
      1 ≤ (encodeOut (flatten cfg.codeTable) input).length

/-- R167: with L = 0, Bits = 1101, OUT = [0xD0], N = 1 and BOUND(0) = 1, for every well-formed table: no source byte is
in the footprint, and one destination byte is. -/
def Obligations.ZeroLengthOutput : Prop :=
  ∀ cfg : Config, cfg.wf = true →
    tableBits cfg.codeTable [] = [true, true, false, true] ∧ encodeOut (flatten cfg.codeTable) [] = [0xD0#8] ∧
      cfg.bound 0 = 1 ∧
      ∀ l : Latch, l.len = 0#32 →
        ∀ a, l.srcFP.contains a = false ∧ ((l.dstFP cfg).contains a = true ↔ a = l.dbase.toNat + l.doff.toNat)

/-- R194: the byte 64 gives the bits 010101101 and the bytes 0x56 0x80, for every well-formed table. -/
def Obligations.WorkedExample : Prop :=
  ∀ cfg : Config, cfg.wf = true →
    tableBits cfg.codeTable [64#8] = [false, true, false, true, false, true, true, false, true] ∧
      encodeOut (flatten cfg.codeTable) [64#8] = [0x56#8, 0x80#8]

/-- R180: the reference decoder of R181 returns the input, for every well-formed table and every input. -/
def Obligations.RoundTrip : Prop :=
  ∀ (cfg : Config) (input : List Byte), cfg.wf = true →
    refDecode cfg.codeTable (encodeOut (flatten cfg.codeTable) input) = some input

/-- R184: for a well-formed table, OUT determines the input. -/
def Obligations.OutputDeterminesInput : Prop :=
  ∀ (cfg : Config) (x y : List Byte), cfg.wf = true →
    encodeOut (flatten cfg.codeTable) x = encodeOut (flatten cfg.codeTable) y → x = y

/-- R190: on footprints inside the address space that share no byte, the reference datapath of R185-R189 writes exactly
OUT from dbase + doff on and no other byte, gives RES_LEN = N, and ends with CNT = 0 and PHASE = IDLE. -/
def Obligations.DatapathRefinesEncode : Prop :=
  ∀ (cfg : Config) (l : Latch) (m : Memory), cfg.wf = true → m.wf = true →
    l.sbase.toNat + l.soff.toNat + l.len.toNat ≤ 2 ^ 32 →
    l.dbase.toNat + l.doff.toNat + cfg.bound l.len.toNat ≤ 2 ^ 32 → ¬ Region.meets l.srcFP (l.dstFP cfg) →
    ∀ out, out = encodeOut (flatten cfg.codeTable) (m.readBytes (l.sbase.toNat + l.soff.toNat) l.len.toNat) →
      (Engine.run (flatten cfg.codeTable) l m).mem = m.writeBytes (l.dbase.toNat + l.doff.toNat) out ∧
        (Engine.resLen l (Engine.run (flatten cfg.codeTable) l m)).toNat = out.length ∧
        (Engine.run (flatten cfg.codeTable) l m).dp.cnt = 0#32 ∧
        (Engine.run (flatten cfg.codeTable) l m).dp.phase = .idle

/-! ### ENCODE (41_encode.md R160-R183; 20_memory.md) -/

/-- R171, R175, R176, R177: every form, ENCODE.P, ENCODE.P.SO, ENCODE.P.RR, ENCODE.P.SO.RR (p = 1) and ENCODE.G,
ENCODE.G.SO, ENCODE.G.RR, ENCODE.G.SO.RR (p = 0), whose conditions hold issues: it latches the operands its mode names,
sets LAST_OP, clears DONE and sets BUSY, and changes nothing else. -/
def Obligations.EncodeIssueCompletes : Prop :=
  ∀ (s : State) (c : Nat) (p so rr : Bool) (strat : Nat) (l : Latch), s.turn = .issue c →
    l =
      { cmd := encodeForm p so rr strat
        sbase := if p then (s.ctx c).argSrc else s.regInBase
        dbase := if p then (s.ctx c).argDst else s.regOutBase
        doff := (s.ctx c).argDoff
        len := (s.ctx c).argLen
        soff := if so then (s.ctx c).argSoff else 0#32 } →
    EncodeAllowed s c ⟨p, so, rr⟩ → EncodeOperandsOk s c ⟨p, so, rr⟩ l →
    exec (encodeForm p so rr strat) s =
      .next { s with ctxs := s.ctxs.set c { s.ctx c with latch := l, lastOp := 0x5#4, done := false, busy := true } }

/-- R171, R212(c): the issue checks of every ENCODE form, in their order: F07, F08, F10, F11, F12, F13, F14, F15, F16.
Each clause takes the earlier checks as passed. -/
def Obligations.EncodeIssueFaults : Prop :=
  ∀ (s : State) (c : Nat) (p so rr : Bool) (strat : Nat) (l : Latch), s.turn = .issue c →
    l = s.encodeLatch (encodeForm p so rr strat) ⟨p, so, rr⟩ c →
    (s.busyElsewhere c (fun i => i = .buildTable ∨ i = .flattenTable ∨ i = .buildJump) →
      exec (encodeForm p so rr strat) s = .fault (.initRace c)) ∧
    (¬ s.busyElsewhere c (fun i => i = .buildTable ∨ i = .flattenTable ∨ i = .buildJump) →
      (p = false ∧ s.busyElsewhere c (fun i => i = .registerBuffers) →
        exec (encodeForm p so rr strat) s = .fault (.registrationRace c)) ∧
      (¬ (p = false ∧ s.busyElsewhere c (fun i => i = .registerBuffers)) →
        (s.tableBuilt = false ∨ s.flatBuilt = false ∨ s.jumpBuilt = false →
          exec (encodeForm p so rr strat) s = .fault (.notInitialised c)) ∧
        (s.tableBuilt = true → s.flatBuilt = true → s.jumpBuilt = true → p = false → s.regValid = false →
          exec (encodeForm p so rr strat) s = .fault (.noRegistration c)))) ∧
    (EncodeAllowed s c ⟨p, so, rr⟩ →
      ((∃ r ∈ Mode.needs ⟨p, so, rr⟩, (s.ctx c).argWritten r = false) →
        ∃ r ∈ Mode.needs ⟨p, so, rr⟩, (s.ctx c).argWritten r = false ∧
          exec (encodeForm p so rr strat) s = .fault (.unwrittenOperand c r)) ∧
      ((∀ r ∈ Mode.needs ⟨p, so, rr⟩, (s.ctx c).argWritten r = true) →
        (l.doff.toInt < 0 ∨ l.len.toInt < 0 ∨ l.soff.toInt < 0 →
          ∃ r, exec (encodeForm p so rr strat) s = .fault (.negativeOperand c r) ∧
            (r = .doff ∧ l.doff.toInt < 0 ∨ r = .len ∧ l.len.toInt < 0 ∨ r = .soff ∧ l.soff.toInt < 0)) ∧
        (0 ≤ l.doff.toInt → 0 ≤ l.len.toInt → 0 ≤ l.soff.toInt →
          (2 ^ 32 < l.sbase.toNat + l.soff.toNat + l.len.toNat ∨
              2 ^ 32 < l.dbase.toNat + l.doff.toNat + s.cfg.bound l.len.toNat →
            exec (encodeForm p so rr strat) s = .fault (.addressOverflow c)) ∧
          (l.sbase.toNat + l.soff.toNat + l.len.toNat ≤ 2 ^ 32 →
            l.dbase.toNat + l.doff.toNat + s.cfg.bound l.len.toNat ≤ 2 ^ 32 →
            (Region.meets l.srcFP (l.dstFP s.cfg) → exec (encodeForm p so rr strat) s = .fault (.overlap c)) ∧
            (¬ Region.meets l.srcFP (l.dstFP s.cfg) →
              (∃ c' < s.nCtx, c' ≠ c ∧ (s.ctx c').busy = true ∧ (s.ctx c').latch.cmd.isEncode = true ∧
                footprintsConflict s.cfg l (s.ctx c').latch) →
              ∃ c' < s.nCtx, c' ≠ c ∧ (s.ctx c').busy = true ∧ (s.ctx c').latch.cmd.isEncode = true ∧
                footprintsConflict s.cfg l (s.ctx c').latch ∧
                exec (encodeForm p so rr strat) s = .fault (.footprintRace c c'))))))

/-- R172, R173, R87: the Perform of every form (the eight of `encodeForm`), in a state as its issue leaves it (FLAT
built, both footprints admitted and disjoint), completes: the N bytes of OUT stand from dbase + doff on, every tail byte
up to BOUND(L) is a draw, and every other byte of memory is as before. -/
def Obligations.EncodePerformWrites : Prop :=
  ∀ (s : State) (c : Nat) (p so rr : Bool) (strat : Nat) (out : List Byte), s.turn = .perform c → c < s.nCtx →
    s.cfg.wf = true → s.mem.wf = true → s.flat = flatten s.cfg.codeTable → (s.ctx c).latch.admitted s.cfg →
    ¬ Region.meets (s.ctx c).latch.srcFP ((s.ctx c).latch.dstFP s.cfg) →
    out =
      encodeOut (flatten s.cfg.codeTable)
        (s.mem.readBytes ((s.ctx c).latch.sbase.toNat + (s.ctx c).latch.soff.toNat) (s.ctx c).latch.len.toNat) →
    ∃ t : State, exec (encodeForm p so rr strat) s = .next t ∧
      (∀ j (hj : j < out.length),
        t.mem.read ((s.ctx c).latch.dbase.toNat + (s.ctx c).latch.doff.toNat + j) = out[j]) ∧
      (∀ j, out.length ≤ j → j < s.cfg.bound (s.ctx c).latch.len.toNat →
        ∃ k, s.draws ≤ k ∧ k < t.draws ∧
          t.mem.read ((s.ctx c).latch.dbase.toNat + (s.ctx c).latch.doff.toNat + j) = Config.freeByte k) ∧
      ∀ a, ((s.ctx c).latch.dstFP s.cfg).contains a = false → t.mem.read a = s.mem.read a

/-- R170, R174, R165: in such a state the Perform of every form completes with RES_LEN = N, RES_OUT_START = doff,
RES_REM = 0 if RR = 1 and a draw if RR = 0 (the model's reading, log 16), BUSY = 0, DONE = 1; besides memory no other
state of the spec changes but the hidden datapath registers. -/
def Obligations.EncodePerformCompletes : Prop :=
  ∀ (s : State) (c : Nat) (p so rr : Bool) (strat : Nat) (out : List Byte), s.turn = .perform c → c < s.nCtx →
    s.cfg.wf = true → s.mem.wf = true → s.flat = flatten s.cfg.codeTable → (s.ctx c).latch.admitted s.cfg →
    ¬ Region.meets (s.ctx c).latch.srcFP ((s.ctx c).latch.dstFP s.cfg) →
    out =
      encodeOut (flatten s.cfg.codeTable)
        (s.mem.readBytes ((s.ctx c).latch.sbase.toNat + (s.ctx c).latch.soff.toNat) (s.ctx c).latch.len.toNat) →
    ∃ t : State, exec (encodeForm p so rr strat) s = .next t ∧
      (t.ctx c).resLen.toNat = out.length ∧
      (rr = true → (t.ctx c).resRem = 0#32) ∧
      (rr = false → ∃ k, s.draws ≤ k ∧ k < t.draws ∧ (t.ctx c).resRem = Config.freeWord k) ∧
      t =
        { s with
          mem := t.mem
          draws := t.draws
          ctxs :=
            s.ctxs.set c
              { s.ctx c with
                resLen := (t.ctx c).resLen
                resRem := (t.ctx c).resRem
                resOutStart := (s.ctx c).latch.doff
                encoded := true
                dp := (t.ctx c).dp
                busy := false
                done := true } }

/-- R93: at the Perform of any ENCODE form, a footprint byte that fails ADMIT raises F17, which records such a byte;
it is the only fault of a Perform (R212(d)). -/
def Obligations.EncodeOutOfBoundsFaults : Prop :=
  ∀ (s : State) (c : Nat) (p so rr : Bool) (strat : Nat), s.turn = .perform c →
    ((∃ a, ((s.ctx c).latch.srcFP.contains a = true ∨ ((s.ctx c).latch.dstFP s.cfg).contains a = true) ∧
        s.cfg.admits a = false) →
      ∃ a, ((s.ctx c).latch.srcFP.contains a = true ∨ ((s.ctx c).latch.dstFP s.cfg).contains a = true) ∧
        s.cfg.admits a = false ∧ exec (encodeForm p so rr strat) s = .fault (.outOfBounds c a)) ∧
    ∀ f, exec (encodeForm p so rr strat) s = .fault f → ∃ a, f = .outOfBounds c a ∧ s.cfg.admits a = false

/-- R127: ENCODE accepts every STRAT value 0..15, and none changes the outcome of a Perform, nor that of an issue, the
latched STRAT apart. -/
def Obligations.StrategyHasNoEffect : Prop :=
  ∀ (s : State) (c : Nat) (p so rr : Bool) (n n' : Nat),
    (n < 16 → decode (encodeWord p so rr n) = .ok (encodeForm p so rr n)) ∧
    (s.turn = .perform c → exec (encodeForm p so rr n) s = exec (encodeForm p so rr n') s) ∧
    (s.turn = .issue c →
      (∀ f, exec (encodeForm p so rr n) s = .fault f → exec (encodeForm p so rr n') s = .fault f) ∧
      ∀ t, exec (encodeForm p so rr n) s = .next t →
        exec (encodeForm p so rr n') s =
          .next (t.setCtx c { t.ctx c with latch := { (t.ctx c).latch with cmd := encodeForm p so rr n' } }))

/-- R178: an RR = 1 form and its RR = 0 form fault alike, at issue and at Perform; the issues latch the same operands,
and the Performs' next states differ only in RES_REM, which the RR = 1 form sets to 0. (Both use up the same draws: the
model's choice, log 9.) -/
def Obligations.ReportFormsDifferOnlyInResRem : Prop :=
  ∀ (s : State) (c : Nat) (p so : Bool) (strat : Nat), c < s.nCtx →
    (∀ f, exec (encodeForm p so false strat) s = .fault f → exec (encodeForm p so true strat) s = .fault f) ∧
    ∀ t, exec (encodeForm p so false strat) s = .next t →
      (s.turn = .issue c →
        exec (encodeForm p so true strat) s =
          .next (t.setCtx c { t.ctx c with latch := { (t.ctx c).latch with cmd := encodeForm p so true strat } })) ∧
      (s.turn = .perform c →
        exec (encodeForm p so true strat) s = .next (t.setCtx c { t.ctx c with resRem := 0#32 }))

/-- R177: for equal operands, an SO = 0 form and an SO = 1 form with ARG_SOFF written as 0 give the same result: the
issue latches the same operands, and the Performs are the same. -/
def Obligations.OffsetFormsAgree : Prop :=
  ∀ (s : State) (c : Nat) (p rr : Bool) (strat : Nat),
    (s.turn = .perform c → exec (encodeForm p false rr strat) s = exec (encodeForm p true rr strat) s) ∧
    (s.turn = .issue c → c < s.nCtx → (s.ctx c).written.soff = true → (s.ctx c).argSoff = 0#32 →
      (∀ f, exec (encodeForm p false rr strat) s = .fault f → exec (encodeForm p true rr strat) s = .fault f) ∧
      ∀ t, exec (encodeForm p false rr strat) s = .next t →
        exec (encodeForm p true rr strat) s =
          .next (t.setCtx c { t.ctx c with latch := { (t.ctx c).latch with cmd := encodeForm p true rr strat } }))

/-- R179, R183: two ENCODEs, of any forms, in any contexts and states, that read the same FLAT and the same L source
bytes give the same RES_LEN and write the same defined bytes, each from its own dbase + doff on. -/
def Obligations.EncodeStateless : Prop :=
  ∀ (s s' t t' : State) (c c' : Nat) (p so rr p' so' rr' : Bool) (n n' : Nat),
    s.turn = .perform c → s'.turn = .perform c' → c < s.nCtx → c' < s'.nCtx → s.mem.wf = true → s'.mem.wf = true →
    s.cfg.wf = true → s'.cfg.wf = true → s.flat = flatten s.cfg.codeTable → s'.flat = s.flat →
    s'.cfg.codeTable = s.cfg.codeTable → (s.ctx c).latch.len = (s'.ctx c').latch.len →
    s.mem.readBytes (s.ctx c).latch.srcFP.base (s.ctx c).latch.len.toNat =
      s'.mem.readBytes (s'.ctx c').latch.srcFP.base (s.ctx c).latch.len.toNat →
    exec (encodeForm p so rr n) s = .next t → exec (encodeForm p' so' rr' n') s' = .next t' →
    (t.ctx c).resLen = (t'.ctx c').resLen ∧
      ∀ j < (encodeOut s.flat (s.mem.readBytes (s.ctx c).latch.srcFP.base (s.ctx c).latch.len.toNat)).length,
        t.mem.read (((s.ctx c).latch.dstFP s.cfg).base + j) = t'.mem.read (((s'.ctx c').latch.dstFP s'.cfg).base + j)

/-- R95: a host write of a byte in a footprint of an ENCODE in flight raises F18; any other host write puts the byte
there and changes no other byte and no other state (the step itself leaves the schedule). -/
def Obligations.HostMemoryWrite : Prop :=
  ∀ (s : State) (es : List Event) (a : Addr) (v : Byte), s.live → s.mem.wf = true → s.schedule = .memWrite a v :: es →
    ((∃ c < s.nCtx, (s.ctx c).busy = true ∧ (s.ctx c).latch.cmd.isEncode = true ∧
        ((s.ctx c).latch.srcFP.contains a.toNat = true ∨ ((s.ctx c).latch.dstFP s.cfg).contains a.toNat = true)) →
      step s = .fault (.hostRace a)) ∧
    ((∀ c < s.nCtx, (s.ctx c).busy = true → (s.ctx c).latch.cmd.isEncode = true →
        (s.ctx c).latch.srcFP.contains a.toNat = false ∧ ((s.ctx c).latch.dstFP s.cfg).contains a.toNat = false) →
      ∃ m : Memory, step s = .next { s with schedule := es, mem := m } ∧ m.read a.toNat = v ∧
        ∀ b, b ≠ a.toNat → m.read b = s.mem.read b)

/-- R96: a host read of a byte in DstFP of an ENCODE in flight returns a draw; any other host read returns the byte of
MEM, one in an in-flight SrcFP included. Nothing else of the spec's state changes. -/
def Obligations.HostMemoryRead : Prop :=
  ∀ (s : State) (es : List Event) (a : Addr), s.live → s.schedule = .memRead a :: es →
    ((∃ c < s.nCtx, (s.ctx c).busy = true ∧ (s.ctx c).latch.cmd.isEncode = true ∧
        ((s.ctx c).latch.dstFP s.cfg).contains a.toNat = true) →
      step s =
        .next { s with schedule := es, reply := .byte (Config.freeByte s.draws), draws := s.draws + 1 }) ∧
    ((∀ c < s.nCtx, (s.ctx c).busy = true → (s.ctx c).latch.cmd.isEncode = true →
        ((s.ctx c).latch.dstFP s.cfg).contains a.toNat = false) →
      step s = .next { s with schedule := es, reply := .byte (s.mem.read a.toNat) })

/-- R82, R87, R95, R241: in a state that meets the machine's invariant, a step changes a byte of MEM only as a host's
write of that byte, or, where an ENCODE in flight has it in its DstFP, as that ENCODE's Perform, which ends it, or as a
Reset. -/
def Obligations.MemoryChangesOnlyInFootprints : Prop :=
  ∀ (s t : State) (a : Nat), Inv s → step s = .next t → t.mem.read a ≠ s.mem.read a →
    (∃ es x v, s.schedule = .memWrite x v :: es ∧ x.toNat = a) ∨
      ∃ c < s.nCtx, (s.ctx c).busy = true ∧ (s.ctx c).latch.cmd.isEncode = true ∧
        ((s.ctx c).latch.dstFP s.cfg).contains a = true ∧
        ((∃ es, s.schedule = .reset :: es) ∨ ((t.ctx c).busy = false ∧ (t.ctx c).done = true))

/-- R49: only an ENCODE's Perform writes the result registers of its context; a Reset makes them unspecified (R59). -/
def Obligations.ResultsChangeOnlyByEncode : Prop :=
  ∀ (s t : State) (c : Nat), step s = .next t → c < s.nCtx →
    (t.ctx c).resLen ≠ (s.ctx c).resLen ∨ (t.ctx c).resRem ≠ (s.ctx c).resRem ∨
      (t.ctx c).resOutStart ≠ (s.ctx c).resOutStart →
    (∃ es, s.schedule = .reset :: es) ∨
      ((s.ctx c).busy = true ∧ (s.ctx c).latch.cmd.isEncode = true ∧ (t.ctx c).busy = false ∧ (t.ctx c).done = true)

/-- R40, R149, R192: the contents of JUMP and of JUMP_TABLE have no effect: with other contents a step has the same
outcome, JUMP and JUMP_TABLE apart. -/
def Obligations.JumpTableHasNoEffect : Prop :=
  ∀ (s : State) (j jt : List Byte), jumpTableWf s.cfg.jumpTable = true → jumpTableWf jt = true →
    (∀ f, step s = .fault f → step { s with jump := j, cfg := { s.cfg with jumpTable := jt } } = .fault f) ∧
    (∀ r, step s = .refused r → step { s with jump := j, cfg := { s.cfg with jumpTable := jt } } = .refused r) ∧
    ∀ t, step s = .next t →
      ∃ j', step { s with jump := j, cfg := { s.cfg with jumpTable := jt } } =
        .next { t with jump := j', cfg := { t.cfg with jumpTable := jt } }

/-! ### Reset and faults (70_reset_and_hazards.md; 60_exceptions.md) -/

/-- R59, R242: the state after reset, in what the spec gives: every flag, STATUS and written flag 0, PHASE IDLE, no
fault. (The other values are the model's choice, log 13 and log 14, and are not stated here.) -/
def Obligations.ResetState : Prop :=
  State.reset.tableBuilt = false ∧ State.reset.flatBuilt = false ∧ State.reset.jumpBuilt = false ∧
    State.reset.regValid = false ∧ State.reset.fault = none ∧ State.reset.gstatus = 0#32 ∧
    ∀ c < State.reset.nCtx,
      (State.reset.ctx c).status = 0#32 ∧ (State.reset.ctx c).written = ⟨false, false, false, false, false, false⟩ ∧
        (State.reset.ctx c).dp.phase = .idle ∧ (State.reset.ctx c).encoded = false

/-- R240, R241: a Reset completes in one step: every flag, STATUS and written flag becomes 0 and PHASE IDLE in every
context, commands in flight being abandoned; a byte of MEM outside every DstFP of an ENCODE in flight is unchanged, and
one inside becomes a draw; the configuration stays. -/
def Obligations.ResetStep : Prop :=
  ∀ (s : State) (es : List Event), s.live → s.mem.wf = true → s.schedule = .reset :: es →
    ∃ t : State, step s = .next t ∧ t.schedule = es ∧ t.cfg = s.cfg ∧ t.nCtx = s.nCtx ∧ t.fault = none ∧
      t.tableBuilt = false ∧ t.flatBuilt = false ∧ t.jumpBuilt = false ∧ t.regValid = false ∧
      (∀ c < t.nCtx,
        (t.ctx c).busy = false ∧ (t.ctx c).done = false ∧ (t.ctx c).lastOp = 0#4 ∧
          (t.ctx c).written = ⟨false, false, false, false, false, false⟩ ∧ (t.ctx c).dp.phase = .idle ∧
          (t.ctx c).encoded = false) ∧
      ∀ a,
        ((∀ c < s.nCtx, (s.ctx c).busy = true → (s.ctx c).latch.cmd.isEncode = true →
            ((s.ctx c).latch.dstFP s.cfg).contains a = false) → t.mem.read a = s.mem.read a) ∧
        (a < 2 ^ 32 →
          (∃ c < s.nCtx, (s.ctx c).busy = true ∧ (s.ctx c).latch.cmd.isEncode = true ∧
            ((s.ctx c).latch.dstFP s.cfg).contains a = true) →
          ∃ k, s.draws ≤ k ∧ k < t.draws ∧ t.mem.read a = Config.freeByte k)

/-- R214: a fault is absorbing: a faulted machine takes no step, not even a Reset, no component of its state changes,
and it is never final. -/
def Obligations.FaultIsAbsorbing : Prop :=
  ∀ (s : State) (f : Fault), s.fault = some f →
    (∀ t, step s ≠ .next t) ∧ advance s = s ∧ ¬ s.final ∧
      (nCtxWf s.nCtx = true → s.cfg.wf = true → step s = .fault f)

/-- R215: a faulted state holds the state just before the faulting step, plus the fault mark; so it takes no later
step. -/
def Obligations.FaultIsPrecise : Prop :=
  ∀ (s : State) (f : Fault), step s = .fault f →
    advance s = { s with fault := some f } ∧ step (advance s) = .fault f

/-! ### Invariants -/

/-- The state after reset meets the invariant (R38, R48, R59). -/
def Obligations.InvariantAtReset : Prop :=
  Inv State.reset

/-- Every step keeps the invariant: memory in canonical form, the built tables as R38, R39, R40 and R145 say, STATUS
legal (R48), and every ENCODE in flight as its issue checked it (R171, R97). -/
def Obligations.StepKeepsInvariant : Prop :=
  ∀ s t : State, Inv s → step s = .next t → Inv t

/-- Every step keeps the canonical form of memory, from every state. -/
def Obligations.StepKeepsMemoryForm : Prop :=
  ∀ s t : State, s.mem.wf = true → step s = .next t → t.mem.wf = true

/-- R52, R58: no step changes the configuration or the number of contexts, so CONFIG is constant; nor is a fault mark
ever set by a step that answers a next state. -/
def Obligations.ConfigurationIsConstant : Prop :=
  ∀ s t : State, step s = .next t → t.cfg = s.cfg ∧ t.nCtx = s.nCtx ∧ t.configWord = s.configWord ∧ t.fault = none

/-- R43, R44: a context changes only by a Reset, a host's write to its own CMD or to one of its own argument registers,
or its own Perform, scheduled or, with the schedule used up, as the lowest-numbered busy context (the model's choice of
order, log 6). Every other step leaves it as it was. -/
def Obligations.ContextsArePrivate : Prop :=
  ∀ (s t : State) (c : Nat), step s = .next t → t.ctx c ≠ s.ctx c →
    (∃ es, s.schedule = .reset :: es) ∨
      (∃ es w, s.schedule = .regWrite (Reg.cmd c).offset 32 w :: es) ∨
      (∃ es r v, s.schedule = .regWrite (Reg.arg c r).offset 32 v :: es) ∨
      (∃ es, s.schedule = .perform c :: es) ∨
      (s.schedule = [] ∧ (s.ctx c).busy = true ∧ ∀ c' < c, (s.ctx c').busy = false)
end

