-- ==== Sys2Proof/Laws/Memory.lean ====
section
/-! SUPPORT. The laws of host memory: a read after a write, and the canonical form, which every operation keeps. -/

namespace Sys2Proof.Machine

theorem readCells_writeCells_same (a : Nat) (v : Byte) (cells : List Host.Cell) (lo : Nat) (h : cellsWf lo cells = true) :
    readCells a (writeCells a v cells) = v := by
  induction cells generalizing lo with
  | nil => by_cases hv : v = 0#8 <;> simp [writeCells, readCells, hv]
  | cons kw rest ih =>
    obtain ⟨k, w⟩ := kw
    simp only [cellsWf, Bool.and_eq_true, decide_eq_true_eq] at h
    have absent : ∀ lo', a < lo' → cellsWf lo' rest = true → readCells a rest = 0#8 := by
      clear ih h
      induction rest with
      | nil => intros; rfl
      | cons kw' rest' ih' =>
        obtain ⟨k', w'⟩ := kw'
        intro lo' hlo h'
        simp only [cellsWf, Bool.and_eq_true, decide_eq_true_eq] at h'
        have : k' ≠ a := by omega
        simp only [readCells, this, if_false]
        exact ih' (k' + 1) (by omega) h'.2
    simp only [writeCells]
    split
    · split
      · rename_i hlt hv
        have : k ≠ a := by omega
        simp [readCells, this, hv, absent (k + 1) (by omega) h.2]
      · simp [readCells]
    · split
      · split
        · rename_i hk hv
          simp [hv, absent (k + 1) (by omega) h.2]
        · simp [readCells]
      · rename_i h1 h2
        have : k ≠ a := fun e => h2 e.symm
        simp [readCells, this, ih (k + 1) h.2]

theorem readCells_writeCells_ne (a b : Nat) (v : Byte) (cells : List Host.Cell) (h : b ≠ a) :
    readCells b (writeCells a v cells) = readCells b cells := by
  induction cells with
  | nil => by_cases hv : v = 0#8 <;> simp [writeCells, readCells, hv, Ne.symm h]
  | cons kw rest ih =>
    obtain ⟨k, w⟩ := kw
    simp only [writeCells]
    split
    · split <;> simp [readCells, Ne.symm h]
    · split
      · rename_i hk
        split <;> simp [readCells, ← hk, Ne.symm h]
      · simp [readCells, ih]

theorem cellsWf_writeCells (a : Nat) (v : Byte) (cells : List Host.Cell) (lo : Nat) (ha : a < Config.memSize)
    (hlo : lo ≤ a) (h : cellsWf lo cells = true) : cellsWf lo (writeCells a v cells) = true := by
  induction cells generalizing lo with
  | nil => by_cases hv : v = 0#8 <;> simp [writeCells, cellsWf, hv, ha, hlo]
  | cons kw rest ih =>
    obtain ⟨k, w⟩ := kw
    have h' := h
    simp only [cellsWf, Bool.and_eq_true, decide_eq_true_eq] at h'
    obtain ⟨⟨⟨h1, h2⟩, h3⟩, h4⟩ := h'
    simp only [writeCells]
    split
    · split
      · exact h
      · rename_i hlt hv
        simp only [cellsWf, Bool.and_eq_true, decide_eq_true_eq]
        exact ⟨⟨⟨hlo, ha⟩, hv⟩, ⟨⟨by omega, h2⟩, h3⟩, h4⟩
    · split
      · rename_i hk
        subst hk
        split
        · have mono : ∀ lo', lo' ≤ a + 1 → cellsWf (a + 1) rest = true → cellsWf lo' rest = true := by
            intro lo' hl hr
            cases rest with
            | nil => rfl
            | cons x xs =>
              simp only [cellsWf, Bool.and_eq_true, decide_eq_true_eq] at hr ⊢
              exact ⟨⟨⟨by omega, hr.1.1.2⟩, hr.1.2⟩, hr.2⟩
          exact mono lo (by omega) h4
        · rename_i hv
          simp only [cellsWf, Bool.and_eq_true, decide_eq_true_eq]
          exact ⟨⟨⟨hlo, ha⟩, hv⟩, h4⟩
      · simp only [cellsWf, Bool.and_eq_true, decide_eq_true_eq]
        exact ⟨⟨⟨h1, h2⟩, h3⟩, ih (k + 1) (by omega) h4⟩

/-- A read of the byte just written gives the value written. -/
theorem Memory.read_write_same (m : Memory) (a : Nat) (v : Byte) (hm : m.wf = true) (ha : a < Config.memSize) :
    (m.write a v).read a = v := by
  simp only [Memory.write, ha, if_true, Memory.read]
  exact readCells_writeCells_same a v m.cells 0 hm

/-- A write leaves every other byte alone. -/
theorem Memory.read_write_ne (m : Memory) (a b : Nat) (v : Byte) (h : b ≠ a) : (m.write a v).read b = m.read b := by
  unfold Memory.write
  split
  · exact readCells_writeCells_ne a b v m.cells h
  · rfl

/-- A write keeps the canonical form. -/
theorem Memory.wf_write (m : Memory) (a : Nat) (v : Byte) (hm : m.wf = true) : (m.write a v).wf = true := by
  unfold Memory.write
  split
  · rename_i ha
    exact cellsWf_writeCells a v m.cells 0 ha (Nat.zero_le a) hm
  · exact hm

/-- A sequence of writes keeps the canonical form. -/
theorem Memory.wf_writeBytes (m : Memory) (a : Nat) (bytes : List Byte) (hm : m.wf = true) :
    (m.writeBytes a bytes).wf = true := by
  induction bytes generalizing m a with
  | nil => exact hm
  | cons b bs ih => exact ih _ _ (m.wf_write a b hm)

/-- A sequence of writes leaves every byte before it and past it alone. -/
theorem Memory.read_writeBytes_outside (m : Memory) (a b : Nat) (bytes : List Byte)
    (h : b < a ∨ a + bytes.length ≤ b) : (m.writeBytes a bytes).read b = m.read b := by
  induction bytes generalizing m a with
  | nil => rfl
  | cons x xs ih =>
    simp only [List.length_cons] at h
    rw [Memory.writeBytes, ih _ _ (by omega), m.read_write_ne a b x (by omega)]

/-- Byte `j` of a sequence of writes is read back where it was written. -/
theorem Memory.read_writeBytes_inside (m : Memory) (a j : Nat) (bytes : List Byte) (hm : m.wf = true)
    (hj : j < bytes.length) (hs : a + j < Config.memSize) : (m.writeBytes a bytes).read (a + j) = bytes[j] := by
  induction bytes generalizing m a j with
  | nil => simp at hj
  | cons x xs ih =>
    cases j with
    | zero =>
      rw [Memory.writeBytes, Memory.read_writeBytes_outside _ _ _ _ (by omega)]
      exact m.read_write_same a x hm (by omega)
    | succ j =>
      have hj' : j < xs.length := by simpa using hj
      have := ih (m.write a x) (a + 1) j (m.wf_write a x hm) hj' (by omega)
      rw [Memory.writeBytes, show a + (j + 1) = a + 1 + j by omega, this]
      rfl

theorem cells_ext (xs ys : List Host.Cell) (lo : Nat) (hx : cellsWf lo xs = true) (hy : cellsWf lo ys = true)
    (h : ∀ a, readCells a xs = readCells a ys) : xs = ys := by
  have absent : ∀ (zs : List Host.Cell) (lo a : Nat), a < lo → cellsWf lo zs = true → readCells a zs = 0#8 := by
    intro zs
    induction zs with
    | nil => intros; rfl
    | cons kw rest ih =>
      intro lo a ha hz
      obtain ⟨k, w⟩ := kw
      simp only [cellsWf, Bool.and_eq_true, decide_eq_true_eq] at hz
      have : k ≠ a := by omega
      simp only [readCells, this, if_false]
      exact ih (k + 1) a (by omega) hz.2
  induction xs generalizing ys lo with
  | nil =>
    cases ys with
    | nil => rfl
    | cons kw rest =>
      obtain ⟨k, w⟩ := kw
      simp only [cellsWf, Bool.and_eq_true, decide_eq_true_eq] at hy
      exact absurd (by simpa [readCells] using (h k).symm) hy.1.2
  | cons kw xs ih =>
    obtain ⟨k, w⟩ := kw
    have hx' := hx
    simp only [cellsWf, Bool.and_eq_true, decide_eq_true_eq] at hx'
    cases ys with
    | nil => exact absurd (by simpa [readCells] using h k) hx'.1.2
    | cons kw' ys =>
      obtain ⟨k', w'⟩ := kw'
      have hy' := hy
      simp only [cellsWf, Bool.and_eq_true, decide_eq_true_eq] at hy'
      have hk : k = k' := by
        rcases Nat.lt_trichotomy k k' with hlt | heq | hgt
        · have h1 := h k
          rw [show readCells k ((k', w') :: ys) = 0#8 by
            have : k' ≠ k := by omega
            simp only [readCells, this, if_false]
            exact absent ys (k' + 1) k (by omega) hy'.2] at h1
          exact absurd (by simpa [readCells] using h1) hx'.1.2
        · exact heq
        · have h1 := h k'
          rw [show readCells k' ((k, w) :: xs) = 0#8 by
            have : k ≠ k' := by omega
            simp only [readCells, this, if_false]
            exact absent xs (k + 1) k' (by omega) hx'.2] at h1
          exact absurd (by simpa [readCells] using h1.symm) hy'.1.2
      subst hk
      have hw : w = w' := by simpa [readCells] using h k
      subst hw
      congr 1
      refine ih ys (k + 1) hx'.2 hy'.2 fun a => ?_
      by_cases ha : k = a
      · subst ha
        rw [absent xs (k + 1) k (by omega) hx'.2, absent ys (k + 1) k (by omega) hy'.2]
      · simpa [readCells, ha] using h a

/-- Two memories in canonical form that read the same are equal. -/
theorem Memory.ext_read (m n : Memory) (hm : m.wf = true) (hn : n.wf = true) (h : ∀ a, m.read a = n.read a) : m = n := by
  obtain ⟨xs⟩ := m
  obtain ⟨ys⟩ := n
  exact congrArg Memory.mk (cells_ext xs ys 0 hm hn h)

/-- The reset memory is in canonical form. -/
theorem Memory.wf_empty : Memory.empty.wf = true := rfl

@[simp] theorem Memory.read_empty (a : Nat) : Memory.empty.read a = 0#8 := rfl

@[simp] theorem Memory.length_readBytes (m : Memory) (a n : Nat) : (m.readBytes a n).length = n := by
  simp [Memory.readBytes]

end Sys2Proof.Machine
end

