-- ==== Sys2Proof/Laws/State.lean ====
section
/-! SUPPORT. The small lemmas of State and Context: what each named update does to each field, by rfl. -/

namespace Sys2Proof.Machine

variable (s : State) (c c' : Nat) (k : Context) (l : Latch) (v : Word) (r : ArgReg) (f : Fault)

/-! ### Contexts in the list -/

@[simp] theorem State.nCtx_setCtx : (s.setCtx c k).nCtx = s.nCtx := by
  simp [State.nCtx, State.setCtx]

theorem State.ctx_setCtx_same (h : c < s.nCtx) : (s.setCtx c k).ctx c = k := by
  have h' : c < s.ctxs.length := h
  simp [State.ctx, State.setCtx, List.getD, h']

theorem State.ctx_setCtx_ne (h : c' ≠ c) : (s.setCtx c k).ctx c' = s.ctx c' := by
  simp [State.ctx, State.setCtx, List.getD, Ne.symm h]

theorem State.ctx_setCtx (h : c < s.nCtx) : (s.setCtx c k).ctx c' = if c' = c then k else s.ctx c' := by
  by_cases hc : c' = c
  · subst hc; simp [State.ctx_setCtx_same s c' k h]
  · simp [hc, State.ctx_setCtx_ne s c c' k hc]

theorem State.nCtx_of_ctxs {s t : State} (h : t.ctxs = s.ctxs) : t.nCtx = s.nCtx := by
  rw [State.nCtx, State.nCtx, h]

theorem State.ctx_of_ctxs {s t : State} (h : t.ctxs = s.ctxs) (c : Nat) : t.ctx c = s.ctx c := by
  rw [State.ctx, State.ctx, h]

/-! ### State.setCtx -/

@[simp] theorem State.setCtx_cfg : (s.setCtx c k).cfg = s.cfg := rfl
@[simp] theorem State.setCtx_table : (s.setCtx c k).table = s.table := rfl
@[simp] theorem State.setCtx_flat : (s.setCtx c k).flat = s.flat := rfl
@[simp] theorem State.setCtx_jump : (s.setCtx c k).jump = s.jump := rfl
@[simp] theorem State.setCtx_tableBuilt : (s.setCtx c k).tableBuilt = s.tableBuilt := rfl
@[simp] theorem State.setCtx_flatBuilt : (s.setCtx c k).flatBuilt = s.flatBuilt := rfl
@[simp] theorem State.setCtx_jumpBuilt : (s.setCtx c k).jumpBuilt = s.jumpBuilt := rfl
@[simp] theorem State.setCtx_regInBase : (s.setCtx c k).regInBase = s.regInBase := rfl
@[simp] theorem State.setCtx_regOutBase : (s.setCtx c k).regOutBase = s.regOutBase := rfl
@[simp] theorem State.setCtx_regValid : (s.setCtx c k).regValid = s.regValid := rfl
@[simp] theorem State.setCtx_mem : (s.setCtx c k).mem = s.mem := rfl
@[simp] theorem State.setCtx_fault : (s.setCtx c k).fault = s.fault := rfl
@[simp] theorem State.setCtx_schedule : (s.setCtx c k).schedule = s.schedule := rfl
@[simp] theorem State.setCtx_turn : (s.setCtx c k).turn = s.turn := rfl
@[simp] theorem State.setCtx_draws : (s.setCtx c k).draws = s.draws := rfl
@[simp] theorem State.setCtx_reply : (s.setCtx c k).reply = s.reply := rfl
@[simp] theorem State.setCtx_ctxs : (s.setCtx c k).ctxs = s.ctxs.set c k := rfl

/-! ### State.issue -/

@[simp] theorem State.issue_cfg : (s.issue c l).cfg = s.cfg := rfl
@[simp] theorem State.issue_table : (s.issue c l).table = s.table := rfl
@[simp] theorem State.issue_flat : (s.issue c l).flat = s.flat := rfl
@[simp] theorem State.issue_jump : (s.issue c l).jump = s.jump := rfl
@[simp] theorem State.issue_tableBuilt : (s.issue c l).tableBuilt = s.tableBuilt := rfl
@[simp] theorem State.issue_flatBuilt : (s.issue c l).flatBuilt = s.flatBuilt := rfl
@[simp] theorem State.issue_jumpBuilt : (s.issue c l).jumpBuilt = s.jumpBuilt := rfl
@[simp] theorem State.issue_regInBase : (s.issue c l).regInBase = s.regInBase := rfl
@[simp] theorem State.issue_regOutBase : (s.issue c l).regOutBase = s.regOutBase := rfl
@[simp] theorem State.issue_regValid : (s.issue c l).regValid = s.regValid := rfl
@[simp] theorem State.issue_mem : (s.issue c l).mem = s.mem := rfl
@[simp] theorem State.issue_fault : (s.issue c l).fault = s.fault := rfl
@[simp] theorem State.issue_schedule : (s.issue c l).schedule = s.schedule := rfl
@[simp] theorem State.issue_turn : (s.issue c l).turn = s.turn := rfl
@[simp] theorem State.issue_draws : (s.issue c l).draws = s.draws := rfl
@[simp] theorem State.issue_reply : (s.issue c l).reply = s.reply := rfl
@[simp] theorem State.issue_nCtx : (s.issue c l).nCtx = s.nCtx := by simp [State.issue]

/-! ### State.complete -/

@[simp] theorem State.complete_cfg : (s.complete c).cfg = s.cfg := rfl
@[simp] theorem State.complete_table : (s.complete c).table = s.table := rfl
@[simp] theorem State.complete_flat : (s.complete c).flat = s.flat := rfl
@[simp] theorem State.complete_jump : (s.complete c).jump = s.jump := rfl
@[simp] theorem State.complete_tableBuilt : (s.complete c).tableBuilt = s.tableBuilt := rfl
@[simp] theorem State.complete_flatBuilt : (s.complete c).flatBuilt = s.flatBuilt := rfl
@[simp] theorem State.complete_jumpBuilt : (s.complete c).jumpBuilt = s.jumpBuilt := rfl
@[simp] theorem State.complete_regInBase : (s.complete c).regInBase = s.regInBase := rfl
@[simp] theorem State.complete_regOutBase : (s.complete c).regOutBase = s.regOutBase := rfl
@[simp] theorem State.complete_regValid : (s.complete c).regValid = s.regValid := rfl
@[simp] theorem State.complete_mem : (s.complete c).mem = s.mem := rfl
@[simp] theorem State.complete_fault : (s.complete c).fault = s.fault := rfl
@[simp] theorem State.complete_schedule : (s.complete c).schedule = s.schedule := rfl
@[simp] theorem State.complete_turn : (s.complete c).turn = s.turn := rfl
@[simp] theorem State.complete_draws : (s.complete c).draws = s.draws := rfl
@[simp] theorem State.complete_reply : (s.complete c).reply = s.reply := rfl
@[simp] theorem State.complete_nCtx : (s.complete c).nCtx = s.nCtx := by simp [State.complete]

/-! ### State.writeArg, State.writeCmd -/

@[simp] theorem State.writeArg_cfg : (s.writeArg c r v).cfg = s.cfg := rfl
@[simp] theorem State.writeArg_table : (s.writeArg c r v).table = s.table := rfl
@[simp] theorem State.writeArg_flat : (s.writeArg c r v).flat = s.flat := rfl
@[simp] theorem State.writeArg_jump : (s.writeArg c r v).jump = s.jump := rfl
@[simp] theorem State.writeArg_tableBuilt : (s.writeArg c r v).tableBuilt = s.tableBuilt := rfl
@[simp] theorem State.writeArg_flatBuilt : (s.writeArg c r v).flatBuilt = s.flatBuilt := rfl
@[simp] theorem State.writeArg_jumpBuilt : (s.writeArg c r v).jumpBuilt = s.jumpBuilt := rfl
@[simp] theorem State.writeArg_regInBase : (s.writeArg c r v).regInBase = s.regInBase := rfl
@[simp] theorem State.writeArg_regOutBase : (s.writeArg c r v).regOutBase = s.regOutBase := rfl
@[simp] theorem State.writeArg_regValid : (s.writeArg c r v).regValid = s.regValid := rfl
@[simp] theorem State.writeArg_mem : (s.writeArg c r v).mem = s.mem := rfl
@[simp] theorem State.writeArg_fault : (s.writeArg c r v).fault = s.fault := rfl
@[simp] theorem State.writeArg_schedule : (s.writeArg c r v).schedule = s.schedule := rfl
@[simp] theorem State.writeArg_turn : (s.writeArg c r v).turn = s.turn := rfl
@[simp] theorem State.writeArg_draws : (s.writeArg c r v).draws = s.draws := rfl
@[simp] theorem State.writeArg_reply : (s.writeArg c r v).reply = s.reply := rfl
@[simp] theorem State.writeArg_nCtx : (s.writeArg c r v).nCtx = s.nCtx := by simp [State.writeArg]
@[simp] theorem State.writeCmd_cfg : (s.writeCmd c v).cfg = s.cfg := rfl
@[simp] theorem State.writeCmd_table : (s.writeCmd c v).table = s.table := rfl
@[simp] theorem State.writeCmd_flat : (s.writeCmd c v).flat = s.flat := rfl
@[simp] theorem State.writeCmd_jump : (s.writeCmd c v).jump = s.jump := rfl
@[simp] theorem State.writeCmd_tableBuilt : (s.writeCmd c v).tableBuilt = s.tableBuilt := rfl
@[simp] theorem State.writeCmd_flatBuilt : (s.writeCmd c v).flatBuilt = s.flatBuilt := rfl
@[simp] theorem State.writeCmd_jumpBuilt : (s.writeCmd c v).jumpBuilt = s.jumpBuilt := rfl
@[simp] theorem State.writeCmd_regInBase : (s.writeCmd c v).regInBase = s.regInBase := rfl
@[simp] theorem State.writeCmd_regOutBase : (s.writeCmd c v).regOutBase = s.regOutBase := rfl
@[simp] theorem State.writeCmd_regValid : (s.writeCmd c v).regValid = s.regValid := rfl
@[simp] theorem State.writeCmd_mem : (s.writeCmd c v).mem = s.mem := rfl
@[simp] theorem State.writeCmd_fault : (s.writeCmd c v).fault = s.fault := rfl
@[simp] theorem State.writeCmd_schedule : (s.writeCmd c v).schedule = s.schedule := rfl
@[simp] theorem State.writeCmd_draws : (s.writeCmd c v).draws = s.draws := rfl
@[simp] theorem State.writeCmd_reply : (s.writeCmd c v).reply = s.reply := rfl
@[simp] theorem State.writeCmd_turn : (s.writeCmd c v).turn = .issue c := rfl
@[simp] theorem State.writeCmd_ctxs : (s.writeCmd c v).ctxs = s.ctxs.set c ((s.ctx c).writeCmd v) := rfl
@[simp] theorem State.writeCmd_nCtx : (s.writeCmd c v).nCtx = s.nCtx := by
  simp [State.nCtx]

/-! ### State.answer: only the model's own reply and draw counter -/

@[simp] theorem State.answer_cfg (x : ReadValue) : (s.answer x).cfg = s.cfg := by cases x <;> rfl
@[simp] theorem State.answer_table (x : ReadValue) : (s.answer x).table = s.table := by cases x <;> rfl
@[simp] theorem State.answer_flat (x : ReadValue) : (s.answer x).flat = s.flat := by cases x <;> rfl
@[simp] theorem State.answer_jump (x : ReadValue) : (s.answer x).jump = s.jump := by cases x <;> rfl
@[simp] theorem State.answer_tableBuilt (x : ReadValue) : (s.answer x).tableBuilt = s.tableBuilt := by cases x <;> rfl
@[simp] theorem State.answer_flatBuilt (x : ReadValue) : (s.answer x).flatBuilt = s.flatBuilt := by cases x <;> rfl
@[simp] theorem State.answer_jumpBuilt (x : ReadValue) : (s.answer x).jumpBuilt = s.jumpBuilt := by cases x <;> rfl
@[simp] theorem State.answer_regInBase (x : ReadValue) : (s.answer x).regInBase = s.regInBase := by cases x <;> rfl
@[simp] theorem State.answer_regOutBase (x : ReadValue) : (s.answer x).regOutBase = s.regOutBase := by cases x <;> rfl
@[simp] theorem State.answer_regValid (x : ReadValue) : (s.answer x).regValid = s.regValid := by cases x <;> rfl
@[simp] theorem State.answer_ctxs (x : ReadValue) : (s.answer x).ctxs = s.ctxs := by cases x <;> rfl
@[simp] theorem State.answer_mem (x : ReadValue) : (s.answer x).mem = s.mem := by cases x <;> rfl
@[simp] theorem State.answer_fault (x : ReadValue) : (s.answer x).fault = s.fault := by cases x <;> rfl
@[simp] theorem State.answer_schedule (x : ReadValue) : (s.answer x).schedule = s.schedule := by cases x <;> rfl
@[simp] theorem State.answer_turn (x : ReadValue) : (s.answer x).turn = s.turn := by cases x <;> rfl

/-! ### State.encodeEffect -/

@[simp] theorem State.encodeEffect_cfg (rr : Bool) : (s.encodeEffect rr c).cfg = s.cfg := rfl
@[simp] theorem State.encodeEffect_table (rr : Bool) : (s.encodeEffect rr c).table = s.table := rfl
@[simp] theorem State.encodeEffect_flat (rr : Bool) : (s.encodeEffect rr c).flat = s.flat := rfl
@[simp] theorem State.encodeEffect_jump (rr : Bool) : (s.encodeEffect rr c).jump = s.jump := rfl
@[simp] theorem State.encodeEffect_tableBuilt (rr : Bool) : (s.encodeEffect rr c).tableBuilt = s.tableBuilt := rfl
@[simp] theorem State.encodeEffect_flatBuilt (rr : Bool) : (s.encodeEffect rr c).flatBuilt = s.flatBuilt := rfl
@[simp] theorem State.encodeEffect_jumpBuilt (rr : Bool) : (s.encodeEffect rr c).jumpBuilt = s.jumpBuilt := rfl
@[simp] theorem State.encodeEffect_regInBase (rr : Bool) : (s.encodeEffect rr c).regInBase = s.regInBase := rfl
@[simp] theorem State.encodeEffect_regOutBase (rr : Bool) : (s.encodeEffect rr c).regOutBase = s.regOutBase := rfl
@[simp] theorem State.encodeEffect_regValid (rr : Bool) : (s.encodeEffect rr c).regValid = s.regValid := rfl
@[simp] theorem State.encodeEffect_fault (rr : Bool) : (s.encodeEffect rr c).fault = s.fault := rfl
@[simp] theorem State.encodeEffect_schedule (rr : Bool) : (s.encodeEffect rr c).schedule = s.schedule := rfl
@[simp] theorem State.encodeEffect_turn (rr : Bool) : (s.encodeEffect rr c).turn = s.turn := rfl
@[simp] theorem State.encodeEffect_reply (rr : Bool) : (s.encodeEffect rr c).reply = s.reply := rfl
@[simp] theorem State.encodeEffect_mem (rr : Bool) :
    (s.encodeEffect rr c).mem =
      s.mem.writeBytes ((s.ctx c).latch.dstFP s.cfg).base (s.encodeWrites (s.ctx c).latch) := rfl
@[simp] theorem State.encodeEffect_nCtx (rr : Bool) : (s.encodeEffect rr c).nCtx = s.nCtx := by
  simp [State.nCtx, State.encodeEffect]

/-! ### State.markFault -/

@[simp] theorem State.markFault_cfg : (s.markFault f).cfg = s.cfg := rfl
@[simp] theorem State.markFault_table : (s.markFault f).table = s.table := rfl
@[simp] theorem State.markFault_flat : (s.markFault f).flat = s.flat := rfl
@[simp] theorem State.markFault_jump : (s.markFault f).jump = s.jump := rfl
@[simp] theorem State.markFault_tableBuilt : (s.markFault f).tableBuilt = s.tableBuilt := rfl
@[simp] theorem State.markFault_flatBuilt : (s.markFault f).flatBuilt = s.flatBuilt := rfl
@[simp] theorem State.markFault_jumpBuilt : (s.markFault f).jumpBuilt = s.jumpBuilt := rfl
@[simp] theorem State.markFault_regInBase : (s.markFault f).regInBase = s.regInBase := rfl
@[simp] theorem State.markFault_regOutBase : (s.markFault f).regOutBase = s.regOutBase := rfl
@[simp] theorem State.markFault_regValid : (s.markFault f).regValid = s.regValid := rfl
@[simp] theorem State.markFault_ctxs : (s.markFault f).ctxs = s.ctxs := rfl
@[simp] theorem State.markFault_mem : (s.markFault f).mem = s.mem := rfl
@[simp] theorem State.markFault_schedule : (s.markFault f).schedule = s.schedule := rfl
@[simp] theorem State.markFault_turn : (s.markFault f).turn = s.turn := rfl
@[simp] theorem State.markFault_draws : (s.markFault f).draws = s.draws := rfl
@[simp] theorem State.markFault_reply : (s.markFault f).reply = s.reply := rfl
@[simp] theorem State.markFault_fault : (s.markFault f).fault = some f := rfl

/-! ### Context updates -/

@[simp] theorem Context.issued_cmd : (k.issued l).cmd = k.cmd := rfl
@[simp] theorem Context.issued_argSrc : (k.issued l).argSrc = k.argSrc := rfl
@[simp] theorem Context.issued_argDst : (k.issued l).argDst = k.argDst := rfl
@[simp] theorem Context.issued_argDoff : (k.issued l).argDoff = k.argDoff := rfl
@[simp] theorem Context.issued_argLen : (k.issued l).argLen = k.argLen := rfl
@[simp] theorem Context.issued_argSoff : (k.issued l).argSoff = k.argSoff := rfl
@[simp] theorem Context.issued_written : (k.issued l).written = k.written := rfl
@[simp] theorem Context.issued_busy : (k.issued l).busy = true := rfl
@[simp] theorem Context.issued_done : (k.issued l).done = false := rfl
@[simp] theorem Context.issued_lastOp : (k.issued l).lastOp = l.cmd.op := rfl
@[simp] theorem Context.issued_resLen : (k.issued l).resLen = k.resLen := rfl
@[simp] theorem Context.issued_resRem : (k.issued l).resRem = k.resRem := rfl
@[simp] theorem Context.issued_resOutStart : (k.issued l).resOutStart = k.resOutStart := rfl
@[simp] theorem Context.issued_encoded : (k.issued l).encoded = k.encoded := rfl
@[simp] theorem Context.issued_latch : (k.issued l).latch = l := rfl
@[simp] theorem Context.issued_dp : (k.issued l).dp = k.dp := rfl
@[simp] theorem Context.performed_cmd : k.performed.cmd = k.cmd := rfl
@[simp] theorem Context.performed_argSrc : k.performed.argSrc = k.argSrc := rfl
@[simp] theorem Context.performed_argDst : k.performed.argDst = k.argDst := rfl
@[simp] theorem Context.performed_argDoff : k.performed.argDoff = k.argDoff := rfl
@[simp] theorem Context.performed_argLen : k.performed.argLen = k.argLen := rfl
@[simp] theorem Context.performed_argSoff : k.performed.argSoff = k.argSoff := rfl
@[simp] theorem Context.performed_written : k.performed.written = k.written := rfl
@[simp] theorem Context.performed_busy : k.performed.busy = false := rfl
@[simp] theorem Context.performed_done : k.performed.done = true := rfl
@[simp] theorem Context.performed_lastOp : k.performed.lastOp = k.lastOp := rfl
@[simp] theorem Context.performed_resLen : k.performed.resLen = k.resLen := rfl
@[simp] theorem Context.performed_resRem : k.performed.resRem = k.resRem := rfl
@[simp] theorem Context.performed_resOutStart : k.performed.resOutStart = k.resOutStart := rfl
@[simp] theorem Context.performed_encoded : k.performed.encoded = k.encoded := rfl
@[simp] theorem Context.performed_latch : k.performed.latch = k.latch := rfl
@[simp] theorem Context.performed_dp : k.performed.dp = k.dp := rfl
@[simp] theorem Context.writeCmd_argSrc : (k.writeCmd v).argSrc = k.argSrc := rfl
@[simp] theorem Context.writeCmd_argDst : (k.writeCmd v).argDst = k.argDst := rfl
@[simp] theorem Context.writeCmd_argDoff : (k.writeCmd v).argDoff = k.argDoff := rfl
@[simp] theorem Context.writeCmd_argLen : (k.writeCmd v).argLen = k.argLen := rfl
@[simp] theorem Context.writeCmd_argSoff : (k.writeCmd v).argSoff = k.argSoff := rfl
@[simp] theorem Context.writeCmd_busy : (k.writeCmd v).busy = k.busy := rfl
@[simp] theorem Context.writeCmd_done : (k.writeCmd v).done = k.done := rfl
@[simp] theorem Context.writeCmd_lastOp : (k.writeCmd v).lastOp = k.lastOp := rfl
@[simp] theorem Context.writeCmd_resLen : (k.writeCmd v).resLen = k.resLen := rfl
@[simp] theorem Context.writeCmd_resRem : (k.writeCmd v).resRem = k.resRem := rfl
@[simp] theorem Context.writeCmd_resOutStart : (k.writeCmd v).resOutStart = k.resOutStart := rfl
@[simp] theorem Context.writeCmd_encoded : (k.writeCmd v).encoded = k.encoded := rfl
@[simp] theorem Context.writeCmd_latch : (k.writeCmd v).latch = k.latch := rfl
@[simp] theorem Context.writeCmd_dp : (k.writeCmd v).dp = k.dp := rfl
@[simp] theorem Context.writeCmd_cmd : (k.writeCmd v).cmd = v := rfl
@[simp] theorem Context.writeArg_cmd : (k.writeArg r v).cmd = k.cmd := by cases r <;> rfl
@[simp] theorem Context.writeArg_busy : (k.writeArg r v).busy = k.busy := by cases r <;> rfl
@[simp] theorem Context.writeArg_done : (k.writeArg r v).done = k.done := by cases r <;> rfl
@[simp] theorem Context.writeArg_lastOp : (k.writeArg r v).lastOp = k.lastOp := by cases r <;> rfl
@[simp] theorem Context.writeArg_resLen : (k.writeArg r v).resLen = k.resLen := by cases r <;> rfl
@[simp] theorem Context.writeArg_resRem : (k.writeArg r v).resRem = k.resRem := by cases r <;> rfl
@[simp] theorem Context.writeArg_resOutStart : (k.writeArg r v).resOutStart = k.resOutStart := by cases r <;> rfl
@[simp] theorem Context.writeArg_encoded : (k.writeArg r v).encoded = k.encoded := by cases r <;> rfl
@[simp] theorem Context.writeArg_latch : (k.writeArg r v).latch = k.latch := by cases r <;> rfl
@[simp] theorem Context.writeArg_dp : (k.writeArg r v).dp = k.dp := by cases r <;> rfl
@[simp] theorem Context.writeArg_arg_same : (k.writeArg r v).arg r = v := by cases r <;> rfl
@[simp] theorem Context.writeArg_argWritten_same : (k.writeArg r v).argWritten r = true := by cases r <;> rfl
@[simp] theorem Context.encodeResults_cmd (rr : Bool) (n : Nat) (d : Datapath) :
    (k.encodeResults rr n v d).cmd = k.cmd := rfl
@[simp] theorem Context.encodeResults_argSrc (rr : Bool) (n : Nat) (d : Datapath) :
    (k.encodeResults rr n v d).argSrc = k.argSrc := rfl
@[simp] theorem Context.encodeResults_argDst (rr : Bool) (n : Nat) (d : Datapath) :
    (k.encodeResults rr n v d).argDst = k.argDst := rfl
@[simp] theorem Context.encodeResults_argDoff (rr : Bool) (n : Nat) (d : Datapath) :
    (k.encodeResults rr n v d).argDoff = k.argDoff := rfl
@[simp] theorem Context.encodeResults_argLen (rr : Bool) (n : Nat) (d : Datapath) :
    (k.encodeResults rr n v d).argLen = k.argLen := rfl
@[simp] theorem Context.encodeResults_argSoff (rr : Bool) (n : Nat) (d : Datapath) :
    (k.encodeResults rr n v d).argSoff = k.argSoff := rfl
@[simp] theorem Context.encodeResults_written (rr : Bool) (n : Nat) (d : Datapath) :
    (k.encodeResults rr n v d).written = k.written := rfl
@[simp] theorem Context.encodeResults_busy (rr : Bool) (n : Nat) (d : Datapath) :
    (k.encodeResults rr n v d).busy = k.busy := rfl
@[simp] theorem Context.encodeResults_done (rr : Bool) (n : Nat) (d : Datapath) :
    (k.encodeResults rr n v d).done = k.done := rfl
@[simp] theorem Context.encodeResults_lastOp (rr : Bool) (n : Nat) (d : Datapath) :
    (k.encodeResults rr n v d).lastOp = k.lastOp := rfl
@[simp] theorem Context.encodeResults_latch (rr : Bool) (n : Nat) (d : Datapath) :
    (k.encodeResults rr n v d).latch = k.latch := rfl
@[simp] theorem Context.encodeResults_resLen (rr : Bool) (n : Nat) (d : Datapath) :
    (k.encodeResults rr n v d).resLen = BitVec.ofNat 32 n := rfl
@[simp] theorem Context.encodeResults_resOutStart (rr : Bool) (n : Nat) (d : Datapath) :
    (k.encodeResults rr n v d).resOutStart = k.latch.doff := rfl
@[simp] theorem Context.encodeResults_dp (rr : Bool) (n : Nat) (d : Datapath) :
    (k.encodeResults rr n v d).dp = d := rfl

/-! ### The contexts of an updated state -/

theorem State.ctx_issue_same (h : c < s.nCtx) : (s.issue c l).ctx c = (s.ctx c).issued l :=
  State.ctx_setCtx_same s c _ h

theorem State.ctx_issue_ne (h : c' ≠ c) : (s.issue c l).ctx c' = s.ctx c' :=
  State.ctx_setCtx_ne s c c' _ h

theorem State.ctx_complete_same (h : c < s.nCtx) : (s.complete c).ctx c = (s.ctx c).performed :=
  State.ctx_setCtx_same s c _ h

theorem State.ctx_complete_ne (h : c' ≠ c) : (s.complete c).ctx c' = s.ctx c' :=
  State.ctx_setCtx_ne s c c' _ h

theorem State.ctx_writeArg_same (h : c < s.nCtx) : (s.writeArg c r v).ctx c = (s.ctx c).writeArg r v :=
  State.ctx_setCtx_same s c _ h

theorem State.ctx_writeArg_ne (h : c' ≠ c) : (s.writeArg c r v).ctx c' = s.ctx c' :=
  State.ctx_setCtx_ne s c c' _ h

theorem State.ctx_writeCmd_same (h : c < s.nCtx) : (s.writeCmd c v).ctx c = (s.ctx c).writeCmd v :=
  State.ctx_setCtx_same s c _ h

theorem State.ctx_writeCmd_ne (h : c' ≠ c) : (s.writeCmd c v).ctx c' = s.ctx c' :=
  State.ctx_setCtx_ne s c c' _ h

theorem State.ctx_encodeEffect_same (rr : Bool) (h : c < s.nCtx) :
    (s.encodeEffect rr c).ctx c =
      (s.ctx c).encodeResults rr (s.encodeOutput (s.ctx c).latch).length
        (Config.freeWord (s.draws + s.tailSize (s.ctx c).latch)) (Engine.run s.flat (s.ctx c).latch s.mem).dp := by
  unfold State.encodeEffect
  exact State.ctx_setCtx_same _ c _ h

theorem State.ctx_encodeEffect_ne (rr : Bool) (h : c' ≠ c) : (s.encodeEffect rr c).ctx c' = s.ctx c' := by
  unfold State.encodeEffect
  exact State.ctx_setCtx_ne _ c c' _ h

end Sys2Proof.Machine
end

