-- ==== Sys2Proof/Laws/Ops.lean ====
section
/-! SUPPORT. One lemma for each shared operation that says all it can do. Provers cite these and do not unfold the
operations. -/

namespace Sys2Proof.Machine

/-! ### Faults -/

@[simp] theorem check_eq_none (b : Bool) (f : Fault) : check b f = none ↔ b = false := by
  cases b <;> simp [check]

theorem check_eq_some (b : Bool) (f g : Fault) : check b f = some g ↔ b = true ∧ f = g := by
  cases b <;> simp [check]

@[simp] theorem firstFault_nil : firstFault [] = none := rfl

@[simp] theorem firstFault_none_cons (rest : List (Option Fault)) : firstFault (none :: rest) = firstFault rest := rfl

@[simp] theorem firstFault_some_cons (f : Fault) (rest : List (Option Fault)) :
    firstFault (some f :: rest) = some f := rfl

theorem firstFault_eq_none (checks : List (Option Fault)) : firstFault checks = none ↔ ∀ x ∈ checks, x = none := by
  simp [firstFault]

theorem faultOr_eq_next (f : Option Fault) (t u : State) : faultOr f t = .next u ↔ f = none ∧ t = u := by
  cases f <;> simp [faultOr]

theorem faultOr_eq_fault (f : Option Fault) (t : State) (g : Fault) : faultOr f t = .fault g ↔ f = some g := by
  cases f <;> simp [faultOr]

theorem faultOr_ne_refused (f : Option Fault) (t : State) (r : Refusal) : faultOr f t ≠ .refused r := by
  cases f <;> simp [faultOr]

/-! ### Ranges and footprints -/

theorem Region.contains_iff (r : Region) (a : Nat) : r.contains a = true ↔ r.base ≤ a ∧ a < r.base + r.size := by
  simp [Region.contains]

theorem Region.mem_addrs (r : Region) (a : Nat) : a ∈ r.addrs ↔ r.contains a = true := by
  simp [Region.addrs, Region.contains_iff]

theorem Region.overlaps_iff (x y : Region) : x.overlaps y = true ↔ Region.meets x y := by
  simp only [Region.overlaps, Region.meets, Region.contains_iff, Bool.and_eq_true, decide_eq_true_eq]
  constructor
  · rintro ⟨⟨⟨hx, hy⟩, h1⟩, h2⟩
    exact ⟨max x.base y.base, by omega⟩
  · rintro ⟨a, h1, h2⟩
    omega

theorem Region.meets_symm (x y : Region) : Region.meets x y ↔ Region.meets y x :=
  ⟨fun ⟨a, h1, h2⟩ => ⟨a, h2, h1⟩, fun ⟨a, h1, h2⟩ => ⟨a, h2, h1⟩⟩

theorem Latch.conflicts_iff (cfg : Config) (new old : Latch) :
    new.conflicts cfg old = true ↔ footprintsConflict cfg new old := by
  simp [Latch.conflicts, footprintsConflict, Region.overlaps_iff, or_assoc]

theorem footprintsConflict_symm (cfg : Config) (l l' : Latch) :
    footprintsConflict cfg l l' ↔ footprintsConflict cfg l' l := by
  unfold footprintsConflict
  rw [Region.meets_symm (l.dstFP cfg) l'.srcFP, Region.meets_symm (l.dstFP cfg) (l'.dstFP cfg),
    Region.meets_symm l.srcFP (l'.dstFP cfg)]
  tauto

/-! ### Commands in flight -/

theorem State.inFlight_iff (s : State) (p : Instr → Bool) (c : Nat) :
    s.inFlight p c = true ↔ (s.ctx c).busy = true ∧ p (s.ctx c).latch.cmd = true := by
  simp [State.inFlight]

theorem State.inFlightElsewhere_iff (s : State) (c : Nat) (p : Instr → Bool) :
    s.inFlightElsewhere c p = true ↔ s.busyElsewhere c fun i => p i = true := by
  simp [State.inFlightElsewhere, State.busyElsewhere, State.inFlight]

theorem State.inFlightElsewhere_false (s : State) (c : Nat) (p : Instr → Bool) :
    s.inFlightElsewhere c p = false ↔ ¬ s.busyElsewhere c fun i => p i = true := by
  rw [← State.inFlightElsewhere_iff, Bool.not_eq_true]

theorem State.inFlightDst_iff (s : State) (a : Nat) :
    s.inFlightDst a = true ↔
      ∃ c < s.nCtx, s.inFlight Instr.isEncode c = true ∧ ((s.ctx c).latch.dstFP s.cfg).contains a = true := by
  simp [State.inFlightDst]

theorem State.inFlightSrc_iff (s : State) (a : Nat) :
    s.inFlightSrc a = true ↔
      ∃ c < s.nCtx, s.inFlight Instr.isEncode c = true ∧ (s.ctx c).latch.srcFP.contains a = true := by
  simp [State.inFlightSrc]

theorem State.footprintConflict_eq_none (s : State) (c : Nat) (l : Latch) :
    s.footprintConflict c l = none ↔
      ∀ c' < s.nCtx, c' ≠ c → (s.ctx c').busy = true → (s.ctx c').latch.cmd.isEncode = true →
        ¬ footprintsConflict s.cfg l (s.ctx c').latch := by
  simp only [State.footprintConflict, List.find?_eq_none, List.mem_range, State.inFlight, ← Latch.conflicts_iff]
  constructor
  · intro h c' hc hne hb he hcf
    exact h c' hc (by simp [hne, hb, he, hcf])
  · intro h c' hc hcf
    simp only [Bool.and_eq_true, decide_eq_true_eq] at hcf
    exact h c' hc hcf.1.1 hcf.1.2.1 hcf.1.2.2 hcf.2

theorem State.firstBusy_eq_none (s : State) : s.firstBusy = none ↔ s.quiet := by
  simp [State.firstBusy, State.quiet]

theorem State.firstBusy_eq_some {s : State} {c : Nat} (h : s.firstBusy = some c) :
    c < s.nCtx ∧ (s.ctx c).busy = true ∧ ∀ c' < c, (s.ctx c').busy = false := by
  simpa [State.firstBusy, List.find?_range_eq_some, and_left_comm] using h

/-! ### Reset (70_reset_and_hazards.md R241) -/

/-- Abandoning a command changes memory and the draw counter alone. -/
theorem State.abandon_eq (s : State) (c : Nat) :
    s.abandon c = { s with mem := (s.abandon c).mem, draws := (s.abandon c).draws } := by
  unfold State.abandon
  split <;> rfl

/-- Abandoning a command leaves every byte outside the DstFP of an ENCODE in flight there alone. -/
theorem State.abandon_read {s : State} {c a : Nat}
    (h : s.inFlight Instr.isEncode c = true → ((s.ctx c).latch.dstFP s.cfg).contains a = false) :
    (s.abandon c).mem.read a = s.mem.read a := by
  unfold State.abandon
  split
  · rename_i hc
    have h := h hc
    rw [Bool.eq_false_iff, ne_eq, Region.contains_iff] at h
    refine Memory.read_writeBytes_outside _ _ _ _ ?_
    simp only [State.nextBytes, List.length_map, List.length_range]
    omega
  · rfl

/-- A Reset's abandoning changes memory and the draw counter alone, and memory only in the destination footprints in
flight. -/
theorem State.abandonAll_spec (s : State) :
    s.abandonAll = { s with mem := s.abandonAll.mem, draws := s.abandonAll.draws } ∧
      ∀ a, s.inFlightDst a = false → s.abandonAll.mem.read a = s.mem.read a := by
  suffices key : ∀ (cs : List Nat) (u : State), u = { s with mem := u.mem, draws := u.draws } →
      cs.foldl State.abandon u =
          { s with mem := (cs.foldl State.abandon u).mem, draws := (cs.foldl State.abandon u).draws } ∧
        ∀ a, (∀ c ∈ cs, s.inFlight Instr.isEncode c = true → ((s.ctx c).latch.dstFP s.cfg).contains a = false) →
          (cs.foldl State.abandon u).mem.read a = u.mem.read a by
    obtain ⟨h1, h2⟩ := key (List.range s.nCtx) s rfl
    refine ⟨h1, fun a ha => h2 a fun c hc hf => ?_⟩
    rw [Bool.eq_false_iff, ne_eq, State.inFlightDst_iff] at ha
    exact Bool.eq_false_iff.mpr fun hd => ha ⟨c, List.mem_range.mp hc, hf, hd⟩
  intro cs
  induction cs with
  | nil => exact fun u hu => ⟨hu, fun _ _ => rfl⟩
  | cons c cs ih =>
    intro u hu
    obtain ⟨h1, h2⟩ := ih (u.abandon c) (by rw [State.abandon_eq, hu])
    refine ⟨h1, fun a ha => ?_⟩
    rw [List.foldl_cons, h2 a fun c' hc' => ha c' (List.mem_cons_of_mem _ hc')]
    refine State.abandon_read fun hf => ?_
    rw [hu] at hf ⊢
    exact ha c List.mem_cons_self hf

/-! ### Operands -/

theorem negative_false_iff (v : Word) : negative v = false ↔ 0 ≤ v.toInt := by
  simp [negative]

/-- A 32-bit value that is not negative as `sint32` reads the same as `uint32` (00_scope.md R12). -/
theorem toInt_nonneg_iff (v : Word) : 0 ≤ v.toInt ↔ v.toNat < 2 ^ 31 := by
  have := v.isLt
  rw [BitVec.toInt_eq_toNat_cond]
  split <;> omega

theorem Latch.firstNegative_eq_none (l : Latch) :
    l.firstNegative = none ↔ 0 ≤ l.doff.toInt ∧ 0 ≤ l.len.toInt ∧ 0 ≤ l.soff.toInt := by
  simp only [← negative_false_iff]
  unfold Latch.firstNegative
  cases negative l.doff <;> cases negative l.len <;> cases negative l.soff <;> simp

theorem Context.firstUnwritten_eq_none (k : Context) (need : List ArgReg) :
    k.firstUnwritten need = none ↔ ∀ r ∈ need, k.argWritten r = true := by
  simp [Context.firstUnwritten]

theorem Latch.overflows_false_iff (cfg : Config) (l : Latch) :
    l.overflows cfg = false ↔
      l.sbase.toNat + l.soff.toNat + l.len.toNat ≤ 2 ^ 32 ∧
        l.dbase.toNat + l.doff.toNat + cfg.bound l.len.toNat ≤ 2 ^ 32 := by
  simp only [Latch.overflows, Bool.or_eq_false_iff, decide_eq_false_iff_not, not_lt]
  exact Iff.rfl

theorem Latch.firstUnadmitted_eq_none (cfg : Config) (l : Latch) :
    Latch.firstUnadmitted cfg l = none ↔ l.admitted cfg := by
  simp only [Latch.firstUnadmitted, Latch.admitted, List.find?_eq_none, List.mem_append, Region.mem_addrs]
  simp

end Sys2Proof.Machine
end

