-- ==== Sys2Proof/Laws/Meanings.lean ====
section
/-! SUPPORT. One lemma for each meaning that says all it can do: what a next state is, for the issue and for the Perform
of each command (10_state.md R30). -/

namespace Sys2Proof.Machine

variable {s t : State} {c : Nat}

theorem byTurn_issue {issue perform : Nat → State → Result} (h : s.turn = .issue c) :
    s.byTurn issue perform = issue c s := by
  simp [State.byTurn, h]

theorem byTurn_perform {issue perform : Nat → State → Result} (h : s.turn = .perform c) :
    s.byTurn issue perform = perform c s := by
  simp [State.byTurn, h]

theorem issueBuildTable_next (h : issueBuildTable c s = .next t) :
    s.inFlightElsewhere c racesWithBuildTable = false ∧ t = s.issue c (buildLatch .buildTable) := by
  obtain ⟨hf, ht⟩ := (faultOr_eq_next _ _ _).mp h
  rw [firstFault_eq_none] at hf
  simp at hf
  exact ⟨hf, ht.symm⟩

theorem issueFlattenTable_next (h : issueFlattenTable c s = .next t) :
    s.inFlightElsewhere c racesWithFlatten = false ∧ s.tableBuilt = true ∧
      t = s.issue c (buildLatch .flattenTable) := by
  obtain ⟨hf, ht⟩ := (faultOr_eq_next _ _ _).mp h
  rw [firstFault_eq_none] at hf
  simp at hf
  exact ⟨hf.1, hf.2, ht.symm⟩

theorem issueBuildJump_next (h : issueBuildJump c s = .next t) :
    s.inFlightElsewhere c Instr.isEncode = false ∧ t = s.issue c (buildLatch .buildJump) := by
  obtain ⟨hf, ht⟩ := (faultOr_eq_next _ _ _).mp h
  rw [firstFault_eq_none] at hf
  simp at hf
  exact ⟨hf, ht.symm⟩

theorem issueRegisterBuffers_next (h : issueRegisterBuffers c s = .next t) :
    s.inFlightElsewhere c Instr.isEncodeG = false ∧ (s.ctx c).firstUnwritten registerNeeds = none ∧
      t = s.issue c (s.registerLatch c) := by
  obtain ⟨hf, ht⟩ := (faultOr_eq_next _ _ _).mp h
  rw [firstFault_eq_none] at hf
  simp at hf
  exact ⟨hf.1, hf.2, ht.symm⟩

/-- The issue of an ENCODE answers a next state exactly when R171's conditions hold, and then it only latches. -/
theorem issueEncode_next_iff (i : Instr) (m : Mode) :
    issueEncode i m c s = .next t ↔
      (∀ x ∈ encodeChecks m c (s.encodeLatch i m c) s, x = none) ∧ t = s.issue c (s.encodeLatch i m c) := by
  unfold issueEncode
  rw [faultOr_eq_next, firstFault_eq_none, eq_comm (b := t)]

theorem isBuild_iff (i : Instr) : i.isBuild = true ↔ i = .buildTable ∨ i = .flattenTable ∨ i = .buildJump := by
  cases i <;> simp [Instr.isBuild]

theorem encodeChecks_none_iff (m : Mode) (l : Latch) :
    (∀ x ∈ encodeChecks m c l s, x = none) ↔ EncodeAllowed s c m ∧ EncodeOperandsOk s c m l := by
  simp only [encodeChecks, List.forall_mem_cons, check_eq_none, Option.map_eq_none_iff, Bool.and_eq_false_iff,
    Bool.not_eq_false', State.inFlightElsewhere_false, Context.firstUnwritten_eq_none, Latch.firstNegative_eq_none,
    Latch.overflows_false_iff, State.footprintConflict_eq_none, isBuild_iff, decide_eq_true_eq, State.ready,
    Bool.and_eq_true, List.not_mem_nil, false_imp_iff, implies_true, and_true]
  have hself : l.selfOverlap s.cfg = false ↔ ¬ Region.meets l.srcFP (l.dstFP s.cfg) := by
    rw [← Region.overlaps_iff, Latch.selfOverlap, Bool.not_eq_true]
  rw [hself]
  constructor
  · rintro ⟨h1, h2, h3, h4, h5, ⟨h6, h7, h8⟩, ⟨h9, h10⟩, h11, h12⟩
    refine ⟨⟨h1, fun hp => ?_, ⟨h3.1.1, h3.1.2, h3.2⟩, fun hp => ?_⟩, ⟨h5, h6, h7, h8, h9, h10, h11, h12⟩⟩
    · simpa [hp] using h2
    · simpa [hp] using h4
  · rintro ⟨⟨h1, h2, h3, h4⟩, ⟨h5, h6, h7, h8, h9, h10, h11, h12⟩⟩
    refine ⟨h1, ?_, ⟨⟨h3.1, h3.2.1⟩, h3.2.2⟩, ?_, h5, ⟨h6, h7, h8⟩, ⟨h9, h10⟩, h11, h12⟩
    · cases hp : m.p with
      | true => simp
      | false => exact Or.inr (h2 hp)
    · cases hp : m.p with
      | true => simp
      | false => exact Or.inr (h4 hp)

/-- The issue of an ENCODE answers a next state exactly when the conditions of R171 hold. -/
theorem issueEncode_next (i : Instr) (m : Mode) :
    issueEncode i m c s = .next t ↔
      EncodeAllowed s c m ∧ EncodeOperandsOk s c m (s.encodeLatch i m c) ∧ t = s.issue c (s.encodeLatch i m c) := by
  rw [issueEncode_next_iff, encodeChecks_none_iff, and_assoc]

/-- The Perform of an ENCODE answers a next state exactly when every footprint byte is admitted (R93, R170). -/
theorem performEncode_next (rr : Bool) :
    performEncode rr c s = .next t ↔
      (s.ctx c).latch.admitted s.cfg ∧ t = (s.encodeEffect rr c).complete c := by
  unfold performEncode
  rw [faultOr_eq_next, Option.map_eq_none_iff, Latch.firstUnadmitted_eq_none, eq_comm (b := t)]

/-- F17 records a footprint byte that is not admitted. -/
theorem performEncode_fault {rr : Bool} {f : Fault} (h : performEncode rr c s = .fault f) :
    ∃ a, f = .outOfBounds c a ∧ s.cfg.admits a = false ∧
      ((s.ctx c).latch.srcFP.contains a = true ∨ ((s.ctx c).latch.dstFP s.cfg).contains a = true) := by
  unfold performEncode at h
  rw [faultOr_eq_fault, Option.map_eq_some_iff] at h
  obtain ⟨a, ha, rfl⟩ := h
  have h1 := List.find?_some ha
  have h2 := List.mem_of_find?_eq_some ha
  simp only [List.mem_append, Region.mem_addrs] at h2
  exact ⟨a, rfl, by simpa using h1, h2⟩

/-- The mode of each ENCODE form. -/
theorem exec_encodeForm (p so rr : Bool) (strat : Nat) (s : State) :
    exec (encodeForm p so rr strat) s = encodeCommand (encodeForm p so rr strat) ⟨p, so, rr⟩ s := by
  cases p <;> cases so <;> cases rr <;> rfl

theorem exec_encodeForm_issue (p so rr : Bool) (strat : Nat) (h : s.turn = .issue c) :
    exec (encodeForm p so rr strat) s = issueEncode (encodeForm p so rr strat) ⟨p, so, rr⟩ c s := by
  rw [exec_encodeForm, encodeCommand, byTurn_issue h]

theorem exec_encodeForm_perform (p so rr : Bool) (strat : Nat) (h : s.turn = .perform c) :
    exec (encodeForm p so rr strat) s = performEncode rr c s := by
  rw [exec_encodeForm, encodeCommand, byTurn_perform h]

/-- Every ENCODE is one of the eight forms. -/
theorem isEncode_iff (i : Instr) : i.isEncode = true ↔ ∃ p so rr strat, i = encodeForm p so rr strat := by
  constructor
  · cases i with
    | encodeP n => exact fun _ => ⟨true, false, false, n, rfl⟩
    | encodePSo n => exact fun _ => ⟨true, true, false, n, rfl⟩
    | encodePRr n => exact fun _ => ⟨true, false, true, n, rfl⟩
    | encodePSoRr n => exact fun _ => ⟨true, true, true, n, rfl⟩
    | encodeG n => exact fun _ => ⟨false, false, false, n, rfl⟩
    | encodeGSo n => exact fun _ => ⟨false, true, false, n, rfl⟩
    | encodeGRr n => exact fun _ => ⟨false, false, true, n, rfl⟩
    | encodeGSoRr n => exact fun _ => ⟨false, true, true, n, rfl⟩
    | _ => simp [Instr.isEncode]
  · rintro ⟨p, so, rr, strat, rfl⟩
    cases p <;> cases so <;> cases rr <;> rfl

@[simp] theorem encodeForm_isEncode (p so rr : Bool) (strat : Nat) : (encodeForm p so rr strat).isEncode = true := by
  cases p <;> cases so <;> cases rr <;> rfl

@[simp] theorem encodeForm_isBuild (p so rr : Bool) (strat : Nat) : (encodeForm p so rr strat).isBuild = false := by
  cases p <;> cases so <;> cases rr <;> rfl

@[simp] theorem encodeForm_isEncodeG (p so rr : Bool) (strat : Nat) : (encodeForm p so rr strat).isEncodeG = !p := by
  cases p <;> cases so <;> cases rr <;> rfl

@[simp] theorem encodeForm_op (p so rr : Bool) (strat : Nat) : (encodeForm p so rr strat).op = 0x5#4 := by
  cases p <;> cases so <;> cases rr <;> rfl

@[simp] theorem encodeForm_wf (p so rr : Bool) (strat : Nat) :
    (encodeForm p so rr strat).wf = decide (strat < 16) := by
  cases p <;> cases so <;> cases rr <;> rfl

/-! ### All that a command can do -/

/-- The issues that answer a next state: which command, under which conditions, and what it latches. -/
inductive IssueCase (s : State) (c : Nat) : Instr → State → Prop
  | buildTable (h : s.inFlightElsewhere c racesWithBuildTable = false) :
      IssueCase s c .buildTable (s.issue c (buildLatch .buildTable))
  | flattenTable (h : s.inFlightElsewhere c racesWithFlatten = false) (hb : s.tableBuilt = true) :
      IssueCase s c .flattenTable (s.issue c (buildLatch .flattenTable))
  | buildJump (h : s.inFlightElsewhere c Instr.isEncode = false) :
      IssueCase s c .buildJump (s.issue c (buildLatch .buildJump))
  | registerBuffers (h : s.inFlightElsewhere c Instr.isEncodeG = false)
      (hw : (s.ctx c).firstUnwritten registerNeeds = none) :
      IssueCase s c .registerBuffers (s.issue c (s.registerLatch c))
  | encode (p so rr : Bool) (strat : Nat) (ha : EncodeAllowed s c ⟨p, so, rr⟩)
      (ho : EncodeOperandsOk s c ⟨p, so, rr⟩ (s.encodeLatch (encodeForm p so rr strat) ⟨p, so, rr⟩ c)) :
      IssueCase s c (encodeForm p so rr strat) (s.issue c (s.encodeLatch (encodeForm p so rr strat) ⟨p, so, rr⟩ c))

/-- The Performs that answer a next state, and what it is. -/
inductive PerformCase (s : State) (c : Nat) : Instr → State → Prop
  | buildTable :
      PerformCase s c .buildTable (State.complete { s with table := s.cfg.codeTable, tableBuilt := true } c)
  | flattenTable :
      PerformCase s c .flattenTable (State.complete { s with flat := flatten s.table, flatBuilt := true } c)
  | buildJump :
      PerformCase s c .buildJump (State.complete { s with jump := s.cfg.jumpTable, jumpBuilt := true } c)
  | registerBuffers :
      PerformCase s c .registerBuffers
        (State.complete
          { s with regInBase := (s.ctx c).latch.sbase, regOutBase := (s.ctx c).latch.dbase, regValid := true } c)
  | encode (p so rr : Bool) (strat : Nat) (ha : (s.ctx c).latch.admitted s.cfg) :
      PerformCase s c (encodeForm p so rr strat) ((s.encodeEffect rr c).complete c)

/-- Every command is a build, REGISTER_BUFFERS, or one of the eight ENCODE forms. -/
theorem instr_kinds (i : Instr) :
    i = .buildTable ∨ i = .flattenTable ∨ i = .buildJump ∨ i = .registerBuffers ∨
      ∃ p so rr strat, i = encodeForm p so rr strat := by
  rw [← isEncode_iff]
  cases i <;> simp [Instr.isEncode]

theorem exec_issue_next {i : Instr} (ht : s.turn = .issue c) (h : exec i s = .next t) : IssueCase s c i t := by
  rcases instr_kinds i with rfl | rfl | rfl | rfl | ⟨p, so, rr, strat, rfl⟩
  · obtain ⟨h1, rfl⟩ := issueBuildTable_next ((byTurn_issue ht).symm.trans h)
    exact .buildTable h1
  · obtain ⟨h1, h2, rfl⟩ := issueFlattenTable_next ((byTurn_issue ht).symm.trans h)
    exact .flattenTable h1 h2
  · obtain ⟨h1, rfl⟩ := issueBuildJump_next ((byTurn_issue ht).symm.trans h)
    exact .buildJump h1
  · obtain ⟨h1, h2, rfl⟩ := issueRegisterBuffers_next ((byTurn_issue ht).symm.trans h)
    exact .registerBuffers h1 h2
  · rw [exec_encodeForm_issue _ _ _ _ ht] at h
    obtain ⟨h1, h2, rfl⟩ := (issueEncode_next _ _).mp h
    exact .encode p so rr strat h1 h2

theorem exec_perform_next {i : Instr} (ht : s.turn = .perform c) (h : exec i s = .next t) : PerformCase s c i t := by
  rcases instr_kinds i with rfl | rfl | rfl | rfl | ⟨p, so, rr, strat, rfl⟩
  · cases (byTurn_perform ht).symm.trans h; exact .buildTable
  · cases (byTurn_perform ht).symm.trans h; exact .flattenTable
  · cases (byTurn_perform ht).symm.trans h; exact .buildJump
  · cases (byTurn_perform ht).symm.trans h; exact .registerBuffers
  · rw [exec_encodeForm_perform _ _ _ _ ht] at h
    obtain ⟨h1, rfl⟩ := (performEncode_next rr).mp h
    exact .encode p so rr strat h1

/-- An issue changes no context but its own. -/
theorem IssueCase.ctx_ne {i : Instr} (h : IssueCase s c i t) {c' : Nat} (hc : c' ≠ c) : t.ctx c' = s.ctx c' := by
  cases h <;> exact State.ctx_issue_ne _ _ _ _ hc

/-- A Perform ends its command: BUSY is 0 and DONE is 1 (10_state.md R48). -/
theorem PerformCase.ends {i : Instr} (h : PerformCase s c i t) (hc : c < s.nCtx) :
    (t.ctx c).busy = false ∧ (t.ctx c).done = true := by
  have key : ∀ u : State, u.nCtx = s.nCtx → ((u.complete c).ctx c).busy = false ∧ ((u.complete c).ctx c).done = true := by
    intro u hu
    rw [State.ctx_complete_same _ _ (hu ▸ hc)]
    exact ⟨rfl, rfl⟩
  cases h with
  | encode p so rr strat ha => exact key _ (by simp)
  | _ => exact key _ rfl

/-- A Perform changes no context but its own. -/
theorem PerformCase.ctx_ne {i : Instr} (h : PerformCase s c i t) {c' : Nat} (hc : c' ≠ c) : t.ctx c' = s.ctx c' := by
  cases h with
  | encode p so rr strat ha =>
    rw [State.ctx_complete_ne _ _ _ hc]
    exact State.ctx_encodeEffect_ne _ _ _ _ hc
  | _ =>
    rw [State.ctx_complete_ne _ _ _ hc]
    rfl

/-- The only fault of a Perform is F17, of an ENCODE (60_exceptions.md R212). -/
theorem exec_perform_fault {i : Instr} {f : Fault} (ht : s.turn = .perform c) (h : exec i s = .fault f) :
    i.isEncode = true ∧ ∃ a, f = .outOfBounds c a := by
  rcases instr_kinds i with rfl | rfl | rfl | rfl | ⟨p, so, rr, strat, rfl⟩
  · cases (byTurn_perform ht).symm.trans h
  · cases (byTurn_perform ht).symm.trans h
  · cases (byTurn_perform ht).symm.trans h
  · cases (byTurn_perform ht).symm.trans h
  · rw [exec_encodeForm_perform _ _ _ _ ht] at h
    obtain ⟨a, h1, -⟩ := performEncode_fault h
    exact ⟨by simp, a, h1⟩

/-- No command is refused. -/
theorem exec_ne_refused (i : Instr) (s : State) (r : Refusal) : exec i s ≠ .refused r := by
  have key : ∀ f g : Nat → State → Result, (∀ c, f c s ≠ .refused r) → (∀ c, g c s ≠ .refused r) →
      s.byTurn f g ≠ .refused r := by
    intro f g h1 h2
    unfold State.byTurn
    split
    · exact h1 _
    · exact h2 _
  rcases instr_kinds i with rfl | rfl | rfl | rfl | ⟨p, so, rr, strat, rfl⟩
  · exact key _ _ (fun _ => faultOr_ne_refused _ _ _) (fun _ => nofun)
  · exact key _ _ (fun _ => faultOr_ne_refused _ _ _) (fun _ => nofun)
  · exact key _ _ (fun _ => faultOr_ne_refused _ _ _) (fun _ => nofun)
  · exact key _ _ (fun _ => faultOr_ne_refused _ _ _) (fun _ => nofun)
  · rw [exec_encodeForm]
    exact key _ _ (fun _ => faultOr_ne_refused _ _ _) (fun _ => faultOr_ne_refused _ _ _)

end Sys2Proof.Machine
end

