-- ==== Sys2Proof/Laws/PerInstr.lean ====
section
/-! SUPPORT. Facts about every command as syntax, one lemma for each constructor. -/

namespace Sys2Proof.Laws

/-- The word of a well-formed command has CN = 0 and bits 31:13 = 0 (30_encoding.md R126, R129), and a command other
than ENCODE has no mode bit set (R128). -/
def ReservedZero.Statement (i : Instr) : Prop :=
  i.wf = true → field (encode i) 12 20 = 0 ∧ (field (encode i) 0 4 ≠ 5 → field (encode i) 4 28 = 0)

theorem ReservedZero.buildTable : ReservedZero.Statement .buildTable :=
  fun _ => ⟨rfl, fun _ => rfl⟩

theorem ReservedZero.flattenTable : ReservedZero.Statement .flattenTable :=
  fun _ => ⟨rfl, fun _ => rfl⟩

theorem ReservedZero.buildJump : ReservedZero.Statement .buildJump :=
  fun _ => ⟨rfl, fun _ => rfl⟩

theorem ReservedZero.registerBuffers : ReservedZero.Statement .registerBuffers :=
  fun _ => ⟨rfl, fun _ => rfl⟩

/-- The case of every ENCODE form: 16 values of STRAT. -/
theorem encodeWord_reserved (p so rr : Bool) (strat : Nat) (h : decide (strat < 16) = true) :
    field (encodeWord p so rr strat) 12 20 = 0 ∧ field (encodeWord p so rr strat) 0 4 = 5 := by
  have key : ∀ (p so rr : Bool) (n : Fin 16),
      field (encodeWord p so rr n.val) 12 20 = 0 ∧ field (encodeWord p so rr n.val) 0 4 = 5 := by decide
  exact key p so rr ⟨strat, of_decide_eq_true h⟩

theorem ReservedZero.encodeP (n : Nat) : ReservedZero.Statement (.encodeP n) :=
  fun h => ⟨(encodeWord_reserved _ _ _ n h).1, fun h' => absurd (encodeWord_reserved _ _ _ n h).2 h'⟩

theorem ReservedZero.encodePSo (n : Nat) : ReservedZero.Statement (.encodePSo n) :=
  fun h => ⟨(encodeWord_reserved _ _ _ n h).1, fun h' => absurd (encodeWord_reserved _ _ _ n h).2 h'⟩

theorem ReservedZero.encodePRr (n : Nat) : ReservedZero.Statement (.encodePRr n) :=
  fun h => ⟨(encodeWord_reserved _ _ _ n h).1, fun h' => absurd (encodeWord_reserved _ _ _ n h).2 h'⟩

theorem ReservedZero.encodePSoRr (n : Nat) : ReservedZero.Statement (.encodePSoRr n) :=
  fun h => ⟨(encodeWord_reserved _ _ _ n h).1, fun h' => absurd (encodeWord_reserved _ _ _ n h).2 h'⟩

theorem ReservedZero.encodeG (n : Nat) : ReservedZero.Statement (.encodeG n) :=
  fun h => ⟨(encodeWord_reserved _ _ _ n h).1, fun h' => absurd (encodeWord_reserved _ _ _ n h).2 h'⟩

theorem ReservedZero.encodeGSo (n : Nat) : ReservedZero.Statement (.encodeGSo n) :=
  fun h => ⟨(encodeWord_reserved _ _ _ n h).1, fun h' => absurd (encodeWord_reserved _ _ _ n h).2 h'⟩

theorem ReservedZero.encodeGRr (n : Nat) : ReservedZero.Statement (.encodeGRr n) :=
  fun h => ⟨(encodeWord_reserved _ _ _ n h).1, fun h' => absurd (encodeWord_reserved _ _ _ n h).2 h'⟩

theorem ReservedZero.encodeGSoRr (n : Nat) : ReservedZero.Statement (.encodeGSoRr n) :=
  fun h => ⟨(encodeWord_reserved _ _ _ n h).1, fun h' => absurd (encodeWord_reserved _ _ _ n h).2 h'⟩

end Sys2Proof.Laws
end

