-- ==== Sys2Proof/Laws/Step.lean ====
section
/-! SUPPORT. The register window's map, and one inversion lemma that says all a step can do. Invariants and whole-machine
rules are proved from these. -/

namespace Sys2Proof.Machine

/-! ### The register window (30_encoding.md R110, R115) -/

theorem ctxRegAt_offset {c k : Nat} {r : Reg} (h : ctxRegAt c k = some r) : r.offset = ctxBase c + k := by
  unfold ctxRegAt at h
  split at h <;> simp at h <;> subst h <;> rfl

theorem ctxRegAt_exists {c k n : Nat} {r : Reg} (h : ctxRegAt c k = some r) (hc : c < n) : r.existsIn n := by
  unfold ctxRegAt at h
  split at h <;> simp at h <;> subst h <;> exact hc

/-- A mapped offset is the offset of the register found there, and that register exists. -/
theorem regAt_sound {n off : Nat} {r : Reg} (h : regAt n off = some r) (ha : off % 4 = 0) :
    r.offset = off ∧ r.existsIn n := by
  unfold regAt at h
  split_ifs at h with h0 h4 h8 hc h10 hx ht
  · cases h; exact ⟨h0.symm, trivial⟩
  · cases h; exact ⟨h4.symm, trivial⟩
  · cases h; exact ⟨h8.symm, trivial⟩
  · cases h; exact ⟨hc.symm, trivial⟩
  · cases h; exact ⟨h10.symm, trivial⟩
  · refine ⟨?_, ctxRegAt_exists h ?_⟩
    · rw [ctxRegAt_offset h, ctxBase]; omega
    · simp only [ctxBase] at hx; omega
  · cases h
    exact ⟨by simp only [Reg.offset]; omega, show (off - 0x800) / 4 ≤ 256 by omega⟩

/-- Every register of the machine is found at its offset. -/
theorem regAt_offset {n : Nat} {r : Reg} (hn : n ≤ 16) (hr : r.existsIn n) : regAt n r.offset = some r := by
  have ctx : ∀ c k r', c < n → k < 0x40 → ctxRegAt c k = some r' → regAt n (ctxBase c + k) = some r' := by
    intro c k r' hc hk h
    obtain ⟨off, ho⟩ : ∃ off, off = ctxBase c + k := ⟨_, rfl⟩
    have hb : ctxBase c = 0x100 + 0x40 * c := rfl
    have hn' : ctxBase n = 0x100 + 0x40 * n := rfl
    rw [← ho]
    unfold regAt
    rw [if_neg (by omega), if_neg (by omega), if_neg (by omega), if_neg (by omega), if_neg (by omega),
      if_pos (by omega), show (off - 0x100) / 0x40 = c by omega, show (off - 0x100) % 0x40 = k by omega, h]
  cases r with
  | id => rfl
  | gstatus => rfl
  | regInBase => rfl
  | regOutBase => rfl
  | config => rfl
  | tbl sym =>
    have hs : sym ≤ 256 := hr
    obtain ⟨off, ho⟩ : ∃ off, off = (Reg.tbl sym).offset := ⟨_, rfl⟩
    have hb : (Reg.tbl sym).offset = 0x800 + 4 * sym := rfl
    have hn' : ctxBase n = 0x100 + 0x40 * n := rfl
    rw [← ho]
    unfold regAt
    rw [if_neg (by omega), if_neg (by omega), if_neg (by omega), if_neg (by omega), if_neg (by omega),
      if_neg (by omega), if_pos (by omega), show (off - 0x800) / 4 = sym by omega]
  | cmd c => exact ctx c 0 _ hr (by omega) rfl
  | arg c r => cases r <;> exact ctx c _ _ hr (by omega) rfl
  | status c => exact ctx c 0x18 _ hr (by omega) rfl
  | resLen c => exact ctx c 0x1C _ hr (by omega) rfl
  | resRem c => exact ctx c 0x20 _ hr (by omega) rfl
  | resOutStart c => exact ctx c 0x24 _ hr (by omega) rfl

theorem Reg.offset_aligned (r : Reg) : r.offset % 4 = 0 := by
  cases r with
  | arg c r => cases r <;> simp only [Reg.offset, ctxBase] <;> omega
  | _ => simp only [Reg.offset, ctxBase] <;> omega

/-- A 32-bit access at a register's offset reaches it. -/
theorem busTarget_offset {n : Nat} {r : Reg} (hn : n ≤ 16) (hr : r.existsIn n) : busTarget n r.offset 32 = .ok r := by
  simp [busTarget, Reg.offset_aligned, regAt_offset hn hr]

theorem busTarget_sound {n off width : Nat} {r : Reg} (h : busTarget n off width = .ok r) :
    width = 32 ∧ r.offset = off ∧ r.existsIn n := by
  unfold busTarget at h
  split at h
  · cases h
  · rename_i hg
    simp only [not_or, not_not] at hg
    split at h
    · rename_i r' hr
      cases h
      exact ⟨hg.1, regAt_sound hr hg.2⟩
    · cases h

/-! ### Busy contexts -/

theorem State.busy_lt {s : State} {c : Nat} (h : (s.ctx c).busy = true) : c < s.nCtx := by
  by_contra hc
  have : s.ctx c = Context.reset := by
    simp only [State.ctx, List.getD, State.nCtx] at *
    rw [List.getElem?_eq_none (by omega)]
    rfl
  rw [this] at h
  exact absurd h (by decide)

/-! ### What a bus write can be -/

theorem State.busWrite_arg {s : State} {off width c : Nat} {r : ArgReg} (h : s.busWrite off width = .arg c r) :
    width = 32 ∧ off = (Reg.arg c r).offset ∧ c < s.nCtx ∧ (s.ctx c).busy = false := by
  unfold State.busWrite at h
  split at h
  · cases h
  · split at h <;> cases h
  · rename_i hb
    split at h
    · cases h
    · cases h
      obtain ⟨h1, h2, h3⟩ := busTarget_sound hb
      exact ⟨h1, h2.symm, h3, Bool.eq_false_iff.mpr ‹¬ _›⟩
  · cases h

theorem State.busWrite_cmd {s : State} {off width c : Nat} (h : s.busWrite off width = .cmd c) :
    width = 32 ∧ off = ctxBase c ∧ c < s.nCtx ∧ (s.ctx c).busy = false := by
  unfold State.busWrite at h
  split at h
  · cases h
  · rename_i hb
    split at h
    · cases h
    · cases h
      obtain ⟨h1, h2, h3⟩ := busTarget_sound hb
      exact ⟨h1, h2.symm, h3, Bool.eq_false_iff.mpr ‹¬ _›⟩
  · split at h <;> cases h
  · cases h

/-! ### One step -/

/-- All that a step which answers a next state can be. -/
inductive StepCase (s : State) : State → Prop
  /-- A host read of a register. -/
  | regRead (off : Nat) (es : List Event) (r : Reg) (hs : s.schedule = .regRead off 32 :: es)
      (hr : r.existsIn s.nCtx) (ho : r.offset = off) :
      StepCase s (State.answer { s with schedule := es } (s.readReg r))
  /-- A host write of an argument register. -/
  | writeArg (es : List Event) (c : Nat) (r : ArgReg) (v : Word)
      (hs : s.schedule = .regWrite (Reg.arg c r).offset 32 v :: es) (hc : c < s.nCtx) (hb : (s.ctx c).busy = false) :
      StepCase s (State.writeArg { s with schedule := es } c r v)
  /-- A host write of CMD: the issue of a command. -/
  | issue (es : List Event) (c : Nat) (v : Word) (i : Instr) (t : State)
      (hs : s.schedule = .regWrite (ctxBase c) 32 v :: es) (hc : c < s.nCtx) (hb : (s.ctx c).busy = false)
      (hd : decode v = .ok i) (ht : exec i (State.writeCmd { s with schedule := es } c v) = .next t) : StepCase s t
  /-- A host read of a byte in flight. -/
  | memReadRace (es : List Event) (a : Addr) (hs : s.schedule = .memRead a :: es) (hd : s.inFlightDst a.toNat = true) :
      StepCase s { s with schedule := es, reply := .byte (Config.freeByte s.draws), draws := s.draws + 1 }
  /-- A host read of a byte. -/
  | memRead (es : List Event) (a : Addr) (hs : s.schedule = .memRead a :: es) (hd : s.inFlightDst a.toNat = false) :
      StepCase s { s with schedule := es, reply := .byte (s.mem.read a.toNat) }
  /-- A host write of a byte. -/
  | memWrite (es : List Event) (a : Addr) (v : Byte) (hs : s.schedule = .memWrite a v :: es)
      (hd : s.inFlightSrc a.toNat = false ∧ s.inFlightDst a.toNat = false) :
      StepCase s { s with schedule := es, mem := s.mem.write a.toNat v }
  /-- Reset. -/
  | reset (es : List Event) (t : State) (hs : s.schedule = .reset :: es)
      (ht : resetStep { s with schedule := es } = .next t) : StepCase s t
  /-- The Perform of an engine, scheduled or with the schedule used up. -/
  | perform (es : List Event) (c : Nat) (t : State)
      (hs : s.schedule = .perform c :: es ∨ s.schedule = [] ∧ es = [] ∧ ∀ c' < c, (s.ctx c').busy = false)
      (hc : c < s.nCtx) (hb : (s.ctx c).busy = true)
      (ht : exec (s.ctx c).latch.cmd { s with schedule := es, turn := .perform c } = .next t) : StepCase s t
  /-- A final state stays as it is. -/
  | final (hs : s.schedule = []) (hq : s.quiet) : StepCase s s

theorem step_live {s t : State} (h : step s = .next t) : s.live := by
  unfold step nextAction at h
  split at h
  · rename_i i u hr
    split at hr
    · cases hr
    · rename_i hw
      split at hr
      · cases hr
      · rename_i hf
        simp at hw
        exact ⟨hw.1, hw.2, hf⟩
  · rename_i o hr
    split at hr
    · cases hr; cases h
    · rename_i hw
      split at hr
      · cases hr; cases h
      · rename_i hf
        simp at hw
        exact ⟨hw.1, hw.2, hf⟩

/-- A live state takes the step of its next agent. -/
theorem step_of_live {s : State} (h : s.live) :
    step s =
      match (match s.schedule with
        | [] => idleStep s
        | e :: es => agentStep e { s with schedule := es }) with
      | .run i t => exec i t
      | .done o => o := by
  obtain ⟨h1, h2, h3⟩ := h
  unfold step nextAction
  simp only [h1, h2, h3, Bool.and_self, Bool.true_eq_false, if_false] <;> rfl

/-! ### What a bus write to a known register is -/

theorem State.busWrite_of_error {s : State} {off width : Nat} {f : Fault} (h : busTarget s.nCtx off width = .error f) :
    s.busWrite off width = .fault f := by
  unfold State.busWrite; rw [h]

theorem State.busWrite_of_cmd {s : State} {off width c : Nat} (h : busTarget s.nCtx off width = .ok (.cmd c)) :
    s.busWrite off width = if (s.ctx c).busy then .fault (.commandWhileBusy c) else .cmd c := by
  unfold State.busWrite; rw [h]

theorem State.busWrite_of_arg {s : State} {off width c : Nat} {r : ArgReg}
    (h : busTarget s.nCtx off width = .ok (.arg c r)) :
    s.busWrite off width = if (s.ctx c).busy then .fault (.argWriteWhileBusy c off) else .arg c r := by
  unfold State.busWrite; rw [h]

theorem State.busWrite_of_readOnly {s : State} {off width : Nat} {r : Reg} (h : busTarget s.nCtx off width = .ok r)
    (hr : r.writable = false) : s.busWrite off width = .fault (.busReadOnlyWrite off) := by
  unfold State.busWrite; rw [h]
  cases r <;> first | rfl | cases hr

/-! ### A scheduled bus write in a live state -/

section
variable {s : State} {es : List Event} {off width c : Nat} {v : Word}

theorem step_regWrite_fault {f : Fault} (hl : s.live) (hs : s.schedule = .regWrite off width v :: es)
    (h : s.busWrite off width = .fault f) : step s = .fault f := by
  have h' : State.busWrite { s with schedule := es } off width = .fault f := h
  rw [step_of_live hl, hs]
  simp only [agentStep]
  unfold regWrite
  rw [h']

theorem step_regWrite_arg {r : ArgReg} (hl : s.live) (hs : s.schedule = .regWrite off width v :: es)
    (h : s.busWrite off width = .arg c r) : step s = .next (State.writeArg { s with schedule := es } c r v) := by
  have h' : State.busWrite { s with schedule := es } off width = .arg c r := h
  rw [step_of_live hl, hs]
  simp only [agentStep]
  unfold regWrite
  rw [h']

theorem step_regWrite_illegal {e : IllegalWord} (hl : s.live) (hs : s.schedule = .regWrite off width v :: es)
    (h : s.busWrite off width = .cmd c) (hd : decode v = .error e) : step s = .fault (.illegalCommand c v) := by
  have h' : State.busWrite { s with schedule := es } off width = .cmd c := h
  rw [step_of_live hl, hs]
  simp only [agentStep]
  unfold regWrite
  rw [h']
  simp only [hd]

theorem step_regWrite_cmd {i : Instr} (hl : s.live) (hs : s.schedule = .regWrite off width v :: es)
    (h : s.busWrite off width = .cmd c) (hd : decode v = .ok i) :
    step s = exec i (State.writeCmd { s with schedule := es } c v) := by
  have h' : State.busWrite { s with schedule := es } off width = .cmd c := h
  rw [step_of_live hl, hs]
  simp only [agentStep]
  unfold regWrite
  rw [h']
  simp only [hd]

end

theorem engineStep_next {s t : State} {c : Nat}
    (h : (match engineStep c s with
      | .run i t => exec i t
      | .done o => o) = .next t) :
    (s.ctx c).busy = true ∧ exec (s.ctx c).latch.cmd { s with turn := .perform c } = .next t := by
  unfold engineStep at h
  by_cases hb : (s.ctx c).busy = true
  · simp only [hb, if_true] at h
    exact ⟨hb, h⟩
  · simp only [hb] at h
    cases h

/-- All a step can do. -/
theorem step_cases {s t : State} (h : step s = .next t) : StepCase s t := by
  rw [step_of_live (step_live h)] at h
  cases hs : s.schedule with
  | nil =>
    rw [hs] at h
    simp only [idleStep] at h
    cases hb : s.firstBusy with
    | none =>
      rw [hb] at h
      cases h
      exact .final hs ((State.firstBusy_eq_none s).mp hb)
    | some c =>
      rw [hb] at h
      obtain ⟨hb', ht⟩ := engineStep_next h
      have e : s = { s with schedule := [] } := by rw [← hs]
      exact .perform [] c t (.inr ⟨hs, rfl, (State.firstBusy_eq_some hb).2.2⟩) (State.busy_lt hb') hb' (by rw [← ht, ← hs])
  | cons e es =>
    rw [hs] at h
    cases e with
    | regRead off width =>
      simp only [agentStep, Machine.regRead] at h
      split at h
      · cases h
      · rename_i r hr
        cases h
        obtain ⟨rfl, h2, h3⟩ := busTarget_sound hr
        exact .regRead off es r hs h3 h2
    | regWrite off width v =>
      simp only [agentStep, regWrite] at h
      cases hb : (State.busWrite { s with schedule := es } off width) with
      | fault f => rw [hb] at h; cases h
      | arg c r =>
        rw [hb] at h
        cases h
        obtain ⟨rfl, rfl, h3, h4⟩ := State.busWrite_arg hb
        exact .writeArg es c r v hs h3 h4
      | cmd c =>
        rw [hb] at h
        obtain ⟨rfl, rfl, h3, h4⟩ := State.busWrite_cmd hb
        cases hd : decode v with
        | error e => rw [hd] at h; cases h
        | ok i =>
          rw [hd] at h
          exact .issue es c v i t hs h3 h4 hd h
    | memRead a =>
      simp only [agentStep, Machine.memRead] at h
      cases hd : s.inFlightDst a.toNat with
      | true =>
        rw [if_pos (show State.inFlightDst { s with schedule := es } a.toNat = true from hd)] at h
        cases h
        exact .memReadRace es a hs hd
      | false =>
        rw [if_neg (show ¬ State.inFlightDst { s with schedule := es } a.toNat = true by
          rw [show State.inFlightDst { s with schedule := es } a.toNat = false from hd]; simp)] at h
        cases h
        exact .memRead es a hs hd
    | memWrite a v =>
      simp only [agentStep, Machine.memWrite] at h
      obtain ⟨h1, rfl⟩ := (faultOr_eq_next _ _ _).mp h
      rw [check_eq_none, Bool.or_eq_false_iff] at h1
      exact .memWrite es a v hs h1
    | reset => exact .reset es t hs h
    | perform c =>
      obtain ⟨hb, ht⟩ := engineStep_next h
      exact .perform es c t (.inl hs) (State.busy_lt hb) hb ht

end Sys2Proof.Machine
end

