-- ==== Sys2Proof/Tests/Slice0.lean ====
section
/-! SUPPORT. The model's own tests. Expected values are the spec's: 95_test_vectors.md, 30_encoding.md. The second half
gives, for each obligation with hypotheses, a concrete input that meets them all. -/

namespace Sys2Proof.Tests

open Sys2Proof Sys2Proof.Machine

-- One test after the other: many long kernel evaluations at once would need too many threads.
set_option Elab.async false

/-! ### WellFormed: each check refuses a term that breaks it -/

theorem test_strat_range : Instr.wf (.encodeP 15) = true ∧ Instr.wf (.encodeP 16) = false ∧
    Instr.wf (.encodePSo 16) = false ∧ Instr.wf (.encodePRr 16) = false ∧ Instr.wf (.encodePSoRr 16) = false ∧
    Instr.wf (.encodeG 16) = false ∧ Instr.wf (.encodeGSo 16) = false ∧ Instr.wf (.encodeGRr 16) = false ∧
    Instr.wf (.encodeGSoRr 16) = false := by decide

/-- R8: 1 to 16 contexts. -/
theorem test_context_count :
    nCtxWf 0 = false ∧ nCtxWf 1 = true ∧ nCtxWf 16 = true ∧ nCtxWf 17 = false := by decide

/-- R40: 20 entries, each 0, 15 or 25. -/
theorem test_jump_table : jumpTableWf (List.replicate 20 25#8) = true ∧ jumpTableWf (List.replicate 19 0#8) = false ∧
    jumpTableWf (List.replicate 21 0#8) = false ∧ jumpTableWf (1#8 :: List.replicate 19 0#8) = false := by decide

/-- 95_test_vectors.md section 2.1: TT1 is well-formed. -/
theorem test_tt1_accepted : codeTableWf Config.tableTT1 = true := by decide +kernel

/-- R32: not 257 entries. -/
theorem test_table_length : codeTableWf (Config.tableTT1.take 256) = false := by decide +kernel

/-- R33: a length of 0, or of 17. -/
theorem test_length_range : Code.lenInRange ⟨0#5, 0#16⟩ = false ∧ Code.lenInRange ⟨17#5, 0#16⟩ = false ∧
    Code.lenInRange ⟨16#5, 0#16⟩ = true ∧
    codeTableWf (Config.tableTT1.set 0 ⟨17#5, 0#16⟩) = false := by decide +kernel

/-- R34: a bit at or above position `len`. -/
theorem test_stray_bits : Code.noStrayBits ⟨8#5, 0x100#16⟩ = false ∧ Code.noStrayBits ⟨8#5, 0xFF#16⟩ = true ∧
    codeTableWf (Config.tableTT1.set 0 ⟨8#5, 0x100#16⟩) = false := by decide +kernel

/-- R35(i): entry 0 a copy of entry 1, whose code is then a prefix of it; the Kraft sum stays 1. -/
theorem test_prefix : kraftSum (Config.tableTT1.set 0 ⟨8#5, 0x01#16⟩) = 2 ^ 16 ∧
    codeTableWf (Config.tableTT1.set 0 ⟨8#5, 0x01#16⟩) = false := by decide +kernel

/-- R35(ii): entry 0 lengthened, so that the code is incomplete. -/
theorem test_kraft : prefixFreeFrom 0 (Config.tableTT1.set 0 ⟨9#5, 0x00#16⟩) = true ∧
    codeTableWf (Config.tableTT1.set 0 ⟨9#5, 0x00#16⟩) = false := by decide +kernel

/-- R36: the pinned entries, each exchanged with another entry of its length or changed. -/
theorem test_pinned : pinnedEntries Config.tableTT1 = true ∧
    codeTableWf ((Config.tableTT1.set 64 ⟨8#5, 0x00#16⟩).set 0 ⟨5#5, 0x0A#16⟩) = false ∧
    codeTableWf ((Config.tableTT1.set 256 ⟨5#5, 0x0A#16⟩).set 64 ⟨4#5, 0x0D#16⟩) = false := by decide +kernel

/-! ### Decoding: words written out from R121 and R136, bit 31 first -/

theorem test_decode_build_table : decode 0b00000000000000000000000000000001#32 = .ok .buildTable := by decide
theorem test_decode_flatten_table : decode 0b00000000000000000000000000000010#32 = .ok .flattenTable := by decide
theorem test_decode_build_jump : decode 0b00000000000000000000000000000011#32 = .ok .buildJump := by decide
theorem test_decode_register_buffers :
    decode 0b00000000000000000000000000000100#32 = .ok .registerBuffers := by decide
theorem test_decode_encode_p : decode 0b00000000000000000000111100110101#32 = .ok (.encodeP 15) := by decide
theorem test_decode_encode_p_so : decode 0b00000000000000000000000101110101#32 = .ok (.encodePSo 1) := by decide
theorem test_decode_encode_p_rr : decode 0b00000000000000000000001010110101#32 = .ok (.encodePRr 2) := by decide
theorem test_decode_encode_p_so_rr : decode 0b00000000000000000000010011110101#32 = .ok (.encodePSoRr 4) := by decide
theorem test_decode_encode_g : decode 0b00000000000000000000100000000101#32 = .ok (.encodeG 8) := by decide
theorem test_decode_encode_g_so : decode 0b00000000000000000000011101000101#32 = .ok (.encodeGSo 7) := by decide
theorem test_decode_encode_g_rr : decode 0b00000000000000000000101010000101#32 = .ok (.encodeGRr 10) := by decide
theorem test_decode_encode_g_so_rr :
    decode 0b00000000000000000000000011000101#32 = .ok (.encodeGSoRr 0) := by decide

/-- 95_test_vectors.md section 2.4: the words of F06. -/
theorem test_decode_illegal :
    decode 0x00000000#32 = .error .reservedOp ∧ decode 0x00000006#32 = .error .reservedOp ∧
    decode 0x0000000F#32 = .error .reservedOp ∧ decode 0x00000011#32 = .error .modeBits ∧
    decode 0x00000101#32 = .error .modeBits ∧ decode 0x00000015#32 = .error .mixedPointers ∧
    decode 0x00000025#32 = .error .mixedPointers ∧ decode 0x00001035#32 = .error .completionRequest ∧
    decode 0x00002035#32 = .error .reservedBits ∧ decode 0x80000005#32 = .error .reservedBits := by decide

/-- The encoder writes the same words. -/
theorem test_encode : encode .registerBuffers = 0x4#32 ∧ encode (.encodeP 15) = 0xF35#32 ∧
    encode (.encodePSoRr 0) = 0xF5#32 ∧ encode (.encodeGSoRr 0) = 0xC5#32 := by decide

/-! ### The encode function: 95_test_vectors.md section 2.2 -/

/-- FLAT after BUILD_TABLE and FLATTEN_TABLE with TT1. -/
abbrev flatTT1 : List Word := flatten Config.tableTT1

theorem test_encode_zero_length : encodeOut flatTT1 [] = [0xD0#8] := by decide +kernel

theorem test_encode_no_pad : encodeOut flatTT1 (List.replicate 4 0x40#8) = [0x52#8, 0x94#8, 0xAD#8] := by
  decide +kernel

theorem test_encode_one_pad : encodeOut flatTT1 (List.replicate 7 0x40#8) = [0x52#8, 0x94#8, 0xA5#8, 0x29#8, 0x5A#8] := by
  decide +kernel

theorem test_encode_mixed : encodeOut flatTT1 [0x00#8, 0x40#8, 0xFF#8] = [0x00#8, 0x57#8, 0xFF#8, 0x40#8] := by
  decide +kernel

theorem test_encode_symbols : encodeOut flatTT1 [0x41#8] = [0x40#8, 0xD0#8] ∧ encodeOut flatTT1 [0xCF#8] = [0xE6#8, 0xD0#8] ∧
    encodeOut flatTT1 [0xD2#8] = [0xE9#8, 0x68#8] ∧ encodeOut flatTT1 [0x48#8, 0x69#8] = [0x47#8, 0x70#8, 0xD0#8] := by
  decide +kernel

theorem test_dec : refDecode Config.tableTT1 [0x57#8, 0xFF#8, 0x40#8] = some [0x40#8, 0xFF#8] ∧
    refDecode Config.tableTT1 [0xD0#8] = some [] := by decide +kernel

theorem test_bound : Config.reference.bound 0 = 1 ∧ Config.reference.bound 1 = 3 ∧ Config.reference.bound 8 = 10 ∧
    Config.reference.bound 256 = 289 := by decide +kernel

/-- 95_test_vectors.md section 2.3: the reference datapath after TERM and after FLUSH. -/
theorem test_datapath_trace :
    ((Engine.symLoop flatTT1 3
      (Engine.start ⟨.encodeP 0, 0x1000#32, 0x2000#32, 0#32, 3#32, 0#32⟩
        ⟨[(0x1000, 0x40#8), (0x1001, 0x40#8), (0x1002, 0x40#8)]⟩)).termStep flatTT1).dp.acc = 0x000294AD#32 ∧
    (Engine.run flatTT1 ⟨.encodeP 0, 0x1000#32, 0x2000#32, 0#32, 3#32, 0#32⟩
        ⟨[(0x1000, 0x40#8), (0x1001, 0x40#8), (0x1002, 0x40#8)]⟩).mem.readBytes 0x2000 4 =
      [0x52#8, 0x95#8, 0xA0#8, 0x00#8] := by decide +kernel

/-! ### Small machines -/

/-- The reference instance with `n` contexts, the memory `m` and the steps `es`. -/
abbrev base (n : Nat) (m : Memory) (es : List Event) : State :=
  State.powerOn Config.reference n m es

/-- The same once initialised and registered to (0x1000, 0x2000). -/
abbrev ready (n : Nat) (m : Memory) (es : List Event) : State :=
  { base n m es with
    table := Config.tableTT1
    flat := flatTT1
    jump := List.replicate 20 0#8
    tableBuilt := true
    flatBuilt := true
    jumpBuilt := true
    regInBase := 0x1000#32
    regOutBase := 0x2000#32
    regValid := true }

/-- The arguments of context `c`, all written. -/
abbrev args (s : State) (c : Nat) (src dst doff len soff : Word) : State :=
  s.setCtx c
    (((((s.ctx c).writeArg .src src |>.writeArg .dst dst) |>.writeArg .doff doff) |>.writeArg .len len) |>.writeArg .soff
      soff)

/-- A command in flight in context `c`. -/
abbrev inFlight (s : State) (c : Nat) (l : Latch) : State := s.issue c l

/-- The latch of 95_test_vectors.md section 2.8 row 1. -/
abbrev p0 : Latch := ⟨.encodeP 0, 0x1000#32, 0x2000#32, 0#32, 1#32, 0#32⟩

/-- What a test looks at in the next state. -/
abbrev after {α : Type} (r : Result) (f : State → α) : Option α :=
  match r with
  | .next t => some (f t)
  | .fault _ => none
  | .refused _ => none

/-- The fault a step ends in. -/
abbrev faultOf (r : Result) : Option Fault :=
  match r with
  | .next _ => none
  | .fault f => some f
  | .refused _ => none

theorem next_of {r : Result} {p : State → Prop} [DecidablePred p] (h : after r (fun t => decide (p t)) = some true) :
    ∃ t, r = .next t ∧ p t := by
  cases r with
  | next t => exact ⟨t, rfl, by simpa [after] using h⟩
  | fault f => simp [after] at h
  | refused x => simp [after] at h

/-- Eight bytes FF at 0x1003, the tight case of section 2.2: OUT is nine FF and D0, with no tail. -/
abbrev tight : Memory := ⟨(List.range 8).map fun i => (0x1003 + i, 0xFF#8)⟩

abbrev tightOut : List Byte := List.replicate 9 0xFF#8 ++ [0xD0#8, 0x00#8]

/-- The Perform of an ENCODE of those bytes to 0x2005; what it leaves at 0x2005, RES_LEN and RES_OUT_START. -/
abbrev performTight (i : Instr) : Option (List Byte × Word × Word) :=
  after
    (exec i
      { inFlight (ready 1 tight []) 0 ⟨i, 0x1000#32, 0x2000#32, 5#32, 8#32, 3#32⟩ with turn := .perform 0 })
    fun t => (t.mem.readBytes 0x2005 11, (t.ctx 0).resLen, (t.ctx 0).resOutStart)

theorem test_perform_encode_p : performTight (.encodeP 0) = some (tightOut, 10#32, 5#32) := by decide +kernel
theorem test_perform_encode_p_so : performTight (.encodePSo 0) = some (tightOut, 10#32, 5#32) := by decide +kernel
theorem test_perform_encode_p_rr : performTight (.encodePRr 0) = some (tightOut, 10#32, 5#32) := by decide +kernel
theorem test_perform_encode_p_so_rr : performTight (.encodePSoRr 0) = some (tightOut, 10#32, 5#32) := by decide +kernel
theorem test_perform_encode_g : performTight (.encodeG 0) = some (tightOut, 10#32, 5#32) := by decide +kernel
theorem test_perform_encode_g_so : performTight (.encodeGSo 0) = some (tightOut, 10#32, 5#32) := by decide +kernel
theorem test_perform_encode_g_rr : performTight (.encodeGRr 0) = some (tightOut, 10#32, 5#32) := by decide +kernel
theorem test_perform_encode_g_so_rr : performTight (.encodeGSoRr 0) = some (tightOut, 10#32, 5#32) := by decide +kernel

/-- What the issue of an ENCODE in context 1 latches: the pointers, the offset, and STATUS. ARG_SRC and ARG_DST are
0x1200 and 0x2200, the slot 0x1000 and 0x2000, ARG_SOFF 3. -/
abbrev issueLatch (i : Instr) : Option (Addr × Addr × Word × Word) :=
  after (exec i { args (ready 2 tight []) 1 0x1200#32 0x2200#32 5#32 8#32 3#32 with turn := .issue 1 })
    fun t => ((t.ctx 1).latch.sbase, (t.ctx 1).latch.dbase, (t.ctx 1).latch.soff, (t.ctx 1).status)

theorem test_issue_encode_p : issueLatch (.encodeP 0) = some (0x1200#32, 0x2200#32, 0#32, 0x51#32) := by decide +kernel
theorem test_issue_encode_p_so :
    issueLatch (.encodePSo 0) = some (0x1200#32, 0x2200#32, 3#32, 0x51#32) := by decide +kernel
theorem test_issue_encode_p_rr :
    issueLatch (.encodePRr 0) = some (0x1200#32, 0x2200#32, 0#32, 0x51#32) := by decide +kernel
theorem test_issue_encode_p_so_rr :
    issueLatch (.encodePSoRr 0) = some (0x1200#32, 0x2200#32, 3#32, 0x51#32) := by decide +kernel
theorem test_issue_encode_g : issueLatch (.encodeG 0) = some (0x1000#32, 0x2000#32, 0#32, 0x51#32) := by decide +kernel
theorem test_issue_encode_g_so :
    issueLatch (.encodeGSo 0) = some (0x1000#32, 0x2000#32, 3#32, 0x51#32) := by decide +kernel
theorem test_issue_encode_g_rr :
    issueLatch (.encodeGRr 0) = some (0x1000#32, 0x2000#32, 0#32, 0x51#32) := by decide +kernel
theorem test_issue_encode_g_so_rr :
    issueLatch (.encodeGSoRr 0) = some (0x1000#32, 0x2000#32, 3#32, 0x51#32) := by decide +kernel

/-- 95_test_vectors.md section 2.6: STATUS 0x11 after the issue, 0x12 and GSTATUS 0x01 after the Perform. -/
theorem test_build_table :
    after (step (base 1 Memory.empty [.regWrite 0x100 32 1#32])) (fun t => (t.ctx 0).status) = some 0x11#32 ∧
    after (exec .buildTable { inFlight (base 1 Memory.empty []) 0 (buildLatch .buildTable) with turn := .perform 0 })
      (fun t => ((t.ctx 0).status, t.gstatus)) = some (0x12#32, 0x01#32) := by decide +kernel

/-- Section 2.6: F09 after reset; STATUS 0x22 and GSTATUS 0x03 after BUILD_TABLE and FLATTEN_TABLE. -/
theorem test_flatten_table :
    faultOf (step (State.reset.withFetchWord 32 2)) = some (.flattenBeforeBuild 0) ∧
    after
      (exec .flattenTable
        { inFlight { base 1 Memory.empty [] with table := Config.tableTT1, tableBuilt := true } 0
            (buildLatch .flattenTable) with turn := .perform 0 })
      (fun t => ((t.ctx 0).status, t.gstatus, t.flat.length)) = some (0x22#32, 0x03#32, 514) := by decide +kernel

/-- Section 2.6: STATUS 0x32 and GSTATUS 0x04 after BUILD_JUMP alone. -/
theorem test_build_jump :
    after (exec .buildJump { inFlight (base 1 Memory.empty []) 0 (buildLatch .buildJump) with turn := .perform 0 })
      (fun t => ((t.ctx 0).status, t.gstatus)) = some (0x32#32, 0x04#32) := by decide +kernel

/-- Section 2.7: GSTATUS 0x1F and the slot; F12 with ARG_DST unwritten. -/
theorem test_register_buffers :
    after
      (exec .registerBuffers
        { inFlight (ready 1 Memory.empty []) 0 ⟨.registerBuffers, 0x5000#32, 0x2000#32, 0#32, 0#32, 0#32⟩ with
          turn := .perform 0 })
      (fun t => (t.gstatus, t.regInBase, t.regOutBase)) = some (0x1F#32, 0x5000#32, 0x2000#32) ∧
    faultOf (exec .registerBuffers (State.writeArg (base 1 Memory.empty []) 0 .src 0x1000#32)) =
      some (.unwrittenOperand 0 .dst) := by decide +kernel

/-- Section 2.5: TBL[0], TBL[64], TBL[255], TBL[256] and CONFIG. -/
theorem test_register_reads :
    (ready 1 Memory.empty []).readReg (.tbl 0) = .value 0x00080000#32 ∧
    (ready 1 Memory.empty []).readReg (.tbl 64) = .value 0x0005000A#32 ∧
    (ready 1 Memory.empty []).readReg (.tbl 255) = .value 0x000901FF#32 ∧
    (ready 1 Memory.empty []).readReg (.tbl 256) = .value 0x0004000D#32 ∧
    (ready 1 Memory.empty []).readReg .config = .value 0x00100901#32 := by decide +kernel

/-- Section 2.5: the registers at the window's offsets, and the unmapped ones, with one context. -/
theorem test_window : regAt 1 0x900 = some (.tbl 64) ∧ regAt 1 0xC00 = some (.tbl 256) ∧
    regAt 1 0x110 = some (.arg 0 .len) ∧ regAt 1 0x124 = some (.resOutStart 0) ∧ regAt 2 0x158 = some (.status 1) ∧
    regAt 1 0x014 = none ∧ regAt 1 0x128 = none ∧ regAt 1 0x140 = none ∧ regAt 1 0x500 = none ∧
    regAt 1 0xC04 = none := by decide

/-- Section 2.9: F13, F14, F15 and its nearest accepted input, F10, F11. -/
theorem test_encode_faults :
    faultOf (exec (.encodeP 0) (args (ready 1 tight []) 0 0x1000#32 0x2000#32 0#32 0xFFFFFFFF#32 0#32)) =
      some (.negativeOperand 0 .len) ∧
    faultOf (exec (.encodeP 0) (args (ready 1 tight []) 0 0x1000#32 0xFFFFFFFF#32 1#32 0#32 0#32)) =
      some (.addressOverflow 0) ∧
    faultOf (exec (.encodeP 0) (args (ready 1 tight []) 0 0x1000#32 0xFFFFFFFF#32 0#32 0#32 0#32)) = none ∧
    faultOf (exec (.encodePSo 0) (args (ready 1 tight []) 0 0xFFFFFFFF#32 0x2000#32 0#32 1#32 1#32)) =
      some (.addressOverflow 0) ∧
    faultOf (exec (.encodeP 0) (args (ready 1 tight []) 0 0x2002#32 0x2000#32 0#32 1#32 0#32)) = some (.overlap 0) ∧
    faultOf (exec (.encodeP 0) (args (ready 1 tight []) 0 0x2003#32 0x2000#32 0#32 1#32 0#32)) = none ∧
    faultOf (exec (.encodeP 0) (args (base 1 tight []) 0 0x1000#32 0x2000#32 0#32 1#32 0#32)) =
      some (.notInitialised 0) ∧
    faultOf (exec (.encodeG 0) { args (ready 1 tight []) 0 0#32 0#32 0#32 1#32 0#32 with regValid := false }) =
      some (.noRegistration 0) := by decide +kernel

/-- Section 2.9: F16 with two contexts, and the shared source that is allowed; F17; F18. -/
theorem test_races :
    faultOf
      (exec (.encodeP 0)
        { args (inFlight (ready 2 tight []) 0 p0) 1 0x2002#32 0x3000#32 0#32 1#32 0#32 with turn := .issue 1 }) =
      some (.footprintRace 1 0) ∧
    faultOf
      (exec (.encodeP 0)
        { args (inFlight (ready 2 tight []) 0 p0) 1 0x1000#32 0x3000#32 0#32 1#32 0#32 with turn := .issue 1 }) = none ∧
    faultOf
      (exec (.encodeP 0)
        { inFlight { ready 1 tight [] with cfg := { Config.reference with allowed := [⟨0x1000, 1⟩, ⟨0x2000, 2⟩] } } 0 p0 with
          turn := .perform 0 }) = some (.outOfBounds 0 0x2002) ∧
    faultOf (memWrite 0x1000#32 0x41#8 (inFlight (ready 1 tight []) 0 p0)) = some (.hostRace 0x1000#32) := by
  decide +kernel

/-! ### Witnesses: for each obligation with hypotheses, an input that meets them all -/

theorem reference_wf : Config.reference.wf = true := by decide +kernel

theorem bound_one : Config.reference.bound 1 = 3 := by decide +kernel

/-- A machine of the reference configuration is live. -/
theorem live_of {s : State} (hn : nCtxWf s.nCtx = true) (hc : s.cfg = Config.reference) (hf : s.fault = none) : s.live :=
  ⟨hn, by rw [hc]; exact reference_wf, hf⟩

theorem witness_DecodeOfEncode : Instr.wf .registerBuffers = true ∧ Instr.wf (.encodeP 0) = true ∧
    Instr.wf (.encodeGSoRr 15) = true := by decide

theorem witness_EncodeOfDecode : decode 0xF35#32 = .ok (.encodeP 15) := by decide

/-- One word, on a boundary, for each clause. -/
theorem witness_IllegalWordFaults :
    (base 16 Memory.empty [.regWrite (0x100 + 0x40 * 15) 32 0x2005#32]).live ∧
    15 < (base 16 Memory.empty []).nCtx ∧ ((base 16 Memory.empty []).ctx 15).busy = false ∧
    (0x2005#32).extractLsb' 13 19 ≠ 0#19 ∧ (0x80000005#32).extractLsb' 13 19 ≠ 0#19 ∧
    (0x1035#32).getLsbD 12 = true ∧ (0x0#32).extractLsb' 0 4 = 0x0#4 ∧ 0x6#4 ≤ (0x6#32).extractLsb' 0 4 ∧
    0x6#4 ≤ (0xF#32).extractLsb' 0 4 ∧
    ((0x11#32).extractLsb' 0 4 ≠ 0x5#4 ∧ (0x11#32).extractLsb' 4 28 ≠ 0#28) ∧
    ((0x15#32).extractLsb' 0 4 = 0x5#4 ∧ (0x15#32).getLsbD 4 ≠ (0x15#32).getLsbD 5) ∧
    ((0x25#32).extractLsb' 0 4 = 0x5#4 ∧ (0x25#32).getLsbD 4 ≠ (0x25#32).getLsbD 5) := by
  refine ⟨live_of ?_ rfl rfl, ?_⟩ <;> decide

theorem witness_MisalignedAccessFaults :
    (base 1 Memory.empty [.regRead 0 16]).live ∧ (16 ≠ 32 ∨ 0 % 4 ≠ 0) ∧
    (base 1 Memory.empty [.regWrite 2 32 0#32]).live ∧ (32 ≠ 32 ∨ 2 % 4 ≠ 0) := by
  exact ⟨live_of (by decide) rfl rfl, by decide, live_of (by decide) rfl rfl, by decide⟩

/-- Each clause at both ends of its range, with the least and the greatest number of contexts. -/
theorem witness_UnmappedAccessFaults :
    (base 1 Memory.empty [.regRead 0x014 32]).live ∧ 0x014 % 4 = 0 ∧ (0x014 ≤ 0x014 ∧ 0x014 < 0x100) ∧
    (0x014 ≤ 0x0FC ∧ 0x0FC < 0x100) ∧
    (0x100 + 0x40 * (base 1 Memory.empty []).nCtx ≤ 0x140 ∧ 0x140 < 0x800) ∧
    (base 16 Memory.empty [.regWrite 0x7FC 32 0#32]).live ∧
    (0x100 + 0x40 * (base 16 Memory.empty []).nCtx ≤ 0x500 ∧ 0x500 < 0x800) ∧
    (0x100 + 0x40 * (base 16 Memory.empty []).nCtx ≤ 0x7FC ∧ 0x7FC < 0x800) ∧ 0xC04 ≤ 0xC04 ∧
    (∃ c < (base 1 Memory.empty []).nCtx, 0x100 + 0x40 * c + 0x28 ≤ 0x128 ∧ 0x128 ≤ 0x100 + 0x40 * c + 0x3C) ∧
    (∃ c < (base 16 Memory.empty []).nCtx, 0x100 + 0x40 * c + 0x28 ≤ 0x4FC ∧ 0x4FC ≤ 0x100 + 0x40 * c + 0x3C) :=
  ⟨live_of (by decide) rfl rfl, by decide, by decide, by decide, by decide, live_of (by decide) rfl rfl, by decide,
    by decide, by decide, ⟨0, by decide⟩, ⟨15, by decide⟩⟩

theorem witness_ReadOnlyWriteFaults :
    (base 1 Memory.empty [.regWrite 0x000 32 0#32]).live ∧ (∃ sym ≤ 256, 0x800 = 0x800 + 4 * sym) ∧
    (∃ sym ≤ 256, 0xC00 = 0x800 + 4 * sym) ∧ (base 16 Memory.empty [.regWrite 0x4E4 32 0#32]).live ∧
    ∃ c < (base 16 Memory.empty []).nCtx, 0x4E4 = 0x100 + 0x40 * c + 0x24 :=
  ⟨live_of (by decide) rfl rfl, ⟨0, by decide⟩, ⟨256, by decide⟩, live_of (by decide) rfl rfl, ⟨15, by decide⟩⟩

/-- Context 1 of two is busy: an argument write and a CMD write to it stand next. -/
theorem witness_busy_context :
    (inFlight (ready 2 tight [.regWrite (Reg.arg 1 .soff).offset 32 0#32]) 1 p0).live ∧
    (inFlight (ready 2 tight [.regWrite (0x100 + 0x40 * 1) 32 1#32]) 1 p0).live ∧
    1 < (inFlight (ready 2 tight []) 1 p0).nCtx ∧ ((inFlight (ready 2 tight []) 1 p0).ctx 1).busy = true ∧
    (Reg.arg 1 .soff).offset = 0x154 :=
  ⟨live_of (by decide) rfl rfl, live_of (by decide) rfl rfl, by decide, by decide, by decide⟩

/-- For ArgWriteWhileBusyFaults. -/
theorem witness_ArgWriteWhileBusyFaults : ∃ (s : State) (es : List Event) (c : Nat) (r : ArgReg) (v : Word), s.live ∧
    c < s.nCtx ∧ (s.ctx c).busy = true ∧ s.schedule = .regWrite (Reg.arg c r).offset 32 v :: es :=
  ⟨inFlight (ready 2 tight [.regWrite (Reg.arg 1 .soff).offset 32 0#32]) 1 p0, [], 1, .soff, 0#32,
    live_of (by decide) rfl rfl, by decide, by decide, rfl⟩

theorem witness_CommandWhileBusyFaults : ∃ (s : State) (es : List Event) (c : Nat) (w : Word), s.live ∧ c < s.nCtx ∧
    (s.ctx c).busy = true ∧ s.schedule = .regWrite (0x100 + 0x40 * c) 32 w :: es :=
  ⟨inFlight (ready 2 tight [.regWrite (0x100 + 0x40 * 1) 32 1#32]) 1 p0, [], 1, 1#32, live_of (by decide) rfl rfl,
    by decide, by decide, rfl⟩

theorem witness_ArgWriteStores : ∃ (s : State) (es : List Event) (c : Nat) (r : ArgReg) (v : Word), s.live ∧
    c < s.nCtx ∧ (s.ctx c).busy = false ∧ s.schedule = .regWrite (Reg.arg c r).offset 32 v :: es :=
  ⟨base 16 Memory.empty [.regWrite (Reg.arg 15 .len).offset 32 7#32], [], 15, .len, 7#32, live_of (by decide) rfl rfl,
    by decide, by decide, rfl⟩

/-- The last register of each kind exists. -/
theorem witness_RegisterReads : (base 16 Memory.empty [.regRead (Reg.tbl 256).offset 32]).live ∧
    (Reg.tbl 256).existsIn 16 ∧ (Reg.tbl 256).offset = 0xC00 ∧ (Reg.resOutStart 15).existsIn 16 ∧
    (Reg.resOutStart 15).offset = 0x4E4 ∧ (Reg.arg 15 .soff).existsIn 16 ∧ Reg.existsIn 16 .id := by
  refine ⟨live_of (by decide) rfl rfl, ?_⟩
  simp only [Reg.existsIn, Reg.offset, ctxBase]
  decide

theorem witness_CommandWriteRunsDecoded : ∃ (s : State) (es : List Event) (c : Nat) (w : Word) (i : Instr), s.live ∧
    c < s.nCtx ∧ (s.ctx c).busy = false ∧ s.schedule = .regWrite (0x100 + 0x40 * c) 32 w :: es ∧ decode w = .ok i :=
  ⟨args (ready 16 tight [.regWrite (0x100 + 0x40 * 15) 32 0xF5#32]) 15 0x1000#32 0x2000#32 0#32 8#32 3#32, [], 15, 0xF5#32,
    .encodePSoRr 0, live_of (by decide) rfl rfl, by decide, by decide, rfl, by decide⟩

theorem witness_PerformRunsLatched :
    (∃ (s : State) (es : List Event) (c : Nat), s.live ∧ (s.ctx c).busy = true ∧ s.schedule = .perform c :: es) ∧
    ∃ (s : State) (es : List Event) (c : Nat), s.live ∧ (s.ctx c).busy = true ∧ s.schedule = [] ∧ es = [] ∧
      ∀ c' < c, (s.ctx c').busy = false :=
  ⟨⟨inFlight (ready 2 tight [.perform 1]) 1 p0, [], 1, live_of (by decide) rfl rfl, by decide, rfl⟩,
    ⟨inFlight (ready 2 tight []) 1 p0, [], 1, live_of (by decide) rfl rfl, by decide, rfl, rfl, by decide⟩⟩

theorem witness_IdlePerformRefused : ∃ (s : State) (es : List Event) (c : Nat), s.live ∧ (s.ctx c).busy = false ∧
    s.schedule = .perform c :: es :=
  ⟨base 1 Memory.empty [.perform 0], [], 0, live_of (by decide) rfl rfl, by decide, rfl⟩

theorem witness_IllFormedConfigRefused : (base 0 Memory.empty []).nCtx < 1 ∧ 16 < (base 17 Memory.empty []).nCtx ∧
    ({ base 1 Memory.empty [] with cfg := { Config.reference with codeTable := [] } } : State).cfg.wf = false := by
  decide +kernel

theorem witness_EngineDrains : (inFlight (inFlight (ready 2 tight []) 0 p0) 1 (buildLatch .buildJump)).live ∧
    (inFlight (inFlight (ready 2 tight []) 0 p0) 1 (buildLatch .buildJump)).schedule = [] :=
  ⟨live_of (by decide) rfl rfl, rfl⟩

/-! The commands: each clause of the four build and registration statements, with another context busy or idle. -/

theorem busyElsewhere_of {s : State} {c c' : Nat} {p : Instr → Prop} (h : c' < s.nCtx) (hne : c' ≠ c)
    (hb : (s.ctx c').busy = true) (hp : p (s.ctx c').latch.cmd) : s.busyElsewhere c p :=
  ⟨c', h, hne, hb, hp⟩

/-- An idle machine has nothing in flight elsewhere. -/
theorem quiet_of {s : State} {c : Nat} {p : Instr → Prop} (h : ∀ c' < s.nCtx, (s.ctx c').busy = false) :
    ¬ s.busyElsewhere c p := by
  rintro ⟨c', h1, -, h2, -⟩
  rw [h c' h1] at h2
  cases h2

theorem witness_BuildTableCommand :
    State.busyElsewhere (inFlight (ready 2 tight []) 1 p0) 0 (fun i => i.isEncode = true ∨ i = .flattenTable) ∧
    State.busyElsewhere (inFlight (ready 2 tight []) 1 (buildLatch .flattenTable)) 0
      (fun i => i.isEncode = true ∨ i = .flattenTable) ∧
    ¬ State.busyElsewhere (ready 16 tight []) 15 (fun i => i.isEncode = true ∨ i = .flattenTable) ∧
    (ready 1 tight []).turn = .issue 0 ∧ ({ ready 1 tight [] with turn := .perform 0 } : State).turn = .perform 0 :=
  ⟨busyElsewhere_of (c' := 1) (by decide) (by decide) (by decide) (.inl rfl),
    busyElsewhere_of (c' := 1) (by decide) (by decide) (by decide) (.inr rfl), quiet_of (by decide), rfl, rfl⟩

theorem witness_FlattenTableCommand :
    State.busyElsewhere (inFlight (ready 2 tight []) 1 (buildLatch .buildTable)) 0
      (fun i => i.isEncode = true ∨ i = .buildTable) ∧
    ¬ State.busyElsewhere (ready 16 tight []) 15 (fun i => i.isEncode = true ∨ i = .buildTable) ∧
    (ready 16 tight []).tableBuilt = true ∧ (base 16 tight []).tableBuilt = false ∧
    ¬ State.busyElsewhere (base 16 tight []) 15 (fun i => i.isEncode = true ∨ i = .buildTable) ∧
    (base 1 tight []).turn = .issue 0 :=
  ⟨busyElsewhere_of (c' := 1) (by decide) (by decide) (by decide) (.inr rfl), quiet_of (by decide), rfl, rfl,
    quiet_of (by decide), rfl⟩

theorem witness_BuildJumpCommand :
    State.busyElsewhere (inFlight (ready 2 tight []) 0 p0) 1 (fun i => i.isEncode = true) ∧
    ¬ State.busyElsewhere (base 1 tight []) 0 (fun i => i.isEncode = true) ∧ (base 1 tight []).turn = .issue 0 :=
  ⟨busyElsewhere_of (c' := 0) (by decide) (by decide) (by decide) rfl, quiet_of (by decide), rfl⟩

theorem witness_RegisterBuffersCommand :
    State.busyElsewhere (inFlight (ready 2 tight []) 1 { p0 with cmd := .encodeG 0 }) 0 (fun i => i.isEncodeG = true) ∧
    ¬ State.busyElsewhere (base 1 tight []) 0 (fun i => i.isEncodeG = true) ∧
    ((base 1 tight []).ctx 0).written.src = false ∧
    ¬ State.busyElsewhere (args (base 1 tight []) 0 0#32 0#32 0#32 0#32 0#32) 0 (fun i => i.isEncodeG = true) ∧
    ((args (base 1 tight []) 0 0#32 0#32 0#32 0#32 0#32).ctx 0).written.src = true ∧
    ((args (base 1 tight []) 0 0#32 0#32 0#32 0#32 0#32).ctx 0).written.dst = true ∧
    (args (base 1 tight []) 0 0#32 0#32 0#32 0#32 0#32).turn = .issue 0 :=
  ⟨busyElsewhere_of (c' := 1) (by decide) (by decide) (by decide) rfl, quiet_of (by decide), by decide,
    quiet_of (by decide), by decide, by decide, rfl⟩

theorem ready_tablesSound (n : Nat) (m : Memory) (es : List Event) : TablesSound (ready n m es) where
  table := fun _ => rfl
  flat := fun _ => rfl
  jump := fun _ => rfl
  flattenLater := fun _ _ _ _ => rfl

theorem witness_RepeatedBuildChangesNothing : ∃ (s : State) (c : Nat), TablesSound s ∧ s.turn = .perform c ∧
    s.tableBuilt = true ∧ s.flatBuilt = true := by
  have h := ready_tablesSound 1 tight []
  exact ⟨{ ready 1 tight [] with turn := .perform 0 }, 0, ⟨h.1, h.2, h.3, h.4⟩, rfl, rfl, rfl⟩

/-- Context 0 has BUILD_TABLE, or REGISTER_BUFFERS, in flight and performs; or a Reset clears the built table, or the
slot. -/
theorem witness_OnlyBuildTableWritesTable :
    (∃ s t : State, s.schedule = [.perform 0] ∧ step s = .next t ∧ t.table ≠ s.table) ∧
    ∃ s t : State, s.schedule = [.reset] ∧ step s = .next t ∧ t.table ≠ s.table := by
  obtain ⟨t, h⟩ := next_of (r := step (inFlight (base 1 Memory.empty [.perform 0]) 0 (buildLatch .buildTable)))
    (p := fun t => t.table ≠ List.replicate 257 ⟨0#5, 0#16⟩) (by decide +kernel)
  obtain ⟨t', h'⟩ := next_of (r := step (ready 1 tight [.reset])) (p := fun t => t.table ≠ Config.tableTT1)
    (by decide +kernel)
  exact ⟨⟨_, t, rfl, h⟩, _, t', rfl, h'⟩

theorem witness_BuiltTablesStay : ∃ s t : State, TablesSound s ∧ step s = .next t ∧ (∀ es, s.schedule ≠ .reset :: es) ∧
    s.tableBuilt = true ∧ s.flatBuilt = true ∧ s.jumpBuilt = true := by
  obtain ⟨t, ht, -⟩ := next_of (r := step (ready 1 tight [.memRead 0x1000#32])) (p := fun _ => True) (by decide +kernel)
  exact ⟨_, t, ready_tablesSound 1 tight [.memRead 0x1000#32], ht, nofun, rfl, rfl, rfl⟩

theorem witness_RegistrationKept :
    (∃ s t : State, s.schedule = [.perform 0] ∧ step s = .next t ∧
      (t.regInBase ≠ s.regInBase ∨ t.regOutBase ≠ s.regOutBase ∨ t.regValid ≠ s.regValid)) ∧
    ∃ s t : State, s.schedule = [.reset] ∧ step s = .next t ∧
      (t.regInBase ≠ s.regInBase ∨ t.regOutBase ≠ s.regOutBase ∨ t.regValid ≠ s.regValid) := by
  obtain ⟨t, h⟩ := next_of
    (r := step (inFlight (base 1 Memory.empty [.perform 0]) 0
      ⟨.registerBuffers, 0x1000#32, 0x2000#32, 0#32, 0#32, 0#32⟩))
    (p := fun t => t.regInBase ≠ 0#32 ∨ t.regOutBase ≠ 0#32 ∨ t.regValid ≠ false) (by decide +kernel)
  obtain ⟨t', h'⟩ := next_of (r := step (ready 1 tight [.reset]))
    (p := fun t => t.regInBase ≠ 0x1000#32 ∨ t.regOutBase ≠ 0x2000#32 ∨ t.regValid ≠ true) (by decide +kernel)
  exact ⟨⟨_, t, rfl, h⟩, _, t', rfl, h'⟩

/-- An ENCODE.P in flight performs, and one that is issued out of range faults. -/
theorem witness_ExplicitEncodeIgnoresRegistration :
    (∃ t, exec (encodeForm true false true 0) (args (ready 1 tight []) 0 0x1000#32 0x2000#32 0#32 1#32 0#32) = .next t) ∧
    ∃ f, exec (encodeForm true false true 0) (base 1 tight []) = .fault f := by
  refine ⟨?_, .notInitialised 0, rfl⟩
  obtain ⟨t, ht, -⟩ := next_of (r := exec (encodeForm true false true 0)
    (args (ready 1 tight []) 0 0x1000#32 0x2000#32 0#32 1#32 0#32)) (p := fun _ => True) (by decide +kernel)
  exact ⟨t, ht⟩

/-! The configuration: the reference one is well-formed, and no length is below 4. -/

theorem witness_wf : ∃ cfg : Config, cfg.wf = true :=
  ⟨Config.reference, reference_wf⟩

theorem witness_OutputLengthBounds : Config.reference.wf = true ∧
    ∀ sym ≤ 256, 4 ≤ (codeAt Config.reference.codeTable sym).len.toNat := by
  have key : Config.tableTT1.all (fun c => decide (4 ≤ c.len.toNat)) = true := by decide +kernel
  have len : Config.tableTT1.length = 257 := by decide +kernel
  refine ⟨reference_wf, fun sym h => ?_⟩
  have hs : sym < Config.tableTT1.length := by omega
  have := List.all_eq_true.mp key _ (List.getElem_mem hs)
  rw [show codeAt Config.reference.codeTable sym = Config.tableTT1[sym] from List.getD_eq_getElem _ _ hs]
  exact of_decide_eq_true this

theorem witness_OutputDeterminesInput : Config.reference.wf = true ∧
    encodeOut (flatten Config.reference.codeTable) [64#8] = encodeOut (flatten Config.reference.codeTable) [64#8] :=
  ⟨reference_wf, rfl⟩

theorem p0_disjoint : ¬ Region.meets p0.srcFP (p0.dstFP Config.reference) := by
  rw [← Region.overlaps_iff]
  decide +kernel

/-- No byte of the destination ends past 2^32: DstFP is 0xFFFFFFFD..0xFFFFFFFF, the last three bytes. -/
theorem witness_DatapathRefinesEncode : ∃ (cfg : Config) (l : Latch) (m : Memory), cfg.wf = true ∧ m.wf = true ∧
    l.sbase.toNat + l.soff.toNat + l.len.toNat ≤ 2 ^ 32 ∧
    l.dbase.toNat + l.doff.toNat + cfg.bound l.len.toNat ≤ 2 ^ 32 ∧ ¬ Region.meets l.srcFP (l.dstFP cfg) := by
  refine ⟨Config.reference, ⟨.encodeP 0, 0xFFFFFFF0#32, 0xFFFFFFF0#32, 0xD#32, 1#32, 3#32⟩, tight, reference_wf, by decide,
    by decide, ?_, ?_⟩
  · decide +kernel
  · rw [← Region.overlaps_iff]; decide +kernel

/-! ENCODE: the setup of section 2.8 row 1, for both kinds of form. -/

/-- Context 0 of one, idle, its arguments those of p0. -/
abbrev setup : State := args (ready 1 tight []) 0 0x1000#32 0x2000#32 0#32 1#32 0#32

theorem setup_allowed (p so rr : Bool) : EncodeAllowed setup 0 ⟨p, so, rr⟩ where
  noBuild := quiet_of (by decide)
  noRegister := fun _ => quiet_of (by decide)
  ready := ⟨rfl, rfl, rfl⟩
  registered := fun _ => rfl

theorem witness_EncodeIssueCompletes (p so rr : Bool) : setup.turn = .issue 0 ∧ EncodeAllowed setup 0 ⟨p, so, rr⟩ ∧
    EncodeOperandsOk setup 0 ⟨p, so, rr⟩
      { cmd := encodeForm p so rr 0
        sbase := if p then (setup.ctx 0).argSrc else setup.regInBase
        dbase := if p then (setup.ctx 0).argDst else setup.regOutBase
        doff := (setup.ctx 0).argDoff
        len := (setup.ctx 0).argLen
        soff := if so then (setup.ctx 0).argSoff else 0#32 } := by
  refine ⟨rfl, setup_allowed p so rr, ?_⟩
  cases p <;> cases so <;> cases rr <;>
    exact ⟨fun r _ => by cases r <;> rfl, by decide, by decide, by decide, by decide, by decide +kernel,
      by rw [← Region.overlaps_iff]; decide +kernel,
      fun c' h hne => absurd (Nat.lt_one_iff.mp (show c' < 1 from h)) hne⟩

/-- p0 is in flight in context 1 of two; context 0 asks for an ENCODE.P.SO with these arguments. -/
abbrev asked (src dst doff len soff : Word) : State :=
  args (inFlight (ready 2 tight []) 1 p0) 0 src dst doff len soff

/-- The latch it would get. -/
abbrev askedLatch (src dst doff len soff : Word) : Latch :=
  (asked src dst doff len soff).encodeLatch (encodeForm true true false 0) ⟨true, true, false⟩ 0

theorem asked_allowed (src dst doff len soff : Word) :
    EncodeAllowed (asked src dst doff len soff) 0 ⟨true, true, false⟩ where
  noBuild := by
    rintro ⟨c', h1, h2, -, h4⟩
    have h1' : c' < 2 := h1
    obtain rfl : c' = 1 := by omega
    rcases h4 with h | h | h <;> cases h
  noRegister := nofun
  ready := ⟨rfl, rfl, rfl⟩
  registered := fun _ => rfl

theorem asked_written (src dst doff len soff : Word) :
    ∀ r ∈ Mode.needs ⟨true, true, false⟩, ((asked src dst doff len soff).ctx 0).argWritten r = true :=
  fun r _ => by cases r <;> rfl

/-- The clauses of EncodeIssueFaults on the machine: a build elsewhere; a registration elsewhere; not ready; no
registration; an operand never written. -/
theorem witness_EncodeIssueFaults_machine :
    State.busyElsewhere (inFlight (ready 2 tight []) 1 (buildLatch .buildJump)) 0
      (fun i => i = .buildTable ∨ i = .flattenTable ∨ i = .buildJump) ∧
    State.busyElsewhere (inFlight (ready 2 tight []) 1 (buildLatch .registerBuffers)) 0 (fun i => i = .registerBuffers) ∧
    ¬ State.busyElsewhere (inFlight (ready 2 tight []) 1 (buildLatch .registerBuffers)) 0
      (fun i => i = .buildTable ∨ i = .flattenTable ∨ i = .buildJump) ∧
    (base 1 tight []).jumpBuilt = false ∧
    ¬ State.busyElsewhere (base 1 tight []) 0 (fun i => i = .buildTable ∨ i = .flattenTable ∨ i = .buildJump) ∧
    (ready 1 tight []).jumpBuilt = true ∧ ({ ready 1 tight [] with regValid := false } : State).regValid = false ∧
    (∃ r ∈ Mode.needs ⟨true, true, false⟩, ((ready 1 tight []).ctx 0).argWritten r = false) ∧
    EncodeAllowed (asked 0#32 0#32 0#32 0#32 0#32) 0 ⟨true, true, false⟩ := by
  refine ⟨busyElsewhere_of (c' := 1) (by decide) (by decide) (by decide) (.inr (.inr rfl)),
    busyElsewhere_of (c' := 1) (by decide) (by decide) (by decide) rfl, ?_, rfl, quiet_of (by decide), rfl, rfl, by decide,
    asked_allowed _ _ _ _ _⟩
  rintro ⟨c', h1, h2, -, h4⟩
  have h1' : c' < 2 := h1
  obtain rfl : c' = 1 := by omega
  rcases h4 with h | h | h <;> cases h

/-- The clauses of EncodeIssueFaults on the operands (95_test_vectors.md section 2.9), each with `asked_allowed` and
`asked_written`: DOFF = -2^31, LEN = -1, SOFF = -1; SrcFP and DstFP one byte past 2^32, and DstFP that ends there;
an overlap in one byte; a conflict in one byte. -/
theorem witness_EncodeIssueFaults_operands :
    (askedLatch 0x1000#32 0x3000#32 0x80000000#32 1#32 0#32).doff.toInt < 0 ∧
    (askedLatch 0x1000#32 0x3000#32 0#32 0xFFFFFFFF#32 0#32).len.toInt < 0 ∧
    (askedLatch 0x1000#32 0x3000#32 0#32 1#32 0xFFFFFFFF#32).soff.toInt < 0 ∧
    2 ^ 32 < (askedLatch 0xFFFFFFFF#32 0x3000#32 0#32 1#32 1#32).srcFP.base + 1 ∧
    2 ^ 32 < (askedLatch 0x1000#32 0xFFFFFFFF#32 1#32 0#32 0#32).dbase.toNat + 1 + Config.reference.bound 0 ∧
    ¬ 2 ^ 32 < (askedLatch 0x1000#32 0xFFFFFFFF#32 0#32 0#32 0#32).dbase.toNat + 0 + Config.reference.bound 0 ∧
    Region.meets (askedLatch 0x3002#32 0x3000#32 0#32 1#32 0#32).srcFP
      ((askedLatch 0x3002#32 0x3000#32 0#32 1#32 0#32).dstFP Config.reference) ∧
    ¬ Region.meets (askedLatch 0x2002#32 0x3000#32 0#32 1#32 0#32).srcFP
      ((askedLatch 0x2002#32 0x3000#32 0#32 1#32 0#32).dstFP Config.reference) ∧
    footprintsConflict Config.reference (askedLatch 0x2002#32 0x3000#32 0#32 1#32 0#32)
      ((asked 0x2002#32 0x3000#32 0#32 1#32 0#32).ctx 1).latch := by
  rw [← Region.overlaps_iff, ← Region.overlaps_iff, ← Latch.conflicts_iff]
  decide +kernel

theorem p0_admitted : p0.admitted Config.reference := by
  rw [← Latch.firstUnadmitted_eq_none]
  decide +kernel

/-- p0 in flight in context 0, about to perform. -/
abbrev flying : State := { inFlight (ready 1 tight []) 0 p0 with turn := .perform 0 }

/-- Its Perform answers a next state, as every form. -/
theorem flying_next (p so rr : Bool) (strat : Nat) : ∃ t, exec (encodeForm p so rr strat) flying = .next t :=
  ⟨_, (exec_encodeForm_perform p so rr strat (s := flying) (c := 0) rfl).trans
    ((performEncode_next rr).mpr ⟨p0_admitted, rfl⟩)⟩

theorem witness_EncodePerformCompletes : flying.turn = .perform 0 ∧ 0 < flying.nCtx ∧ flying.cfg.wf = true ∧
    flying.mem.wf = true ∧ flying.flat = flatten flying.cfg.codeTable ∧ (flying.ctx 0).latch.admitted flying.cfg ∧
    ¬ Region.meets (flying.ctx 0).latch.srcFP ((flying.ctx 0).latch.dstFP flying.cfg) :=
  ⟨rfl, by decide, reference_wf, by decide, rfl, p0_admitted, p0_disjoint⟩

theorem witness_EncodeOutOfBoundsFaults : ∃ (s : State) (c : Nat), s.turn = .perform c ∧
    ∃ a, ((s.ctx c).latch.srcFP.contains a = true ∨ ((s.ctx c).latch.dstFP s.cfg).contains a = true) ∧
      s.cfg.admits a = false :=
  ⟨{ flying with cfg := { Config.reference with allowed := [⟨0x1000, 1⟩, ⟨0x2000, 2⟩] } }, 0, rfl, 0x2002, by decide +kernel⟩

theorem witness_strategy_report_offset : flying.turn = .perform 0 ∧ setup.turn = .issue 0 ∧ 0 < setup.nCtx ∧
    0 < flying.nCtx ∧ (setup.ctx 0).written.soff = true ∧ (setup.ctx 0).argSoff = 0#32 ∧
    (∃ t, exec (encodeForm true false false 0) flying = .next t) ∧
    (∃ t, exec (encodeForm true false false 0) setup = .next t) ∧
    ∃ f, exec (encodeForm false false false 0) { setup with regValid := false } = .fault f := by
  obtain ⟨t, ht, -⟩ := next_of (r := exec (encodeForm true false false 0) setup) (p := fun _ => True) (by decide +kernel)
  exact ⟨rfl, rfl, by decide, by decide, by decide, by decide, flying_next _ _ _ _,
    ⟨t, ht⟩, .noRegistration 0, rfl⟩

/-- Two different forms, the same input. -/
theorem witness_EncodeStateless : ∃ s s' t t' : State, s.turn = .perform 0 ∧ s'.turn = .perform 0 ∧ 0 < s.nCtx ∧
    0 < s'.nCtx ∧ s.mem.wf = true ∧ s'.mem.wf = true ∧ s.cfg.wf = true ∧ s'.cfg.wf = true ∧
    s.flat = flatten s.cfg.codeTable ∧ s'.flat = s.flat ∧ s'.cfg.codeTable = s.cfg.codeTable ∧
    (s.ctx 0).latch.len = (s'.ctx 0).latch.len ∧
    s.mem.readBytes (s.ctx 0).latch.srcFP.base (s.ctx 0).latch.len.toNat =
      s'.mem.readBytes (s'.ctx 0).latch.srcFP.base (s.ctx 0).latch.len.toNat ∧
    exec (encodeForm true false false 0) s = .next t ∧ exec (encodeForm false true true 15) s' = .next t' := by
  obtain ⟨t, ht⟩ := flying_next true false false 0
  obtain ⟨t', ht'⟩ := flying_next false true true 15
  exact ⟨flying, flying, t, t', rfl, rfl, by decide, by decide, by decide, by decide, reference_wf, reference_wf, rfl, rfl,
    rfl, rfl, rfl, ht, ht'⟩

/-- p0 in flight; a host write to its source, or to a byte outside, stands next. -/
theorem witness_HostMemoryWrite :
    (∃ (s : State) (a : Addr), s.live ∧ s.mem.wf = true ∧ s.schedule = [.memWrite a 0x41#8] ∧
      ∃ c < s.nCtx, (s.ctx c).busy = true ∧ (s.ctx c).latch.cmd.isEncode = true ∧
        ((s.ctx c).latch.srcFP.contains a.toNat = true ∨ ((s.ctx c).latch.dstFP s.cfg).contains a.toNat = true)) ∧
    ∃ (s : State) (a : Addr), s.live ∧ s.mem.wf = true ∧ s.schedule = [.memWrite a 0x41#8] ∧
      ∀ c < s.nCtx, (s.ctx c).busy = true → (s.ctx c).latch.cmd.isEncode = true →
        (s.ctx c).latch.srcFP.contains a.toNat = false ∧ ((s.ctx c).latch.dstFP s.cfg).contains a.toNat = false :=
  ⟨⟨inFlight (ready 1 tight [.memWrite 0x2002#32 0x41#8]) 0 p0, 0x2002#32, live_of (by decide) rfl rfl, by decide, rfl, 0,
      by decide +kernel⟩,
    ⟨inFlight (ready 1 tight [.memWrite 0x2003#32 0x41#8]) 0 p0, 0x2003#32, live_of (by decide) rfl rfl, by decide, rfl,
      by decide +kernel⟩⟩

theorem witness_HostMemoryRead :
    (∃ (s : State) (a : Addr), s.live ∧ s.schedule = [.memRead a] ∧
      ∃ c < s.nCtx, (s.ctx c).busy = true ∧ (s.ctx c).latch.cmd.isEncode = true ∧
        ((s.ctx c).latch.dstFP s.cfg).contains a.toNat = true) ∧
    ∃ (s : State) (a : Addr), s.live ∧ s.schedule = [.memRead a] ∧
      ∀ c < s.nCtx, (s.ctx c).busy = true → (s.ctx c).latch.cmd.isEncode = true →
        ((s.ctx c).latch.dstFP s.cfg).contains a.toNat = false :=
  ⟨⟨inFlight (ready 1 tight [.memRead 0x2000#32]) 0 p0, 0x2000#32, live_of (by decide) rfl rfl, rfl, 0,
      by decide +kernel⟩,
    ⟨inFlight (ready 1 tight [.memRead 0x1000#32]) 0 p0, 0x1000#32, live_of (by decide) rfl rfl, rfl,
      by decide +kernel⟩⟩

/-- The invariant holds with p0 in flight in context 0 of one. -/
theorem inv_inFlight (m : Memory) (hm : m.wf = true) (es : List Event) : Inv (inFlight (ready 1 m es) 0 p0) := by
  have one : ∀ c, c < (inFlight (ready 1 m es) 0 p0).nCtx → c = 0 := by
    intro c hc
    rw [State.issue_nCtx] at hc
    exact Nat.lt_one_iff.mp hc
  refine ⟨hm, ⟨fun _ => rfl, fun _ => rfl, fun _ => rfl, fun _ _ _ _ => rfl⟩, ⟨?_, ?_, ?_, ?_⟩, ⟨?_, ?_, ?_, ?_, ?_, ?_, ?_⟩⟩ <;>
    intro c hc <;> rw [one c hc]
  · exact fun h => nomatch h.2
  · exact fun _ => rfl
  · exact fun _ => rfl
  · rfl
  · exact fun _ => ⟨rfl, rfl, rfl⟩
  · exact fun _ => show p0.doff.toNat < 2 ^ 31 ∧ p0.len.toNat < 2 ^ 31 ∧ p0.soff.toNat < 2 ^ 31 by decide
  · exact fun _ => show p0.srcFP.base + p0.srcFP.size ≤ 2 ^ 32 ∧
      (p0.dstFP Config.reference).base + (p0.dstFP Config.reference).size ≤ 2 ^ 32 by decide +kernel
  · exact fun _ => p0_disjoint
  all_goals exact fun _ c' hc' hne => absurd (one c' hc') hne

/-- The Reset of `s`, which turns the first byte of p0's DstFP into the first draw. -/
theorem reset_draws (m : Memory) (hm : m.wf = true) :
    ∃ t, step (inFlight (ready 1 m [.reset]) 0 p0) = .next t ∧ t.mem.read 0x2000 = Config.freeByte 0 := by
  have h : step (inFlight (ready 1 m [.reset]) 0 p0) = resetStep (inFlight (ready 1 m []) 0 p0) := by
    rw [step_of_live (live_of rfl rfl rfl)]
    rfl
  have hd : p0.dstFP Config.reference = ⟨0x2000, 3⟩ := by decide +kernel
  have ha : (inFlight (ready 1 m []) 0 p0).abandonAll.mem = m.writeBytes 0x2000 (State.nextBytes State.reset 3) := by
    show ((inFlight (ready 1 m []) 0 p0).abandon 0).mem = _
    rw [State.abandon, if_pos (show State.inFlight (inFlight (ready 1 m []) 0 p0) Instr.isEncode 0 = true from rfl)]
    rw [show ((inFlight (ready 1 m []) 0 p0).ctx 0).latch = p0 from rfl,
      show (inFlight (ready 1 m []) 0 p0).cfg = Config.reference from rfl, hd]
    rfl
  refine ⟨_, h, ?_⟩
  show (inFlight (ready 1 m []) 0 p0).abandonAll.mem.read 0x2000 = _
  rw [ha]
  exact m.read_writeBytes_inside 0x2000 0 _ hm (by decide) (by decide)

/-- With p0 in flight: a host write elsewhere, p0's Perform, and a Reset, for which the byte at 0x2000 before is one that
the first draw is not. -/
theorem witness_invariant :
    (∃ s t : State, s.schedule = [.memWrite 0x2003#32 0x41#8] ∧ Inv s ∧ step s = .next t ∧
      t.mem.read 0x2003 ≠ s.mem.read 0x2003) ∧
    (∃ s t : State, s.schedule = [.perform 0] ∧ Inv s ∧ step s = .next t ∧ t.mem.read 0x2001 ≠ s.mem.read 0x2001) ∧
    ∃ s t : State, s.schedule = [.reset] ∧ Inv s ∧ step s = .next t ∧ t.mem.read 0x2000 ≠ s.mem.read 0x2000 := by
  obtain ⟨t, ht, h⟩ := next_of (r := step (inFlight (ready 1 tight [.memWrite 0x2003#32 0x41#8]) 0 p0))
    (p := fun t => t.mem.read 0x2003 ≠ 0#8) (by decide +kernel)
  obtain ⟨u, hu, g⟩ := next_of (r := step (inFlight (ready 1 tight [.perform 0]) 0 p0))
    (p := fun t => t.mem.read 0x2001 ≠ 0#8) (by decide +kernel)
  refine ⟨⟨_, t, rfl, inv_inFlight tight (by decide) _, ht, h⟩, ⟨_, u, rfl, inv_inFlight tight (by decide) _, hu, g⟩, ?_⟩
  by_cases hd : Config.freeByte 0 = 0#8
  · obtain ⟨v, hv, e⟩ := reset_draws ⟨[(0x2000, 1#8)]⟩ (by decide)
    exact ⟨_, v, rfl, inv_inFlight ⟨[(0x2000, 1#8)]⟩ (by decide) _, hv, by rw [e, hd]; decide⟩
  · obtain ⟨v, hv, e⟩ := reset_draws Memory.empty rfl
    exact ⟨_, v, rfl, inv_inFlight Memory.empty rfl _, hv, by rw [e]; exact hd⟩

/-- A host write to CMD and to an argument register, a scheduled and an unscheduled Perform, and a Reset, each changing
the context it addresses. -/
theorem witness_ContextsArePrivate :
    (∃ s t : State, s.schedule = [.regWrite (Reg.cmd 0).offset 32 1#32] ∧ step s = .next t ∧ t.ctx 0 ≠ s.ctx 0) ∧
    (∃ s t : State, s.schedule = [.regWrite (Reg.arg 15 .soff).offset 32 1#32] ∧ step s = .next t ∧
      t.ctx 15 ≠ s.ctx 15) ∧
    (∃ s t : State, s.schedule = [.perform 1] ∧ step s = .next t ∧ t.ctx 1 ≠ s.ctx 1) ∧
    (∃ s t : State, s.schedule = [] ∧ step s = .next t ∧ t.ctx 1 ≠ s.ctx 1) ∧
    ∃ s t : State, s.schedule = [.reset] ∧ step s = .next t ∧ t.ctx 1 ≠ s.ctx 1 := by
  have look : ∀ (s : State) (c : Nat),
      after (step s) (fun t => (decide ((t.ctx c).busy ≠ (s.ctx c).busy), decide ((t.ctx c).argSoff ≠ (s.ctx c).argSoff)))
          ≠ some (false, false) →
      (after (step s) fun _ => true) = some true → ∃ t, step s = .next t ∧ t.ctx c ≠ s.ctx c := by
    intro s c h1 h2
    cases hs : step s with
    | next t =>
      refine ⟨t, rfl, fun e => h1 ?_⟩
      simp [hs, after, e]
    | fault f => simp [hs, after] at h2
    | refused r => simp [hs, after] at h2
  obtain ⟨a, ha⟩ := look (base 1 tight [.regWrite (Reg.cmd 0).offset 32 1#32]) 0 (by decide +kernel) (by decide +kernel)
  obtain ⟨b, hb⟩ := look (base 16 tight [.regWrite (Reg.arg 15 .soff).offset 32 1#32]) 15 (by decide +kernel)
    (by decide +kernel)
  obtain ⟨d, hd⟩ := look (inFlight (ready 2 tight [.perform 1]) 1 (buildLatch .buildJump)) 1 (by decide +kernel)
    (by decide +kernel)
  obtain ⟨e, he⟩ := look (inFlight (ready 2 tight []) 1 (buildLatch .buildJump)) 1 (by decide +kernel) (by decide +kernel)
  obtain ⟨r, hr⟩ := look (inFlight (ready 2 tight [.reset]) 1 (buildLatch .buildJump)) 1 (by decide +kernel)
    (by decide +kernel)
  exact ⟨⟨_, a, rfl, ha⟩, ⟨_, b, rfl, hb⟩, ⟨_, d, rfl, hd⟩, ⟨_, e, rfl, he⟩, _, r, rfl, hr⟩

/-- The results of a Perform of the tight case differ from those before. -/
theorem witness_ResultsChangeOnlyByEncode : ∃ (s t : State) (c : Nat), step s = .next t ∧ c < s.nCtx ∧
    ((t.ctx c).resLen ≠ (s.ctx c).resLen ∨ (t.ctx c).resRem ≠ (s.ctx c).resRem ∨
      (t.ctx c).resOutStart ≠ (s.ctx c).resOutStart) := by
  obtain ⟨t, ht, h⟩ := next_of
    (r := step (inFlight (ready 1 tight [.perform 0]) 0 ⟨.encodePSoRr 0, 0x1000#32, 0x2000#32, 5#32, 8#32, 3#32⟩))
    (p := fun t => (t.ctx 0).resLen ≠ 0#32) (by decide +kernel)
  exact ⟨_, t, 0, ht, by decide, .inl h⟩

/-- A step that answers a next state, one that faults and one that is refused. -/
theorem witness_JumpTableHasNoEffect : jumpTableWf Config.reference.jumpTable = true ∧
    jumpTableWf (List.replicate 20 15#8) = true ∧
    (∃ t, step (inFlight (ready 1 tight [.perform 0]) 0 (buildLatch .buildJump)) = .next t) ∧
    (∃ f, step (ready 1 tight [.regRead 1 32]) = .fault f) ∧ ∃ r, step (ready 1 tight [.perform 0]) = .refused r := by
  refine ⟨by decide, by decide, ?_, ⟨.busMisaligned 1 32, ?_⟩, ⟨.stepNotEnabled 0, ?_⟩⟩
  · obtain ⟨t, ht, -⟩ := next_of (r := step (inFlight (ready 1 tight [.perform 0]) 0 (buildLatch .buildJump)))
      (p := fun _ => True) (by decide +kernel)
    exact ⟨t, ht⟩
  · rw [step_of_live (live_of (by decide) rfl rfl)]; rfl
  · rw [step_of_live (live_of (by decide) rfl rfl)]; rfl

/-- A Reset while p0 is in flight: 0x2000 and 0x2002 lie in its DstFP, 0x2003 does not. -/
theorem witness_ResetStep : ∃ (s : State) (es : List Event), s.live ∧ s.mem.wf = true ∧ s.schedule = .reset :: es ∧
    (∀ c < s.nCtx, (s.ctx c).busy = true → (s.ctx c).latch.cmd.isEncode = true →
      ((s.ctx c).latch.dstFP s.cfg).contains 0x2003 = false) ∧
    ∃ c < s.nCtx, (s.ctx c).busy = true ∧ (s.ctx c).latch.cmd.isEncode = true ∧
      ((s.ctx c).latch.dstFP s.cfg).contains 0x2002 = true :=
  ⟨inFlight (ready 1 tight [.reset]) 0 p0, [], live_of (by decide) rfl rfl, by decide, rfl, by decide +kernel, 0,
    by decide +kernel⟩

theorem witness_FaultIsAbsorbing : ∃ (s : State) (f : Fault), s.fault = some f ∧ nCtxWf s.nCtx = true ∧
    s.cfg.wf = true :=
  ⟨(base 1 tight []).markFault (.hostRace 0#32), .hostRace 0#32, rfl, by decide, reference_wf⟩

theorem witness_FaultIsPrecise : ∃ (s : State) (f : Fault), step s = .fault f :=
  ⟨ready 1 tight [.regRead 1 32], .busMisaligned 1 32, by rw [step_of_live (live_of (by decide) rfl rfl)]; rfl⟩

/-- For StepKeepsMemoryForm and ConfigurationIsConstant: a step of a busy machine. -/
theorem witness_step : ∃ s t : State, s.mem.wf = true ∧ step s = .next t := by
  obtain ⟨t, ht, -⟩ := next_of (r := step (inFlight (ready 1 tight [.memWrite 0x2003#32 0x41#8]) 0 p0))
    (p := fun _ => True) (by decide +kernel)
  exact ⟨_, t, by decide, ht⟩

end Sys2Proof.Tests
end

section
/-! PROOFS. The scope of the model (00_scope.md R8, R15): a machine it gives no meaning is refused before any step. -/

namespace Sys2Proof.Machine

/-- R8: the number of contexts breaks its limits exactly when it lies below 1 or above 16. -/
theorem nCtxWf_eq_false_iff (n : Nat) : nCtxWf n = false ↔ n < 1 ∨ 16 < n := by
  simp only [nCtxWf, Bool.and_eq_false_iff, decide_eq_false_iff_not, Nat.not_le]

/-- The counterpart of `step_of_live` for a machine whose number of contexts or configuration breaks its rules: whatever
its schedule and its fault mark, the step is refused (R15; log 23). -/
theorem step_of_illFormed {s : State} (h : nCtxWf s.nCtx = false ∨ s.cfg.wf = false) :
    step s = .refused .illFormedConfig := by
  have check_fails : (nCtxWf s.nCtx && s.cfg.wf) = false := Bool.and_eq_false_iff.mpr h
  have refused : nextAction s = .done (.refused .illFormedConfig) := if_pos check_fails
  simp only [step, refused]

/-- Settles O15: each of the three premises makes one half of the check fail that stands before every step. -/
theorem illFormedConfigRefused : Obligations.IllFormedConfigRefused := by
  intro s h
  apply step_of_illFormed
  rwa [nCtxWf_eq_false_iff, or_assoc]

end Sys2Proof.Machine
end

section
/-! PROOFS. What every step keeps: the canonical form of memory, and the invariant of the register files, of STATUS and
of the commands in flight (10_state.md R38, R48, R56; 41_encode.md R171; 20_memory.md R97). Each update of the state
keeps the invariant, one lemma for each, and a step is a sequence of such updates. -/

namespace Sys2Proof.Machine

variable {s t : State} {c : Nat}

/-! ### Reset -/

/-- The contexts that a power-on makes are all as R59 has them. -/
theorem State.ctx_powerOn (cfg : Config) (n : Nat) (m : Memory) (es : List Event) (c : Nat) :
    (State.powerOn cfg n m es).ctx c = Context.reset := by
  show (List.replicate n Context.reset).getD c Context.reset = Context.reset
  by_cases hc : c < n <;> simp [List.getD, hc]

/-- What a Reset leaves: a power-on with the memory of R241, but for the fault mark and the model's own fields
(log 24). -/
theorem resetStep_next (h : resetStep s = .next t) :
    t = { State.powerOn s.cfg s.nCtx s.abandonAll.mem s.schedule with
      fault := s.fault, turn := s.turn, draws := s.abandonAll.draws, reply := s.reply } := by
  have frame := s.abandonAll_spec.1
  unfold resetStep at h
  rw [frame] at h
  cases h
  rfl

/-! ### Memory stays canonical -/

theorem State.wf_mem_abandon (c : Nat) (h : s.mem.wf = true) : (s.abandon c).mem.wf = true := by
  unfold State.abandon
  split
  · exact Memory.wf_writeBytes _ _ _ h
  · exact h

theorem State.wf_mem_abandonAll (h : s.mem.wf = true) : s.abandonAll.mem.wf = true :=
  List.foldlRecOn (motive := fun u : State => u.mem.wf = true) _ State.abandon h
    fun _ hu c _ => State.wf_mem_abandon c hu

/-! ### STATUS and PHASE, context by context -/

/-- What StatusSound asks of one context (10_state.md R48, R56). -/
structure Context.Sound (k : Context) : Prop where
  notBoth : ¬ (k.busy = true ∧ k.done = true)
  lastOp : k.busy = true → k.lastOp = k.latch.cmd.op
  latched : k.busy = true → k.latch.cmd.wf = true
  phase : k.dp.phase = .idle

theorem statusSound_iff : StatusSound s ↔ ∀ c < s.nCtx, (s.ctx c).Sound :=
  ⟨fun h c hc => ⟨h.notBoth c hc, h.lastOp c hc, h.latched c hc, h.phase c hc⟩,
    fun h => ⟨fun c hc => (h c hc).notBoth, fun c hc => (h c hc).lastOp, fun c hc => (h c hc).latched,
      fun c hc => (h c hc).phase⟩⟩

theorem Context.Sound.reset : Context.reset.Sound := by
  constructor <;> simp [Context.reset, Datapath.reset]

theorem Context.Sound.writeArg {k : Context} (h : k.Sound) (r : ArgReg) (v : Word) : (k.writeArg r v).Sound := by
  constructor <;> simp only [Context.writeArg_busy, Context.writeArg_done, Context.writeArg_lastOp,
    Context.writeArg_latch, Context.writeArg_dp]
  exacts [h.notBoth, h.lastOp, h.latched, h.phase]

theorem Context.Sound.writeCmd {k : Context} (h : k.Sound) (w : Word) : (k.writeCmd w).Sound :=
  ⟨h.notBoth, h.lastOp, h.latched, h.phase⟩

/-- An issue sets LAST_OP to the OP it latches and clears DONE (R120). -/
theorem Context.Sound.issued {k : Context} (h : k.Sound) {l : Latch} (hl : l.cmd.wf = true) : (k.issued l).Sound :=
  ⟨fun hd => Bool.false_ne_true hd.2, fun _ => rfl, fun _ => hl, h.phase⟩

/-- A Perform clears BUSY (R48). -/
theorem Context.Sound.performed {k : Context} (h : k.dp.phase = .idle) : k.performed.Sound :=
  ⟨fun hb => Bool.false_ne_true hb.1, fun hb => absurd hb Bool.false_ne_true,
    fun hb => absurd hb Bool.false_ne_true, h⟩

/-- The reference datapath ends in IDLE (41_encode.md R189). -/
theorem Engine.phase_run (flat : List Word) (l : Latch) (m : Memory) : (Engine.run flat l m).dp.phase = .idle :=
  rfl

/-! ### The commands in flight, one by one and in pairs -/

/-- What InFlightSound asks of one latched command (R171; 20_memory.md R88, R98). -/
structure Latch.Sound (s : State) (l : Latch) : Prop where
  ready : s.tableBuilt = true ∧ s.flatBuilt = true ∧ s.jumpBuilt = true
  operands : l.doff.toNat < 2 ^ 31 ∧ l.len.toNat < 2 ^ 31 ∧ l.soff.toNat < 2 ^ 31
  inSpace : l.srcFP.base + l.srcFP.size ≤ 2 ^ 32 ∧ (l.dstFP s.cfg).base + (l.dstFP s.cfg).size ≤ 2 ^ 32
  disjoint : ¬ Region.meets l.srcFP (l.dstFP s.cfg)

/-- What InFlightSound asks of two commands in flight in different contexts (R171, R200; 20_memory.md R97). -/
structure Latch.Compatible (cfg : Config) (l l' : Latch) : Prop where
  noBuild : l.cmd.isEncode = true → l'.cmd.isBuild = false
  noRegister : l.cmd.isEncodeG = true → l'.cmd ≠ .registerBuffers
  noConflict : l.cmd.isEncode = true → l'.cmd.isEncode = true → ¬ footprintsConflict cfg l l'

theorem inFlightSound_iff :
    InFlightSound s ↔
      (∀ c < s.nCtx, (s.ctx c).busy = true → (s.ctx c).latch.cmd.isEncode = true → (s.ctx c).latch.Sound s) ∧
        ∀ c < s.nCtx, ∀ c' < s.nCtx, c' ≠ c → (s.ctx c).busy = true → (s.ctx c').busy = true →
          (s.ctx c).latch.Compatible s.cfg (s.ctx c').latch := by
  constructor
  · intro h
    refine ⟨fun c hc hb he => ?_, fun c hc c' hc' hne hb hb' => ⟨fun he => ?_, fun he => ?_, fun he he' => ?_⟩⟩
    · have hf := (s.inFlight_iff _ c).mpr ⟨hb, he⟩
      exact ⟨h.ready c hc hf, h.operands c hc hf, h.inSpace c hc hf, h.disjoint c hc hf⟩
    · simpa [State.inFlight, hb'] using h.noBuild c hc ((s.inFlight_iff _ c).mpr ⟨hb, he⟩) c' hc' hne
    · simpa [State.inFlight, hb'] using h.noRegister c hc ((s.inFlight_iff _ c).mpr ⟨hb, he⟩) c' hc' hne
    · exact h.noConflict c hc ((s.inFlight_iff _ c).mpr ⟨hb, he⟩) c' hc' hne ((s.inFlight_iff _ c').mpr ⟨hb', he'⟩)
  · rintro ⟨one, two⟩
    constructor <;> simp only [State.inFlight_iff, and_imp]
    · exact fun c hc hb he => (one c hc hb he).ready
    · exact fun c hc hb he => (one c hc hb he).operands
    · exact fun c hc hb he => (one c hc hb he).inSpace
    · exact fun c hc hb he => (one c hc hb he).disjoint
    · exact fun c hc hb he c' hc' hne => by
        simpa [State.inFlight] using fun hb' => (two c hc c' hc' hne hb hb').noBuild he
    · exact fun c hc hb he c' hc' hne => by
        simpa [State.inFlight] using fun hb' => (two c hc c' hc' hne hb hb').noRegister he
    · exact fun c hc hb he c' hc' hne hb' => (two c hc c' hc' hne hb hb').noConflict he

theorem isEncode_of_isEncodeG {i : Instr} (h : i.isEncodeG = true) : i.isEncode = true := by
  cases i with
  | encodeG | encodeGSo | encodeGRr | encodeGSoRr => rfl
  | _ => cases h

/-- The conditions on a pair are about an ENCODE: another command is compatible with every one. -/
theorem Latch.Compatible.of_not_encode {cfg : Config} {l l' : Latch} (h : l.cmd.isEncode = false) :
    l.Compatible cfg l' := by
  have notEncode : l.cmd.isEncode ≠ true := Bool.eq_false_iff.mp h
  exact ⟨fun he => absurd he notEncode, fun he => absurd (isEncode_of_isEncodeG he) notEncode,
    fun he => absurd he notEncode⟩

/-- What the issue of `l` in context `c` has checked when it completes (R140, R144, R148, R171, R200). -/
structure IssueChecked (s : State) (c : Nat) (l : Latch) : Prop where
  sound : l.cmd.isEncode = true → l.Sound s
  compatible : ∀ c' < s.nCtx, c' ≠ c → (s.ctx c').busy = true →
    l.Compatible s.cfg (s.ctx c').latch ∧ (s.ctx c').latch.Compatible s.cfg l
  flattenLater : l.cmd = .flattenTable → s.tableBuilt = true

theorem State.cmd_of_not_inFlightElsewhere {p : Instr → Bool} (h : s.inFlightElsewhere c p = false) :
    ∀ c' < s.nCtx, c' ≠ c → (s.ctx c').busy = true → p (s.ctx c').latch.cmd = false := by
  intro c' hc' hne hb
  rw [State.inFlightElsewhere_false] at h
  exact Bool.eq_false_iff.mpr fun hp => h ⟨c', hc', hne, hb, hp⟩

/-- A build command asks that no ENCODE is in flight elsewhere. -/
theorem IssueChecked.build {i : Instr} (hi : i.isEncode = false) (hf : i = .flattenTable → s.tableBuilt = true)
    (h : ∀ c' < s.nCtx, c' ≠ c → (s.ctx c').busy = true → (s.ctx c').latch.cmd.isEncode = false) :
    IssueChecked s c (buildLatch i) where
  sound he := absurd he (Bool.eq_false_iff.mp hi)
  compatible c' hc' hne hb := ⟨.of_not_encode hi, .of_not_encode (h c' hc' hne hb)⟩
  flattenLater := hf

/-- REGISTER_BUFFERS asks that no ENCODE.G is in flight elsewhere (R200). -/
theorem IssueChecked.register (h : s.inFlightElsewhere c Instr.isEncodeG = false) :
    IssueChecked s c (s.registerLatch c) where
  sound he := absurd he Bool.false_ne_true
  compatible c' hc' hne hb := by
    have notG := State.cmd_of_not_inFlightElsewhere h c' hc' hne hb
    exact ⟨.of_not_encode rfl, fun _ => rfl, fun hg => absurd hg (Bool.eq_false_iff.mp notG),
      fun _ he => absurd he Bool.false_ne_true⟩
  flattenLater he := nomatch he

/-- An ENCODE asks for all that R171 lists. -/
theorem IssueChecked.encode {p so rr : Bool} {strat : Nat} (ha : EncodeAllowed s c ⟨p, so, rr⟩)
    (ho : EncodeOperandsOk s c ⟨p, so, rr⟩ (s.encodeLatch (encodeForm p so rr strat) ⟨p, so, rr⟩ c)) :
    IssueChecked s c (s.encodeLatch (encodeForm p so rr strat) ⟨p, so, rr⟩ c) := by
  have hcmd : (s.encodeLatch (encodeForm p so rr strat) ⟨p, so, rr⟩ c).cmd = encodeForm p so rr strat := rfl
  generalize s.encodeLatch (encodeForm p so rr strat) ⟨p, so, rr⟩ c = l at *
  have encodes : l.cmd.isEncode = true := by rw [hcmd, encodeForm_isEncode]
  have other : ∀ {j : Instr}, j.isEncode = false → l.cmd ≠ j :=
    fun hj he => Bool.false_ne_true (hj.symm.trans (he ▸ encodes))
  refine ⟨fun _ => ⟨ha.ready, ⟨?_, ?_, ?_⟩, ⟨ho.srcInSpace, ho.dstInSpace⟩, ho.disjoint⟩, ?_, fun hf => ?_⟩
  · exact (toInt_nonneg_iff _).mp ho.doffNonneg
  · exact (toInt_nonneg_iff _).mp ho.lenNonneg
  · exact (toInt_nonneg_iff _).mp ho.soffNonneg
  · intro c' hc' hne hb
    have noConflict := ho.noConflict c' hc' hne hb
    refine ⟨⟨fun _ => ?_, fun hg hr => ?_, fun _ he => noConflict he⟩, fun _ => ?_, fun _ hr => ?_, fun he _ => ?_⟩
    · exact Bool.eq_false_iff.mpr fun hbuild => ha.noBuild ⟨c', hc', hne, hb, (isBuild_iff _).mp hbuild⟩
    · exact ha.noRegister (by simpa [hcmd] using hg) ⟨c', hc', hne, hb, hr⟩
    · simp [hcmd]
    · exact other rfl hr
    · exact fun hcf => noConflict he ((footprintsConflict_symm _ _ _).mp hcf)
  · exact (other rfl hf).elim

/-- Every issue that completes latches its command, and has checked what the invariant asks of it. -/
theorem IssueCase.checked {i : Instr} (h : IssueCase s c i t) :
    ∃ l : Latch, l.cmd = i ∧ t = s.issue c l ∧ IssueChecked s c l := by
  cases h with
  | buildTable h =>
    refine ⟨_, rfl, rfl, .build rfl nofun fun c' hc' hne hb => ?_⟩
    exact (Bool.or_eq_false_iff.mp (State.cmd_of_not_inFlightElsewhere h c' hc' hne hb)).1
  | flattenTable h hb =>
    refine ⟨_, rfl, rfl, .build rfl (fun _ => hb) fun c' hc' hne hb => ?_⟩
    exact (Bool.or_eq_false_iff.mp (State.cmd_of_not_inFlightElsewhere h c' hc' hne hb)).1
  | buildJump h => exact ⟨_, rfl, rfl, .build rfl nofun (State.cmd_of_not_inFlightElsewhere h)⟩
  | registerBuffers h hw => exact ⟨_, rfl, rfl, .register h⟩
  | encode p so rr strat ha ho => exact ⟨_, rfl, rfl, .encode ha ho⟩

/-! ### Each update of the state keeps the invariant -/

/-- The invariant says nothing of the model's own fields, and of memory only its form. -/
theorem Inv.withFields (h : Inv s) {m : Memory} (hm : m.wf = true) (es : List Event) (u : Turn) (n : Nat) (x : Reply) :
    Inv { s with mem := m, schedule := es, turn := u, draws := n, reply := x } :=
  ⟨hm, { h.tables with }, { h.status with }, { h.flight with }⟩

/-- A context may be replaced by a sound one that has no other command in flight. -/
theorem Inv.setCtx (h : Inv s) (hc : c < s.nCtx) {k : Context} (hk : k.Sound)
    (hb : k.busy = true → (s.ctx c).busy = true ∧ k.latch = (s.ctx c).latch) : Inv (s.setCtx c k) := by
  have flight : ∀ c', ((s.setCtx c k).ctx c').busy = true →
      (s.ctx c').busy = true ∧ ((s.setCtx c k).ctx c').latch = (s.ctx c').latch := by
    intro c'
    rw [State.ctx_setCtx _ _ _ _ hc]
    split
    · rename_i e; subst e; exact hb
    · exact fun h => ⟨h, rfl⟩
  have status := statusSound_iff.mp h.status
  obtain ⟨one, two⟩ := inFlightSound_iff.mp h.flight
  refine ⟨h.mem, { h.tables with flattenLater := ?_ }, statusSound_iff.mpr ?_, inFlightSound_iff.mpr ⟨?_, ?_⟩⟩
  · intro c' hc' hb' hf
    rw [State.nCtx_setCtx] at hc'
    obtain ⟨hb, hl⟩ := flight c' hb'
    exact h.tables.flattenLater c' hc' hb (hl ▸ hf)
  · intro c' hc'
    rw [State.nCtx_setCtx] at hc'
    rw [State.ctx_setCtx _ _ _ _ hc]
    split
    · exact hk
    · exact status c' hc'
  · intro c' hc' hb' he
    rw [State.nCtx_setCtx] at hc'
    obtain ⟨hb, hl⟩ := flight c' hb'
    rw [hl] at he ⊢
    exact { one c' hc' hb he with }
  · intro c₁ hc₁ c₂ hc₂ hne hb₁' hb₂'
    rw [State.nCtx_setCtx] at hc₁ hc₂
    obtain ⟨hb₁, hl₁⟩ := flight c₁ hb₁'
    obtain ⟨hb₂, hl₂⟩ := flight c₂ hb₂'
    rw [hl₁, hl₂]
    exact two c₁ hc₁ c₂ hc₂ hne hb₁ hb₂

theorem Inv.ctx_sound (h : Inv s) (hc : c < s.nCtx) : (s.ctx c).Sound :=
  statusSound_iff.mp h.status c hc

theorem Inv.complete (h : Inv s) (hc : c < s.nCtx) : Inv (s.complete c) :=
  h.setCtx hc (.performed (h.ctx_sound hc).phase) fun hb => absurd hb Bool.false_ne_true

theorem Inv.writeArg (h : Inv s) (hc : c < s.nCtx) (r : ArgReg) (v : Word) : Inv (s.writeArg c r v) :=
  h.setCtx hc ((h.ctx_sound hc).writeArg r v) fun hb => by simpa using hb

theorem Inv.writeCmd (h : Inv s) (hc : c < s.nCtx) (w : Word) : Inv (s.writeCmd c w) :=
  (h.setCtx hc ((h.ctx_sound hc).writeCmd w) fun hb => ⟨hb, rfl⟩).withFields h.mem _ _ _ _

/-- BUILD_TABLE loads TABLE (40_table_build.md R140). -/
theorem Inv.loadTable (h : Inv s) : Inv { s with table := s.cfg.codeTable, tableBuilt := true } where
  mem := h.mem
  tables := { h.tables with table := fun _ => rfl, flattenLater := fun _ _ _ _ => rfl }
  status := { h.status with }
  flight := { h.flight with ready := fun c hc he => ⟨rfl, (h.flight.ready c hc he).2⟩ }

/-- FLATTEN_TABLE loads FLAT from a TABLE that is built (R144, R145). -/
theorem Inv.loadFlat (h : Inv s) (hb : s.tableBuilt = true) :
    Inv { s with flat := flatten s.table, flatBuilt := true } where
  mem := h.mem
  tables := { h.tables with flat := fun _ => congrArg flatten (h.tables.table hb) }
  status := { h.status with }
  flight := { h.flight with
    ready := fun c hc he => ⟨(h.flight.ready c hc he).1, rfl, (h.flight.ready c hc he).2.2⟩ }

/-- BUILD_JUMP loads JUMP (R148). -/
theorem Inv.loadJump (h : Inv s) : Inv { s with jump := s.cfg.jumpTable, jumpBuilt := true } where
  mem := h.mem
  tables := { h.tables with jump := fun _ => rfl }
  status := { h.status with }
  flight := { h.flight with
    ready := fun c hc he => ⟨(h.flight.ready c hc he).1, (h.flight.ready c hc he).2.1, rfl⟩ }

/-- The registration slot is in no clause of the invariant (42_registration.md R201). -/
theorem Inv.loadSlot (h : Inv s) (i o : Addr) : Inv { s with regInBase := i, regOutBase := o, regValid := true } :=
  ⟨h.mem, { h.tables with }, { h.status with }, { h.flight with }⟩

/-- The writes of an ENCODE's Perform. -/
theorem Inv.encodeEffect (h : Inv s) (hc : c < s.nCtx) (rr : Bool) : Inv (s.encodeEffect rr c) := by
  have sound := h.ctx_sound hc
  exact (h.withFields (s.mem.wf_writeBytes _ _ h.mem) s.schedule s.turn _ s.reply).setCtx hc
    ⟨sound.notBoth, sound.lastOp, sound.latched, Engine.phase_run _ _ _⟩ fun hb => ⟨hb, rfl⟩

/-- An issue puts in flight a command that has passed its checks. -/
theorem Inv.issue (h : Inv s) (hc : c < s.nCtx) {l : Latch} (hl : l.cmd.wf = true) (hk : IssueChecked s c l) :
    Inv (s.issue c l) := by
  have ctx : ∀ c', (s.issue c l).ctx c' = if c' = c then (s.ctx c).issued l else s.ctx c' :=
    fun c' => State.ctx_setCtx s c c' _ hc
  have status := statusSound_iff.mp h.status
  obtain ⟨one, two⟩ := inFlightSound_iff.mp h.flight
  refine ⟨h.mem, { h.tables with flattenLater := ?_ }, statusSound_iff.mpr ?_, inFlightSound_iff.mpr ⟨?_, ?_⟩⟩ <;>
    simp only [State.issue_nCtx, ctx]
  · intro c' hc'
    split
    · exact fun _ => hk.flattenLater
    · exact h.tables.flattenLater c' hc'
  · intro c' hc'
    split
    · exact (status c hc).issued hl
    · exact status c' hc'
  · intro c' hc'
    split
    · exact fun _ he => { hk.sound he with }
    · exact fun hb he => { one c' hc' hb he with }
  · intro c₁ hc₁ c₂ hc₂ hne
    split
    · rename_i e₁
      subst e₁
      rw [if_neg hne]
      exact fun _ hb => (hk.compatible c₂ hc₂ hne hb).1
    · rename_i hn₁
      split
      · exact fun hb _ => (hk.compatible c₁ hc₁ hn₁ hb).2
      · exact two c₁ hc₁ c₂ hc₂ hne

/-- A power-on has nothing built and nothing in flight (R59, R242). -/
theorem Inv.powerOn (cfg : Config) (n : Nat) {m : Memory} (hm : m.wf = true) (es : List Event) :
    Inv (State.powerOn cfg n m es) := by
  have quiet : ∀ {c : Nat}, ((State.powerOn cfg n m es).ctx c).busy ≠ true := by
    simp [State.ctx_powerOn, Context.reset]
  refine ⟨hm, ⟨nofun, nofun, nofun, fun c _ hb => absurd hb quiet⟩, statusSound_iff.mpr fun c _ => ?_,
    inFlightSound_iff.mpr ⟨fun c _ hb => absurd hb quiet, fun c _ c' _ _ hb => absurd hb quiet⟩⟩
  rw [State.ctx_powerOn]
  exact .reset

/-- A Reset from a canonical memory leaves a machine as after a power-on. -/
theorem Inv.reset (h : resetStep s = .next t) (hm : s.mem.wf = true) : Inv t := by
  have ht := resetStep_next h
  subst ht
  have p := Inv.powerOn s.cfg s.nCtx (State.wf_mem_abandonAll hm) s.schedule
  exact ⟨p.mem, { p.tables with }, { p.status with }, { p.flight with }⟩

/-! ### A command keeps the invariant -/

/-- A word that decodes gives a command whose fields fit their widths (30_encoding.md R130). -/
theorem decode_wf {w : Word} {i : Instr} (h : decode w = .ok i) : i.wf = true := by
  have plain : ∀ {j : Instr}, j.wf = true → decodePlain w j = .ok i → i.wf = true := by
    intro j hj hd
    unfold decodePlain at hd
    split at hd <;> cases hd
    exact hj
  unfold decode at h
  split_ifs at h
  split at h
  · exact plain rfl h
  · exact plain rfl h
  · exact plain rfl h
  · exact plain rfl h
  · unfold decodeEncode at h
    split_ifs at h
    cases h
    rw [encodeForm_wf, decide_eq_true_eq]
    exact (w.extractLsb' 8 4).isLt
  · cases h

theorem Inv.issueCase {i : Instr} (h : Inv s) (hc : c < s.nCtx) (hi : i.wf = true) (hn : IssueCase s c i t) :
    Inv t := by
  obtain ⟨l, rfl, rfl, checked⟩ := hn.checked
  exact h.issue hc hi checked

theorem Inv.performCase (h : Inv s) (hb : (s.ctx c).busy = true) {i : Instr} (hi : (s.ctx c).latch.cmd = i)
    (hn : PerformCase s c i t) : Inv t := by
  have hc := State.busy_lt hb
  cases hn with
  | buildTable => exact h.loadTable.complete hc
  | flattenTable => exact (h.loadFlat (h.tables.flattenLater c hc hb hi)).complete hc
  | buildJump => exact h.loadJump.complete hc
  | registerBuffers => exact (h.loadSlot _ _).complete hc
  | encode p so rr strat ha => exact (h.encodeEffect hc rr).complete (by simpa using hc)

/-! ### Every step -/

/-- Settles O54: each kind of step is a sequence of updates that keep the invariant. -/
theorem stepKeepsInvariant : Obligations.StepKeepsInvariant := by
  intro s t h hstep
  cases step_cases hstep with
  | regRead off es r hs hr ho =>
    cases s.readReg r <;> exact h.withFields h.mem _ _ _ _
  | writeArg es c r v hs hc hb => exact (h.withFields h.mem es s.turn s.draws s.reply).writeArg hc r v
  | issue es c v i t hs hc hb hd ht =>
    have written := (h.withFields h.mem es s.turn s.draws s.reply).writeCmd hc v
    exact written.issueCase ((State.writeCmd_nCtx _ c v).symm ▸ hc) (decode_wf hd) (exec_issue_next rfl ht)
  | memReadRace es a hs hd => exact h.withFields h.mem _ _ _ _
  | memRead es a hs hd => exact h.withFields h.mem _ _ _ _
  | memWrite es a v hs hd => exact h.withFields (s.mem.wf_write _ v h.mem) _ _ _ _
  | reset es t hs ht => exact .reset ht h.mem
  | perform es c t hs hc hb ht =>
    have turned := h.withFields h.mem es (.perform c) s.draws s.reply
    exact turned.performCase hb rfl (exec_perform_next rfl ht)
  | final hs hq => exact h

/-- Settles O53: nothing is built or in flight after reset. -/
theorem invariantAtReset : Obligations.InvariantAtReset :=
  Inv.powerOn _ _ Memory.wf_empty _

end Sys2Proof.Machine
end

section
/-! PROOFS. What a step leaves alone: the configuration (10_state.md R52, R58), the contexts it is not about (R43, R44),
and the result registers but for an ENCODE's Perform (R49). -/

namespace Sys2Proof.Machine

variable {s t : State} {c : Nat} {i : Instr}

/-! ### The configuration -/

theorem IssueCase.config (h : IssueCase s c i t) : t.cfg = s.cfg ∧ t.nCtx = s.nCtx ∧ t.fault = s.fault := by
  cases h <;> exact ⟨rfl, State.issue_nCtx _ _ _, rfl⟩

theorem PerformCase.config (h : PerformCase s c i t) : t.cfg = s.cfg ∧ t.nCtx = s.nCtx ∧ t.fault = s.fault := by
  cases h with
  | encode p so rr strat ha => exact ⟨rfl, by simp, rfl⟩
  | _ => exact ⟨rfl, State.complete_nCtx _ _, rfl⟩

theorem step_config (h : step s = .next t) : t.cfg = s.cfg ∧ t.nCtx = s.nCtx ∧ t.fault = s.fault := by
  cases step_cases h with
  | regRead off es r hs hr ho =>
    exact ⟨State.answer_cfg _ _, State.nCtx_of_ctxs (State.answer_ctxs _ _), State.answer_fault _ _⟩
  | writeArg es c r v hs hc hb => exact ⟨rfl, State.nCtx_setCtx _ _ _, rfl⟩
  | issue es c v i t hs hc hb hd ht =>
    obtain ⟨hcfg, hn, hf⟩ := (exec_issue_next rfl ht).config
    exact ⟨hcfg, hn.trans (State.writeCmd_nCtx _ _ _), hf⟩
  | reset es t hs ht =>
    rw [resetStep_next ht]
    exact ⟨rfl, List.length_replicate, rfl⟩
  | perform es c t hs hc hb ht => exact (exec_perform_next rfl ht).config
  | memReadRace | memRead | memWrite | final => exact ⟨rfl, rfl, rfl⟩

/-- Settles O56: CONFIG is computed from the parameters and N_CTX, and a step taken at all starts without a fault. -/
theorem configurationIsConstant : Obligations.ConfigurationIsConstant := by
  intro s t h
  obtain ⟨hcfg, hn, hf⟩ := step_config h
  obtain ⟨-, -, noFault⟩ := step_live h
  exact ⟨hcfg, hn, by rw [State.configWord, State.configWord, hcfg, hn], hf.trans noFault⟩

/-! ### The contexts -/

/-- Settles O57: each kind of step is about one context at most, a Reset apart. -/
theorem contextsArePrivate : Obligations.ContextsArePrivate := by
  intro s t c h changed
  cases step_cases h with
  | regRead off es r hs hr ho => exact absurd (State.ctx_of_ctxs (State.answer_ctxs _ _) c) changed
  | writeArg es c' r v hs hc hb =>
    obtain rfl : c = c' := by
      by_contra hne
      exact changed (State.ctx_writeArg_ne _ _ _ _ _ hne)
    exact .inr (.inr (.inl ⟨es, r, v, hs⟩))
  | issue es c' v i t hs hc hb hd ht =>
    obtain rfl : c = c' := by
      by_contra hne
      exact changed (((exec_issue_next rfl ht).ctx_ne hne).trans (State.ctx_writeCmd_ne _ _ _ _ hne))
    exact .inr (.inl ⟨es, v, hs⟩)
  | reset es t hs ht => exact .inl ⟨es, hs⟩
  | perform es c' t hs hc hb ht =>
    obtain rfl : c = c' := by
      by_contra hne
      exact changed ((exec_perform_next rfl ht).ctx_ne hne)
    obtain hs | ⟨hs, -, lowest⟩ := hs
    · exact .inr (.inr (.inr (.inl ⟨es, hs⟩)))
    · exact .inr (.inr (.inr (.inr ⟨hs, hb, lowest⟩)))
  | memReadRace | memRead | memWrite | final => exact absurd rfl changed

/-! ### The result registers -/

/-- The two contexts hold the same results (R49). -/
structure Context.SameResults (k k' : Context) : Prop where
  resLen : k'.resLen = k.resLen
  resRem : k'.resRem = k.resRem
  resOutStart : k'.resOutStart = k.resOutStart

theorem Context.SameResults.refl (k : Context) : k.SameResults k :=
  ⟨rfl, rfl, rfl⟩

theorem Context.SameResults.trans {k₁ k₂ k₃ : Context} (h : k₁.SameResults k₂) (h' : k₂.SameResults k₃) :
    k₁.SameResults k₃ :=
  ⟨h'.resLen.trans h.resLen, h'.resRem.trans h.resRem, h'.resOutStart.trans h.resOutStart⟩

theorem Context.sameResults_writeArg (k : Context) (r : ArgReg) (v : Word) : k.SameResults (k.writeArg r v) :=
  ⟨k.writeArg_resLen v r, k.writeArg_resRem v r, k.writeArg_resOutStart v r⟩

/-- Replacing a context by one with the same results changes no context's results. -/
theorem State.sameResults_setCtx {k : Context} (h : (s.ctx c).SameResults k) (c' : Nat) :
    (s.ctx c').SameResults ((s.setCtx c k).ctx c') := by
  by_cases hc : c < s.nCtx
  · rw [State.ctx_setCtx _ _ _ _ hc]
    split
    · rename_i e; subst e; exact h
    · exact .refl _
  · rw [State.setCtx, List.set_eq_of_length_le (not_lt.mp hc)]
    exact .refl _

/-- The end of a command changes no results. -/
theorem State.sameResults_complete {u : State} (hu : u.ctxs = s.ctxs) (c c' : Nat) :
    (s.ctx c').SameResults ((u.complete c).ctx c') := by
  rw [← State.ctx_of_ctxs hu]
  exact State.sameResults_setCtx (k := (u.ctx c).performed) ⟨rfl, rfl, rfl⟩ c'

/-- An issue changes no results. -/
theorem IssueCase.sameResults (h : IssueCase s c i t) (c' : Nat) : (s.ctx c').SameResults (t.ctx c') := by
  obtain ⟨l, -, rfl, -⟩ := h.checked
  exact State.sameResults_setCtx (k := (s.ctx c).issued l) ⟨rfl, rfl, rfl⟩ c'

/-- A Perform of a command other than ENCODE changes no results. -/
theorem PerformCase.sameResults (h : PerformCase s c i t) (hi : i.isEncode ≠ true) (c' : Nat) :
    (s.ctx c').SameResults (t.ctx c') := by
  cases h with
  | encode p so rr strat ha => exact absurd (encodeForm_isEncode p so rr strat) hi
  | _ => exact State.sameResults_complete rfl c c'

/-- What can happen to the results of a context in one step. -/
theorem step_results (h : step s = .next t) (c : Nat) :
    (∃ es, s.schedule = .reset :: es) ∨
      ((s.ctx c).busy = true ∧ (s.ctx c).latch.cmd.isEncode = true ∧ (t.ctx c).busy = false ∧ (t.ctx c).done = true) ∨
        (s.ctx c).SameResults (t.ctx c) := by
  cases step_cases h with
  | regRead off es r hs hr ho =>
    rw [State.ctx_of_ctxs (State.answer_ctxs _ _) c]
    exact .inr (.inr (.refl _))
  | writeArg es c' r v hs hc hb =>
    exact .inr (.inr (State.sameResults_setCtx (s := { s with schedule := es }) (Context.sameResults_writeArg _ r v) c))
  | issue es c' v i t hs hc hb hd ht =>
    have written :=
      State.sameResults_setCtx (s := { s with schedule := es }) (k := (s.ctx c').writeCmd v) ⟨rfl, rfl, rfl⟩ c
    exact .inr (.inr (written.trans ((exec_issue_next rfl ht).sameResults c)))
  | reset es t hs ht => exact .inl ⟨es, hs⟩
  | perform es c' t hs hc hb ht =>
    have performed := exec_perform_next rfl ht
    by_cases hne : c = c'
    · subst hne
      by_cases encodes : (s.ctx c).latch.cmd.isEncode = true
      · exact .inr (.inl ⟨hb, encodes, performed.ends hc⟩)
      · exact .inr (.inr (performed.sameResults encodes c))
    · rw [performed.ctx_ne hne]
      exact .inr (.inr (.refl _))
  | memReadRace | memRead | memWrite | final => exact .inr (.inr (.refl _))

/-- Settles O47: where a result differs, the results are not the same. -/
theorem resultsChangeOnlyByEncode : Obligations.ResultsChangeOnlyByEncode := by
  intro s t c h _ changed
  obtain reset | ended | same := step_results h c
  · exact .inl reset
  · exact .inr ended
  · obtain hn | hn | hn := changed
    · exact absurd same.resLen hn
    · exact absurd same.resRem hn
    · exact absurd same.resOutStart hn

/-! ### The Perform of an engine -/

/-- The lowest busy context is the one that performs when no host step is left (log 6). -/
theorem State.firstBusy_of_lowest (hb : (s.ctx c).busy = true) (lowest : ∀ c' < c, (s.ctx c').busy = false) :
    s.firstBusy = some c := by
  rw [State.firstBusy, List.find?_range_eq_some]
  exact ⟨hb, List.mem_range.mpr (State.busy_lt hb), fun c' hc' => by rw [lowest c' hc']; rfl⟩

/-- Settles O13: both ways to a Perform come to the same step of the engine. -/
theorem performRunsLatched : Obligations.PerformRunsLatched := by
  intro s es c live hb hs
  rw [step_of_live live]
  obtain hs | ⟨hs, rfl, lowest⟩ := hs
  · simp only [hs, agentStep, engineStep]
    rw [if_pos (show (State.ctx { s with schedule := es } c).busy = true from hb)]
    rfl
  · simp only [hs, idleStep, State.firstBusy_of_lowest hb lowest, engineStep, if_pos hb]

/-- Settles O14: Perform is enabled by BUSY alone. -/
theorem idlePerformRefused : Obligations.IdlePerformRefused := by
  intro s es c live hb hs
  have idle : ¬ (State.ctx { s with schedule := es } c).busy = true := Bool.eq_false_iff.mp hb
  simp only [step_of_live live, hs, agentStep, engineStep, if_neg idle]

/-- Settles O49: the reset state is a power-on, whose contexts are all as R59 has them. -/
theorem resetState : Obligations.ResetState := by
  refine ⟨rfl, rfl, rfl, rfl, rfl, by decide, fun c _ => ?_⟩
  rw [State.reset, State.ctx_powerOn]
  exact ⟨by decide, rfl, rfl, rfl⟩

end Sys2Proof.Machine
end

section
/-! PROOFS. The contents of JUMP and JUMP_TABLE have no effect (10_state.md R40; 40_table_build.md R149; 41_encode.md
R192): a machine and the same machine with other contents take the same steps, JUMP and JUMP_TABLE apart. -/

namespace Sys2Proof.Machine

/-- The state with other contents of JUMP and JUMP_TABLE. -/
def State.withJump (s : State) (j jt : List Byte) : State :=
  { s with jump := j, cfg := { s.cfg with jumpTable := jt } }

/-- The two outcomes are the same, but that JUMP may differ and that JUMP_TABLE is `jt` in the second. -/
inductive SameButJump (jt : List Byte) : Result → Result → Prop
  | next (t : State) (j : List Byte) : SameButJump jt (.next t) (.next (t.withJump j jt))
  | fault (f : Fault) : SameButJump jt (.fault f) (.fault f)
  | refused (r : Refusal) : SameButJump jt (.refused r) (.refused r)

/-- The two actions are the same, but for JUMP and JUMP_TABLE in the states they run in or leave. -/
inductive Action.SameButJump (jt : List Byte) : Action → Action → Prop
  | run (i : Instr) (s : State) (j : List Byte) : Action.SameButJump jt (.run i s) (.run i (s.withJump j jt))
  | done {o o' : Result} (h : Machine.SameButJump jt o o') : Action.SameButJump jt (.done o) (.done o')

variable (s : State) (j jt : List Byte) (c : Nat)

theorem SameButJump.agree {jt : List Byte} {o o' : Result} (h : SameButJump jt o o') :
    (∀ f, o = .fault f → o' = .fault f) ∧ (∀ r, o = .refused r → o' = .refused r) ∧
      ∀ t, o = .next t → ∃ j, o' = .next (t.withJump j jt) := by
  cases h with
  | next t j => exact ⟨fun _ h => (nomatch h), fun _ h => (nomatch h), fun _ h => ⟨j, by cases h; rfl⟩⟩
  | fault f => exact ⟨fun _ h => h, fun _ h => (nomatch h), fun _ h => (nomatch h)⟩
  | refused r => exact ⟨fun _ h => (nomatch h), fun _ h => h, fun _ h => (nomatch h)⟩

theorem SameButJump.faultOr (f : Option Fault) (t : State) :
    SameButJump jt (Machine.faultOr f t) (Machine.faultOr f (t.withJump j jt)) := by
  cases f with
  | none => exact .next t j
  | some r => exact .fault r

/-! ### The commands -/

theorem SameButJump.byTurn {issue perform : Nat → State → Result}
    (hi : ∀ c, SameButJump jt (issue c s) (issue c (s.withJump j jt)))
    (hp : ∀ c, SameButJump jt (perform c s) (perform c (s.withJump j jt))) :
    SameButJump jt (s.byTurn issue perform) ((s.withJump j jt).byTurn issue perform) := by
  cases hturn : s.turn with
  | issue c =>
    rw [byTurn_issue hturn, byTurn_issue (show (s.withJump j jt).turn = .issue c from hturn)]
    exact hi c
  | perform c =>
    rw [byTurn_perform hturn, byTurn_perform (show (s.withJump j jt).turn = .perform c from hturn)]
    exact hp c

/-- The checks and the latch of an ENCODE's issue read neither JUMP nor JUMP_TABLE. -/
theorem issueEncode_withJump (i : Instr) (m : Mode) :
    SameButJump jt (issueEncode i m c s) (issueEncode i m c (s.withJump j jt)) :=
  .faultOr j jt _ (s.issue c (s.encodeLatch i m c))

/-- An ENCODE's Perform reads neither JUMP nor JUMP_TABLE (R192). -/
theorem performEncode_withJump (rr : Bool) :
    SameButJump jt (performEncode rr c s) (performEncode rr c (s.withJump j jt)) :=
  .faultOr j jt _ ((s.encodeEffect rr c).complete c)

/-- A command has the same outcome with other contents; the Perform of BUILD_JUMP makes JUMP the JUMP_TABLE. -/
theorem exec_withJump (i : Instr) : SameButJump jt (exec i s) (exec i (s.withJump j jt)) := by
  rcases instr_kinds i with rfl | rfl | rfl | rfl | ⟨p, so, rr, strat, rfl⟩
  · exact .byTurn s j jt (fun c => .faultOr j jt _ (s.issue c _))
      fun c => .next (State.complete { s with table := s.cfg.codeTable, tableBuilt := true } c) j
  · exact .byTurn s j jt (fun c => .faultOr j jt _ (s.issue c _))
      fun c => .next (State.complete { s with flat := flatten s.table, flatBuilt := true } c) j
  · exact .byTurn s j jt (fun c => .faultOr j jt _ (s.issue c _))
      fun c => .next (State.complete { s with jump := s.cfg.jumpTable, jumpBuilt := true } c) jt
  · exact .byTurn s j jt (fun c => .faultOr j jt _ (s.issue c _)) fun c => .next (State.complete _ c) j
  · rw [exec_encodeForm, exec_encodeForm]
    exact .byTurn s j jt (fun c => issueEncode_withJump s j jt c _ _) fun c => performEncode_withJump s j jt c _

/-! ### The agents -/

theorem State.readReg_withJump (r : Reg) : (s.withJump j jt).readReg r = s.readReg r := by
  cases r <;> rfl

theorem State.answer_withJump (x : ReadValue) : (s.withJump j jt).answer x = (s.answer x).withJump j jt := by
  cases x <;> rfl

theorem State.abandon_withJump : (s.withJump j jt).abandon c = (s.abandon c).withJump j jt := by
  have flight : (s.withJump j jt).inFlight Instr.isEncode c = s.inFlight Instr.isEncode c := rfl
  rw [State.abandon, State.abandon, flight]
  split <;> rfl

theorem State.abandonAll_withJump : (s.withJump j jt).abandonAll = s.abandonAll.withJump j jt := by
  have step (u : State) (c : Nat) : (u.withJump j jt).abandon c = (u.abandon c).withJump j jt :=
    u.abandon_withJump j jt c
  exact List.foldl_hom (l := List.range s.nCtx) (init := s) (fun u => u.withJump j jt) step

theorem regRead_withJump (offset width : Nat) :
    SameButJump jt (regRead offset width s) (regRead offset width (s.withJump j jt)) := by
  have target : busTarget (s.withJump j jt).nCtx offset width = busTarget s.nCtx offset width := rfl
  unfold regRead
  rw [target]
  split
  · exact .fault _
  · rw [State.readReg_withJump, State.answer_withJump]
    exact .next _ j

theorem memRead_withJump (a : Addr) : SameButJump jt (memRead a s) (memRead a (s.withJump j jt)) := by
  have flight : (s.withJump j jt).inFlightDst a.toNat = s.inFlightDst a.toNat := rfl
  unfold memRead
  rw [flight]
  split
  · exact .next { s with reply := .byte (Config.freeByte s.draws), draws := s.draws + 1 } j
  · exact .next { s with reply := .byte (s.mem.read a.toNat) } j

theorem memWrite_withJump (a : Addr) (v : Byte) : SameButJump jt (memWrite a v s) (memWrite a v (s.withJump j jt)) :=
  .faultOr j jt _ { s with mem := s.mem.write a.toNat v }

theorem resetStep_withJump : SameButJump jt (resetStep s) (resetStep (s.withJump j jt)) := by
  unfold resetStep
  rw [State.abandonAll_withJump]
  exact .next _ _

theorem regWrite_withJump (offset width : Nat) (v : Word) :
    Action.SameButJump jt (regWrite offset width v s) (regWrite offset width v (s.withJump j jt)) := by
  have target : (s.withJump j jt).busWrite offset width = s.busWrite offset width := rfl
  unfold regWrite
  rw [target]
  split
  · exact .done (.fault _)
  · exact .done (.next (s.writeArg _ _ v) j)
  · split
    · exact .done (.fault _)
    · exact .run _ (s.writeCmd _ v) j

theorem engineStep_withJump : Action.SameButJump jt (engineStep c s) (engineStep c (s.withJump j jt)) := by
  have same : (s.withJump j jt).ctx c = s.ctx c := rfl
  unfold engineStep
  rw [same]
  split
  · exact .run _ { s with turn := .perform c } j
  · exact .done (.refused _)

theorem agentStep_withJump (e : Event) :
    Action.SameButJump jt (agentStep e s) (agentStep e (s.withJump j jt)) := by
  cases e with
  | regRead offset width => exact .done (regRead_withJump s j jt offset width)
  | regWrite offset width v => exact regWrite_withJump s j jt offset width v
  | memRead a => exact .done (memRead_withJump s j jt a)
  | memWrite a v => exact .done (memWrite_withJump s j jt a v)
  | reset => exact .done (resetStep_withJump s j jt)
  | perform c => exact engineStep_withJump s j jt c

theorem idleStep_withJump : Action.SameButJump jt (idleStep s) (idleStep (s.withJump j jt)) := by
  have same : (s.withJump j jt).firstBusy = s.firstBusy := rfl
  unfold idleStep
  rw [same]
  split
  · exact engineStep_withJump s j jt _
  · exact .done (.next s j)

/-! ### The step -/

theorem configWf_withJumpTable {cfg : Config} {jt : List Byte} (h : jumpTableWf cfg.jumpTable = true)
    (hjt : jumpTableWf jt = true) : Config.wf { cfg with jumpTable := jt } = cfg.wf := by
  rw [Config.wf, Config.wf, h, hjt]

variable {s jt} (h : jumpTableWf s.cfg.jumpTable = true) (hjt : jumpTableWf jt = true)
include h hjt

theorem nextAction_withJump : Action.SameButJump jt (nextAction s) (nextAction (s.withJump j jt)) := by
  have scope : (nCtxWf (s.withJump j jt).nCtx && (s.withJump j jt).cfg.wf) = (nCtxWf s.nCtx && s.cfg.wf) :=
    congrArg (nCtxWf s.nCtx && ·) (configWf_withJumpTable h hjt)
  have fault : (s.withJump j jt).fault = s.fault := rfl
  have schedule : (s.withJump j jt).schedule = s.schedule := rfl
  unfold nextAction
  rw [scope, fault, schedule]
  split
  · exact .done (.refused _)
  · split
    · exact .done (.fault _)
    · split
      · exact idleStep_withJump s j jt
      · rename_i es _
        exact agentStep_withJump { s with schedule := es } j jt _

theorem step_withJump : SameButJump jt (step s) (step (s.withJump j jt)) := by
  have same := nextAction_withJump j h hjt
  unfold step
  generalize nextAction s = a, nextAction (s.withJump j jt) = a' at same
  cases same with
  | run i s j => exact exec_withJump s j jt i
  | done h => exact h

omit h hjt

/-- Settles O48: the two steps have the same outcome but for JUMP and JUMP_TABLE. -/
theorem jumpTableHasNoEffect : Obligations.JumpTableHasNoEffect :=
  fun _ j _ h hjt => (step_withJump j h hjt).agree

end Sys2Proof.Machine
end

section
/-! PROOFS. The code table (10_state.md R32-R37): the model's bit-set check says that no code begins another,
and MAX_CODE_LEN. -/

namespace Sys2Proof

variable {table : List Code} {c d : Code}

/-! ### A table and its entries -/

theorem codeAt_eq_getElem {sym : Nat} (h : sym < table.length) : codeAt table sym = table[sym] :=
  List.getD_eq_getElem _ _ h

theorem map_codeAt (h : table.length = 257) : (List.range 257).map (codeAt table) = table := by
  refine List.ext_getElem (by simp [h]) fun sym _ hsym => ?_
  rw [List.getElem_map, List.getElem_range, codeAt_eq_getElem hsym]

theorem forall_mem_iff_codeAt (h : table.length = 257) (p : Code → Prop) :
    (∀ c ∈ table, p c) ↔ ∀ sym ≤ 256, p (codeAt table sym) := by
  conv_lhs => rw [← map_codeAt h]
  simp only [List.forall_mem_map, List.mem_range, Nat.lt_succ_iff]

/-- The Kraft sum is over the symbols 0..256. -/
theorem kraftSum_eq (h : table.length = 257) :
    kraftSum table = ((List.range 257).map fun sym => 2 ^ (16 - (codeAt table sym).len.toNat)).sum := by
  conv_lhs => rw [kraftSum, ← map_codeAt h, List.map_map]
  rfl

/-! ### Codes as bit sets (R35) -/

/-- The 16-bit strings of a code are those whose top `len` bits are its pattern. -/
theorem Code.testBit_windows (c : Code) (x : Nat) :
    c.windows.testBit x = true ↔ x >>> (16 - c.len.toNat) = c.pat.toNat := by
  rw [Code.windows, Nat.testBit_shiftLeft, Nat.shiftLeft_eq 1, Nat.shiftLeft_eq 1, one_mul, one_mul,
    Nat.testBit_two_pow_sub_one, Nat.shiftLeft_eq, Nat.shiftRight_eq_div_pow, Nat.div_eq_iff (Nat.two_pow_pos _)]
  have pos := Nat.two_pow_pos (16 - c.len.toNat)
  simp only [Config.codeWidth, Bool.and_eq_true, decide_eq_true_eq]
  omega

/-- The model's check is that no two codes share a string, nor one with what is taken. -/
theorem prefixFreeFrom_iff (taken : Nat) (codes : List Code) :
    prefixFreeFrom taken codes = true ↔
      (∀ c ∈ codes, taken &&& c.windows = 0) ∧ codes.Pairwise fun c d => c.windows &&& d.windows = 0 := by
  induction codes generalizing taken with
  | nil => simp [prefixFreeFrom]
  | cons c codes ih =>
    simp only [prefixFreeFrom, Bool.and_eq_true, beq_iff_eq, ih, Nat.and_or_distrib_right, Nat.or_eq_zero_iff,
      forall_and, List.forall_mem_cons, List.pairwise_cons]
    tauto

theorem Code.length_bits (c : Code) : c.bits.length = c.len.toNat := by
  simp [Code.bits, codeBits]

/-- A code's bits are those of its pattern, most significant first (00_scope.md R16). -/
theorem Code.getElem_bits (c : Code) {k : Nat} (h : k < c.bits.length) :
    c.bits[k] = c.pat.toNat.testBit (c.len.toNat - 1 - k) := by
  have := c.len.isLt
  simp only [Code.bits, codeBits, List.getElem_map, List.getElem_range, BitVec.truncate_eq_setWidth,
    BitVec.getLsbD_setWidth, BitVec.testBit_toNat]
  rw [decide_eq_true (by omega), Bool.true_and]

/-- A code without stray bits begins another exactly when it is the other's top bits. -/
theorem Code.bits_prefix_iff (hc : c.pat.toNat < 2 ^ c.len.toNat) (hd : d.pat.toNat < 2 ^ d.len.toNat) :
    c.bits <+: d.bits ↔ c.len.toNat ≤ d.len.toNat ∧ d.pat.toNat >>> (d.len.toNat - c.len.toNat) = c.pat.toNat := by
  rw [List.prefix_iff_getElem]
  simp only [Code.getElem_bits, Code.length_bits, exists_prop]
  refine and_congr_right fun hlen => ⟨fun h => Nat.eq_of_testBit_eq fun j => ?_, fun h i hi => ?_⟩
  · rw [Nat.testBit_shiftRight]
    by_cases hj : j < c.len.toNat
    · have := h (c.len.toNat - 1 - j) (by omega)
      rw [show c.len.toNat - 1 - (c.len.toNat - 1 - j) = j by omega] at this
      rw [this]
      congr 1
      omega
    · rw [Nat.testBit_lt_two_pow (hc.trans_le (Nat.pow_le_pow_right two_pos (not_lt.mp hj))),
        Nat.testBit_lt_two_pow (hd.trans_le (Nat.pow_le_pow_right two_pos (by omega)))]
  · rw [← h, Nat.testBit_shiftRight]
    congr 1
    omega

/-- A shorter code shares a 16-bit string with a longer one exactly when it begins it. -/
theorem Code.windows_meet_iff_of_le (hc : c.pat.toNat < 2 ^ c.len.toNat) (hd : d.pat.toNat < 2 ^ d.len.toNat)
    (hlen : c.len.toNat ≤ d.len.toNat) (h16 : d.len.toNat ≤ 16) :
    c.windows &&& d.windows ≠ 0 ↔ c.bits <+: d.bits := by
  rw [Code.bits_prefix_iff hc hd, and_iff_right hlen]
  constructor
  · intro h
    obtain ⟨x, hx⟩ := Nat.exists_testBit_of_ne_zero h
    rw [Nat.testBit_and, Bool.and_eq_true, Code.testBit_windows, Code.testBit_windows] at hx
    rw [← hx.1, ← hx.2, ← Nat.shiftRight_add]
    congr 1
    omega
  · intro h hzero
    have shared : (c.windows &&& d.windows).testBit (d.pat.toNat <<< (16 - d.len.toNat)) = true := by
      have hpat : d.pat.toNat <<< (16 - d.len.toNat) >>> (16 - d.len.toNat) = d.pat.toNat :=
        Nat.shiftLeft_shiftRight _ _
      rw [Nat.testBit_and, Bool.and_eq_true, Code.testBit_windows, Code.testBit_windows]
      refine ⟨?_, hpat⟩
      rw [show 16 - c.len.toNat = 16 - d.len.toNat + (d.len.toNat - c.len.toNat) by omega, Nat.shiftRight_add, hpat, h]
    rw [hzero, Nat.zero_testBit] at shared
    cases shared

/-- Two codes share a 16-bit string exactly when one begins the other. -/
theorem Code.windows_disjoint_iff (hc : c.pat.toNat < 2 ^ c.len.toNat) (hd : d.pat.toNat < 2 ^ d.len.toNat)
    (hc16 : c.len.toNat ≤ 16) (hd16 : d.len.toNat ≤ 16) :
    c.windows &&& d.windows = 0 ↔ ¬ c.bits <+: d.bits ∧ ¬ d.bits <+: c.bits := by
  have eq_of_longer : ∀ {c d : Code}, c.len.toNat ≤ d.len.toNat → d.bits <+: c.bits → c.bits <+: d.bits := by
    intro c d hlen h
    rw [h.eq_of_length_le (by rwa [Code.length_bits, Code.length_bits])]
  rw [← not_iff_not, not_and_or, not_not, not_not]
  rcases le_total c.len.toNat d.len.toNat with hlen | hlen
  · rw [← ne_eq, Code.windows_meet_iff_of_le hc hd hlen hd16]
    exact ⟨.inl, fun h => h.elim id (eq_of_longer hlen)⟩
  · rw [Nat.and_comm, ← ne_eq, Code.windows_meet_iff_of_le hd hc hlen hc16]
    exact ⟨.inr, fun h => h.elim (eq_of_longer hlen) id⟩

/-- Of codes with legal lengths and no stray bits, the model's check says that none begins another (R35). -/
theorem prefixFree_iff (h : table.length = 257) (hlen : ∀ c ∈ table, c.len.toNat ≤ 16)
    (hpat : ∀ c ∈ table, c.pat.toNat < 2 ^ c.len.toNat) :
    prefixFreeFrom 0 table = true ↔
      ∀ a ≤ 256, ∀ b ≤ 256, a ≠ b → ¬ (codeAt table a).bits <+: (codeAt table b).bits := by
  have disjoint : ∀ {a b : Nat} (ha : a < table.length) (hb : b < table.length),
      table[a].windows &&& table[b].windows = 0 ↔
        ¬ (codeAt table a).bits <+: (codeAt table b).bits ∧ ¬ (codeAt table b).bits <+: (codeAt table a).bits := by
    intro a b ha hb
    rw [codeAt_eq_getElem ha, codeAt_eq_getElem hb]
    have ma := List.getElem_mem ha
    have mb := List.getElem_mem hb
    exact Code.windows_disjoint_iff (hpat _ ma) (hpat _ mb) (hlen _ ma) (hlen _ mb)
  simp only [prefixFreeFrom_iff, Nat.zero_and, implies_true, true_and, List.pairwise_iff_getElem]
  constructor
  · intro free a ha b hb hne
    rcases Nat.lt_or_gt_of_ne hne with hlt | hlt
    · exact ((disjoint _ _).mp (free a b (by omega) (by omega) hlt)).1
    · exact ((disjoint _ _).mp (free b a (by omega) (by omega) hlt)).2
  · intro free a b ha hb hlt
    exact (disjoint ha hb).mpr ⟨free a (by omega) b (by omega) hlt.ne, free b (by omega) a (by omega) hlt.ne'⟩

/-! ### The accepted tables -/

theorem Code.lenInRange_iff (c : Code) : c.lenInRange = true ↔ 1 ≤ c.len.toNat ∧ c.len.toNat ≤ 16 := by
  simp [Code.lenInRange]

theorem Code.noStrayBits_iff (c : Code) : c.noStrayBits = true ↔ c.pat.toNat < 2 ^ c.len.toNat := by
  simp [Code.noStrayBits]

/-- The check of a table, clause by clause. -/
theorem codeTableWf_iff :
    codeTableWf table = true ↔
      table.length = 257 ∧ (∀ c ∈ table, 1 ≤ c.len.toNat ∧ c.len.toNat ≤ 16) ∧
        (∀ c ∈ table, c.pat.toNat < 2 ^ c.len.toNat) ∧ prefixFreeFrom 0 table = true ∧ kraftSum table = 2 ^ 16 ∧
        codeAt table 64 = ⟨5#5, 0x0A#16⟩ ∧ codeAt table 256 = ⟨4#5, 0x0D#16⟩ := by
  simp only [codeTableWf, pinnedEntries, Bool.and_eq_true, decide_eq_true_eq, List.all_eq_true, Code.lenInRange_iff,
    Code.noStrayBits_iff]
  tauto

/-! ### MAX_CODE_LEN (R37) -/

theorem foldl_max_len_le_iff (codes : List Code) (m b : Nat) :
    codes.foldl (fun m c => max m c.len.toNat) m ≤ b ↔ m ≤ b ∧ ∀ c ∈ codes, c.len.toNat ≤ b := by
  induction codes generalizing m with
  | nil => simp
  | cons c codes ih => simp [ih, and_assoc]

/-- MAX_CODE_LEN is the least bound of the lengths. -/
theorem Config.maxCodeLen_le_iff (cfg : Config) (b : Nat) :
    cfg.maxCodeLen ≤ b ↔ ∀ c ∈ cfg.codeTable, c.len.toNat ≤ b := by
  simp [Config.maxCodeLen, foldl_max_len_le_iff]

/-- 257 codes of at most 8 bits would pass the Kraft sum: a complete code has one of 9 bits or more. -/
theorem Config.nine_le_maxCodeLen {cfg : Config} (h : codeTableWf cfg.codeTable = true) : 9 ≤ cfg.maxCodeLen := by
  obtain ⟨hlen, -, -, -, kraft, -⟩ := codeTableWf_iff.mp h
  by_contra hlt
  have short : ∀ c ∈ cfg.codeTable, c.len.toNat ≤ 8 := (cfg.maxCodeLen_le_iff 8).mp (by omega)
  have large : cfg.codeTable.length • 2 ^ 8 ≤ kraftSum cfg.codeTable := by
    rw [kraftSum, ← List.length_map (f := fun c : Code => 2 ^ (Config.codeWidth - c.len.toNat))]
    refine List.card_nsmul_le_sum _ _ (List.forall_mem_map.mpr fun c hc => ?_)
    exact Nat.pow_le_pow_right two_pos (Nat.le_sub_of_add_le (Nat.add_le_add_left (short c hc) 8))
  rw [hlen, kraft] at large
  exact absurd large (by decide)

/-- A bound that is not 0 and the least one is the length of some code. -/
theorem Config.maxCodeLen_attained {cfg : Config} (h : 0 < cfg.maxCodeLen) :
    ∃ c ∈ cfg.codeTable, c.len.toNat = cfg.maxCodeLen := by
  by_contra unattained
  have below : ∀ c ∈ cfg.codeTable, c.len.toNat ≤ cfg.maxCodeLen - 1 := by
    intro c hc
    have := (cfg.maxCodeLen_le_iff _).mp le_rfl c hc
    have : c.len.toNat ≠ cfg.maxCodeLen := fun he => unattained ⟨c, hc, he⟩
    omega
  have := (cfg.maxCodeLen_le_iff _).mpr below
  omega

end Sys2Proof

namespace Sys2Proof.Machine

/-- Settles O26: each clause of the check is the rule's, read symbol by symbol. -/
theorem acceptedCodeTables : Obligations.AcceptedCodeTables := by
  refine ⟨fun s h => step_of_illFormed (.inr (by rw [Config.wf, h, Bool.and_false])), fun table => ?_⟩
  rw [codeTableWf_iff]
  refine and_congr_right fun h => ?_
  rw [← forall_mem_iff_codeAt h fun c => 1 ≤ c.len.toNat ∧ c.len.toNat ≤ 16,
    ← forall_mem_iff_codeAt h fun c => c.pat.toNat < 2 ^ c.len.toNat, ← kraftSum_eq h]
  refine and_congr_right fun hlen => and_congr_right fun hpat => and_congr_left fun _ => ?_
  exact prefixFree_iff h (fun c hc => (hlen c hc).2) hpat

/-- CONFIG holds MAX_CODE_LEN in bits 15:8: N_CTX lies below them and CODE_W above (10_state.md R52). -/
theorem State.configWord_maxCodeLen (s : State) (h : s.cfg.maxCodeLen ≤ 16) :
    (s.configWord.extractLsb' 8 8).toNat = s.cfg.maxCodeLen := by
  have below : (BitVec.ofNat 32 (s.nCtx % 256)).extractLsb' 8 8 = 0#8 := by
    have := Nat.mod_lt s.nCtx (show 256 > 0 by decide)
    refine BitVec.eq_of_toNat_eq ?_
    rw [BitVec.extractLsb'_toNat, BitVec.toNat_ofNat, Nat.shiftRight_eq_div_pow]
    simp only [BitVec.toNat_ofNat]
    omega
  have above : (BitVec.ofNat 32 Config.codeWidth <<< 16).extractLsb' 8 8 = 0#8 := by decide
  have here : (BitVec.ofNat 32 (s.cfg.maxCodeLen % 256) <<< 8).extractLsb' 8 8 = BitVec.ofNat 8 s.cfg.maxCodeLen := by
    generalize s.cfg.maxCodeLen = m at h
    interval_cases m <;> rfl
  rw [State.configWord, BitVec.extractLsb'_or, BitVec.extractLsb'_or, below, above, here, BitVec.or_zero,
    BitVec.zero_or, BitVec.toNat_ofNat, Nat.mod_eq_of_lt (by omega)]

/-- Settles O27: the length that bounds the lengths is attained, as it is not 0. -/
theorem maxCodeLenRange : Obligations.MaxCodeLenRange := by
  intro cfg h
  have hwf : codeTableWf cfg.codeTable = true := (Bool.and_eq_true_iff.mp h).2
  obtain ⟨hlen, range, -⟩ := codeTableWf_iff.mp hwf
  have nine := cfg.nine_le_maxCodeLen hwf
  have sixteen : cfg.maxCodeLen ≤ 16 := (cfg.maxCodeLen_le_iff 16).mpr fun c hc => (range c hc).2
  refine ⟨?_, ?_, nine, sixteen, fun s hs => hs ▸ s.configWord_maxCodeLen (hs ▸ sixteen)⟩
  · rw [← forall_mem_iff_codeAt hlen fun c => c.len.toNat ≤ cfg.maxCodeLen]
    exact (cfg.maxCodeLen_le_iff _).mp le_rfl
  · obtain ⟨c, hc, hmax⟩ := Config.maxCodeLen_attained (by omega : 0 < cfg.maxCodeLen)
    rw [← map_codeAt hlen, List.mem_map] at hc
    obtain ⟨sym, hsym, rfl⟩ := hc
    exact ⟨sym, Nat.le_of_lt_succ (List.mem_range.mp hsym), hmax⟩

end Sys2Proof.Machine
end

section
/-! PROOFS. The size of an ENCODE's output: from a FLAT that is the view of a code table, the code of each symbol is the
table's, and OUT fits the destination bound (41_encode.md R161-R168, R170). -/

namespace Sys2Proof.Machine

/-! ### FLAT as the view of a code table (40_table_build.md R144) -/

theorem flatAt_flatten_len (table : List Code) (sym : Nat) :
    flatAt (flatten table) (2 * sym) = (codeAt table sym).len.zeroExtend 32 := by
  induction table generalizing sym with
  | nil => rfl
  | cons c cs ih =>
    cases sym with
    | zero => rfl
    | succ sym => exact ih sym

theorem flatAt_flatten_pat (table : List Code) (sym : Nat) :
    flatAt (flatten table) (2 * sym + 1) = (codeAt table sym).pat.zeroExtend 32 := by
  induction table generalizing sym with
  | nil => rfl
  | cons c cs ih =>
    cases sym with
    | zero => rfl
    | succ sym => exact ih sym

/-- The code that an ENCODE reads for a symbol from FLAT is the one in the table (41_encode.md R170). -/
theorem symbolBits_flatten (table : List Code) (sym : Nat) :
    symbolBits (flatten table) sym = (codeAt table sym).bits := by
  rw [symbolBits, flatAt_flatten_len, flatAt_flatten_pat, Code.bits, BitVec.toNat_setWidth_of_le (by decide)]

theorem encodeBits_flatten (table : List Code) (input : List Byte) :
    encodeBits (flatten table) input = tableBits table input := by
  simp only [encodeBits, tableBits, symbolBits_flatten, List.flatMap]

/-! ### The length of the output -/

theorem codeAt_len_le_maxCodeLen (cfg : Config) (sym : Nat) :
    (codeAt cfg.codeTable sym).len.toNat ≤ cfg.maxCodeLen := by
  by_cases h : sym < cfg.codeTable.length
  · rw [codeAt_eq_getElem h]
    exact (cfg.maxCodeLen_le_iff _).mp le_rfl _ (List.getElem_mem h)
  · rw [codeAt, List.getD_eq_default _ _ (not_lt.mp h)]
    exact Nat.zero_le _

/-- At most MAX_CODE_LEN bits for each byte, and the terminator's 4 (10_state.md R36; 41_encode.md R166). -/
theorem length_tableBits_le {cfg : Config} (h : codeTableWf cfg.codeTable = true) (input : List Byte) :
    (tableBits cfg.codeTable input).length ≤ cfg.maxCodeLen * input.length + 4 := by
  obtain ⟨-, -, -, -, -, -, terminator⟩ := codeTableWf_iff.mp h
  have symbols :
      (input.map fun b => (codeAt cfg.codeTable b.toNat).bits).flatten.length ≤ cfg.maxCodeLen * input.length := by
    induction input with
    | nil => exact Nat.zero_le _
    | cons b bs ih =>
      have := codeAt_len_le_maxCodeLen cfg b.toNat
      simp only [List.map_cons, List.flatten_cons, List.length_append, Code.length_bits, List.length_cons, Nat.mul_succ]
      omega
  have last : (codeAt cfg.codeTable 256).bits.length = 4 := by rw [Code.length_bits, terminator]; rfl
  rw [tableBits, List.length_append]
  omega

@[simp] theorem length_pack (bits : List Bool) : (pack bits).length = ceilDiv bits.length 8 := by
  simp [pack]

/-- OUT fits the destination bound (R168): the bound's extra byte holds the terminator. -/
theorem length_encodeOut_le_bound {cfg : Config} (h : codeTableWf cfg.codeTable = true) (input : List Byte) :
    (encodeOut (flatten cfg.codeTable) input).length ≤ cfg.bound input.length := by
  have bits := length_tableBits_le h input
  rw [encodeOut, length_pack, encodeBits_flatten, Config.bound, ceilDiv, ceilDiv]
  omega

/-! ### The bytes that a Perform writes -/

@[simp] theorem State.length_nextBytes (s : State) (n : Nat) : (s.nextBytes n).length = n := by
  simp [State.nextBytes]

/-- From a FLAT that is built, a Perform writes exactly its DstFP: OUT and the tail (R172, R173). -/
theorem State.length_encodeWrites {s : State} (hcfg : s.cfg.wf = true) (hflat : s.flat = flatten s.cfg.codeTable)
    (l : Latch) : (s.encodeWrites l).length = (l.dstFP s.cfg).size := by
  have fits : (s.encodeOutput l).length ≤ (l.dstFP s.cfg).size := by
    have := length_encodeOut_le_bound (Bool.and_eq_true_iff.mp hcfg).2 (s.mem.readBytes l.srcFP.base l.srcFP.size)
    rwa [Memory.length_readBytes, ← hflat] at this
  rw [State.encodeWrites, List.length_append, State.length_nextBytes, State.tailSize]
  omega

end Sys2Proof.Machine
end

section
/-! PROOFS. Host memory (20_memory.md): the host's accesses to a byte in flight (R95, R96), the bytes that an ENCODE may
not touch (R93), and all that a step can do to memory (R80, R82, R87). -/

namespace Sys2Proof.Machine

variable {s t : State} {c : Nat} {i : Instr}

/-! ### A byte that is not admitted (R93) -/

/-- The Perform of an ENCODE of which a footprint byte is not admitted faults. -/
theorem performEncode_not_admitted (rr : Bool) (h : ¬ (s.ctx c).latch.admitted s.cfg) :
    ∃ f, performEncode rr c s = .fault f := by
  cases hp : performEncode rr c s with
  | next t => exact absurd ((performEncode_next rr).mp hp).1 h
  | fault f => exact ⟨f, rfl⟩
  | refused r => exact absurd hp (faultOr_ne_refused _ _ r)

/-- Settles O39: the Perform's one check is of the footprint bytes, and records one that fails. -/
theorem encodeOutOfBoundsFaults : Obligations.EncodeOutOfBoundsFaults := by
  intro s c p so rr strat ht
  rw [exec_encodeForm_perform p so rr strat ht]
  refine ⟨fun ⟨a, inFootprint, notAdmitted⟩ => ?_, fun f hf => ?_⟩
  · have fails : ¬ (s.ctx c).latch.admitted s.cfg :=
      fun admitted => Bool.false_ne_true (notAdmitted.symm.trans (admitted a inFootprint))
    obtain ⟨f, hf⟩ := performEncode_not_admitted rr fails
    obtain ⟨b, rfl, hb, inFootprint'⟩ := performEncode_fault hf
    exact ⟨b, inFootprint', hb, hf⟩
  · obtain ⟨a, hfa, ha, -⟩ := performEncode_fault hf
    exact ⟨a, hfa, ha⟩

/-! ### The host's accesses (R95, R96) -/

theorem State.inFlightDst_eq_false_iff (s : State) (a : Nat) :
    s.inFlightDst a = false ↔
      ∀ c < s.nCtx, (s.ctx c).busy = true → (s.ctx c).latch.cmd.isEncode = true →
        ((s.ctx c).latch.dstFP s.cfg).contains a = false := by
  simp [State.inFlightDst, State.inFlight]

theorem State.inFlightSrc_eq_false_iff (s : State) (a : Nat) :
    s.inFlightSrc a = false ↔
      ∀ c < s.nCtx, (s.ctx c).busy = true → (s.ctx c).latch.cmd.isEncode = true →
        (s.ctx c).latch.srcFP.contains a = false := by
  simp [State.inFlightSrc, State.inFlight]

theorem step_memWrite {es : List Event} {a : Addr} {v : Byte} (hl : s.live) (hs : s.schedule = .memWrite a v :: es) :
    step s = faultOr (check (s.inFlightSrc a.toNat || s.inFlightDst a.toNat) (.hostRace a))
      { s with schedule := es, mem := s.mem.write a.toNat v } := by
  rw [step_of_live hl, hs]
  rfl

theorem step_memRead {es : List Event} {a : Addr} (hl : s.live) (hs : s.schedule = .memRead a :: es) :
    step s =
      if s.inFlightDst a.toNat then
        .next { s with schedule := es, reply := .byte (Config.freeByte s.draws), draws := s.draws + 1 }
      else .next { s with schedule := es, reply := .byte (s.mem.read a.toNat) } := by
  rw [step_of_live hl, hs]
  rfl

/-- Settles O44: F18 is the write's one check, and the write is that of one byte of a canonical memory. -/
theorem hostMemoryWrite : Obligations.HostMemoryWrite := by
  intro s es a v live wf hs
  rw [step_memWrite live hs]
  constructor
  · rintro ⟨c, hc, hb, he, inFootprint⟩
    have flying := (s.inFlight_iff Instr.isEncode c).mpr ⟨hb, he⟩
    have race : (s.inFlightSrc a.toNat || s.inFlightDst a.toNat) = true := by
      rw [Bool.or_eq_true, State.inFlightSrc_iff, State.inFlightDst_iff]
      exact inFootprint.imp (fun h => ⟨c, hc, flying, h⟩) fun h => ⟨c, hc, flying, h⟩
    rw [race]
    rfl
  · intro outside
    have noSrc := (s.inFlightSrc_eq_false_iff a.toNat).mpr fun c hc hb he => (outside c hc hb he).1
    have noDst := (s.inFlightDst_eq_false_iff a.toNat).mpr fun c hc hb he => (outside c hc hb he).2
    rw [noSrc, noDst]
    exact ⟨_, rfl, s.mem.read_write_same _ v wf a.isLt, fun b hb => s.mem.read_write_ne _ b v hb⟩

/-- Settles O45: whether the byte lies in a DstFP in flight decides between the draw and the byte. -/
theorem hostMemoryRead : Obligations.HostMemoryRead := by
  intro s es a live hs
  rw [step_memRead live hs]
  constructor
  · rintro ⟨c, hc, hb, he, inDst⟩
    exact if_pos ((s.inFlightDst_iff _).mpr ⟨c, hc, (s.inFlight_iff _ c).mpr ⟨hb, he⟩, inDst⟩)
  · intro outside
    rw [(s.inFlightDst_eq_false_iff _).mpr outside]
    rfl

/-! ### All that a step can do to memory -/

theorem IssueCase.mem_eq (h : IssueCase s c i t) : t.mem = s.mem := by
  cases h <;> rfl

/-- Only the Perform of an ENCODE writes memory (R82). -/
theorem PerformCase.mem_eq (h : PerformCase s c i t) :
    t.mem = s.mem ∨
      i.isEncode = true ∧
        t.mem = s.mem.writeBytes ((s.ctx c).latch.dstFP s.cfg).base (s.encodeWrites (s.ctx c).latch) := by
  cases h with
  | encode p so rr strat ha => exact .inr ⟨encodeForm_isEncode p so rr strat, rfl⟩
  | _ => exact .inl rfl

/-- What a step from `s` to `t` can do to memory. -/
inductive MemoryCase (s t : State) : Prop
  /-- Nothing. -/
  | kept (h : t.mem = s.mem)
  /-- The host writes a byte. -/
  | hostWrite (es : List Event) (a : Addr) (v : Byte) (hs : s.schedule = .memWrite a v :: es)
      (h : t.mem = s.mem.write a.toNat v)
  /-- A Reset abandons the ENCODEs in flight (70_reset_and_hazards.md R241). -/
  | reset (es : List Event) (hs : s.schedule = .reset :: es)
      (h : t.mem = (State.abandonAll { s with schedule := es }).mem)
  /-- The Perform of an ENCODE in flight writes its bytes (41_encode.md R172, R173). -/
  | encode (c : Nat) (hb : (s.ctx c).busy = true) (he : (s.ctx c).latch.cmd.isEncode = true)
      (h : t.mem = s.mem.writeBytes ((s.ctx c).latch.dstFP s.cfg).base (s.encodeWrites (s.ctx c).latch))
      (ends : (t.ctx c).busy = false ∧ (t.ctx c).done = true)

theorem step_memory (h : step s = .next t) : MemoryCase s t := by
  cases step_cases h with
  | regRead off es r hs hr ho => exact .kept (State.answer_mem _ _)
  | issue es c v i t hs hc hb hd ht => exact .kept (exec_issue_next rfl ht).mem_eq
  | memWrite es a v hs hd => exact .hostWrite es a v hs rfl
  | reset es t hs ht => exact .reset es hs (by rw [resetStep_next ht]; rfl)
  | perform es c t hs hc hb ht =>
    have performed := exec_perform_next rfl ht
    obtain kept | ⟨he, writes⟩ := performed.mem_eq
    · exact .kept kept
    · exact .encode c hb he writes (performed.ends hc)
  | writeArg | memReadRace | memRead | final => exact .kept rfl

/-- Settles O55: a step leaves memory or changes it by writes of bytes, which keep the form. -/
theorem stepKeepsMemoryForm : Obligations.StepKeepsMemoryForm := by
  intro s t wf h
  cases step_memory h with
  | kept h => rwa [h]
  | hostWrite es a v hs h => rw [h]; exact s.mem.wf_write _ v wf
  | reset es hs h => rw [h]; exact State.wf_mem_abandonAll wf
  | encode c hb he h ends => rw [h]; exact s.mem.wf_writeBytes _ _ wf

/-- Settles O46: a changed byte lies where one of the writes of the step does, and those of a Perform are its DstFP. -/
theorem memoryChangesOnlyInFootprints : Obligations.MemoryChangesOnlyInFootprints := by
  intro s t a inv hstep changed
  cases step_memory hstep with
  | kept h => exact absurd (by rw [h]) changed
  | hostWrite es x v hs h =>
    refine .inl ⟨es, x, v, hs, ?_⟩
    by_contra hne
    exact changed (by rw [h, s.mem.read_write_ne _ a v (Ne.symm hne)])
  | reset es hs h =>
    have inDst : s.inFlightDst a = true := by
      by_contra outside
      exact changed (by rw [h]; exact (State.abandonAll_spec _).2 a (Bool.eq_false_iff.mpr outside))
    obtain ⟨c, hc, flying, hd⟩ := (s.inFlightDst_iff a).mp inDst
    obtain ⟨hb, he⟩ := (s.inFlight_iff _ c).mp flying
    exact .inr ⟨c, hc, hb, he, hd, .inl ⟨es, hs⟩⟩
  | encode c hb he h ends =>
    have hc := State.busy_lt hb
    obtain ⟨-, hcfg, -⟩ := step_live hstep
    obtain ⟨-, flatBuilt, -⟩ := inv.flight.ready c hc ((s.inFlight_iff _ c).mpr ⟨hb, he⟩)
    have size := State.length_encodeWrites hcfg (inv.tables.flat flatBuilt) (s.ctx c).latch
    refine .inr ⟨c, hc, hb, he, ?_, .inr ends⟩
    by_contra outside
    rw [Region.contains_iff] at outside
    exact changed (by rw [h, s.mem.read_writeBytes_outside _ a _ (by omega)])

end Sys2Proof.Machine
end

section
/-! PROOFS. The command word (30_encoding.md R121-R136): what the decoder accepts, said once, and the encoder as its
inverse. A word is read as a number, and each of its fields as a quotient and a remainder of it. -/

namespace Sys2Proof.Machine

/-! ### The fields of a word as numbers (00_scope.md R11) -/

theorem field_eq (w : Word) (lo n : Nat) : field w lo n = w.toNat / 2 ^ lo % 2 ^ n := by
  rw [field, BitVec.extractLsb'_toNat, Nat.shiftRight_eq_div_pow]

theorem getLsbD_eq_iff {w : Word} {k : Nat} {b : Bool} : w.getLsbD k = b ↔ w.toNat / 2 ^ k % 2 = b.toNat := by
  have toNat_inj : ∀ a b : Bool, a = b ↔ a.toNat = b.toNat := by decide
  rw [toNat_inj, BitVec.getLsbD, Nat.toNat_testBit]

theorem toNat_getLsbD (w : Word) (k : Nat) : (w.getLsbD k).toNat = w.toNat / 2 ^ k % 2 :=
  (getLsbD_eq_iff.mp rfl).symm

/-- R121: a word is the sum of its fields OP, PS, PD, SO, RR, STRAT, CN and bits 31:13. -/
theorem toNat_eq_fields (w : Word) :
    w.toNat = field w 0 4 + 0x10 * (w.getLsbD 4).toNat + 0x20 * (w.getLsbD 5).toNat + 0x40 * (w.getLsbD 6).toNat +
      0x80 * (w.getLsbD 7).toNat + 0x100 * field w 8 4 + 0x1000 * (w.getLsbD 12).toNat + 0x2000 * field w 13 19 := by
  have hw := w.isLt
  simp only [field_eq, toNat_getLsbD, Nat.reducePow] at hw ⊢
  omega

/-- A field put above the bits of a word adds to it. -/
theorem toNat_or_shiftLeft {x y : Word} {k : Nat} (hx : x.toNat < 2 ^ k) (hy : y.toNat * 2 ^ k < 2 ^ 32) :
    (x ||| y <<< k).toNat = x.toNat + 2 ^ k * y.toNat := by
  rw [BitVec.toNat_or, BitVec.toNat_shiftLeft, Nat.shiftLeft_eq, Nat.mod_eq_of_lt hy, Nat.lor_comm,
    ← Nat.shiftLeft_eq, ← Nat.shiftLeft_add_eq_or_of_lt hx, Nat.shiftLeft_eq, Nat.mul_comm, Nat.add_comm]

/-- One bit put above the bits of a word adds to it. -/
theorem toNat_or_bit {x : Word} {k : Nat} (hx : x.toNat < 2 ^ k) (hk : k < 32) (b : Bool) :
    (x ||| bit b k).toNat = x.toNat + 2 ^ k * b.toNat := by
  cases b with
  | false => simp [bit]
  | true =>
    have fits : (1#32).toNat * 2 ^ k < 2 ^ 32 := by
      rw [BitVec.toNat_ofNat, Nat.one_mod, Nat.one_mul]
      exact Nat.pow_lt_pow_right (by decide) hk
    exact toNat_or_shiftLeft hx fits

/-! ### The encoder (R121, R136) -/

@[simp] theorem encode_encodeForm (p so rr : Bool) (strat : Nat) :
    encode (encodeForm p so rr strat) = encodeWord p so rr strat := by
  cases p <;> cases so <;> cases rr <;> rfl

/-- A command other than ENCODE is its OP alone (R128). -/
theorem toNat_encode_plain {i : Instr} (h : i.isEncode = false) : (encode i).toNat = i.op.toNat := by
  cases i with
  | buildTable | flattenTable | buildJump | registerBuffers => rfl
  | _ => cases h

theorem op_range_plain {i : Instr} (h : i.isEncode = false) : 1 ≤ i.op.toNat ∧ i.op.toNat ≤ 4 := by
  cases i with
  | buildTable | flattenTable | buildJump | registerBuffers => decide
  | _ => cases h

/-- An ENCODE word is the sum of its fields: OP, PS with PD, SO, RR and STRAT (R121). -/
theorem toNat_encodeWord (p so rr : Bool) {strat : Nat} (h : strat < 16) :
    (encodeWord p so rr strat).toNat = 5 + 0x30 * p.toNat + 0x40 * so.toNat + 0x80 * rr.toNat + 0x100 * strat := by
  have pointers : (if p then 0x00000035#32 else 0x00000005#32).toNat = 5 + 0x30 * p.toNat := by cases p <;> rfl
  have strategy : (BitVec.ofNat 32 strat).toNat = strat := by rw [BitVec.toNat_ofNat, Nat.mod_eq_of_lt (by omega)]
  have hp := p.toNat_le
  have hso := so.toNat_le
  have hrr := rr.toNat_le
  change (((if p then 0x00000035#32 else 0x00000005#32) ||| bit so 6 ||| bit rr 7 |||
    BitVec.ofNat 32 strat <<< 8) : Word).toNat = _
  generalize (if p then 0x00000035#32 else 0x00000005#32) = base at pointers ⊢
  have offset := toNat_or_bit (x := base) (k := 6) (by omega) (by decide) so
  have report := toNat_or_bit (x := base ||| bit so 6) (k := 7) (by omega) (by decide) rr
  rw [toNat_or_shiftLeft (by omega) (by omega)]
  omega

/-! ### The decoder (R130) -/

/-- The words that decode, and to which command (R122, R123, R126, R128, R129). -/
inductive DecodeCase (w : Word) : Instr → Prop
  | plain {i : Instr} (hi : i.isEncode = false) (hop : field w 0 4 = i.op.toNat) (hmode : field w 4 28 = 0) :
      DecodeCase w i
  | form (hop : field w 0 4 = 5) (hreserved : field w 13 19 = 0) (hcn : w.getLsbD 12 = false)
      (hptr : w.getLsbD 4 = w.getLsbD 5) :
      DecodeCase w (encodeForm (w.getLsbD 4) (w.getLsbD 6) (w.getLsbD 7) (field w 8 4))

theorem decodePlain_eq_ok {w : Word} {i j : Instr} : decodePlain w j = .ok i ↔ field w 4 28 = 0 ∧ j = i := by
  unfold decodePlain
  split <;> simp_all

/-- All that `decode` does to a legal word. -/
theorem decode_eq_ok_iff {w : Word} {i : Instr} : decode w = .ok i ↔ DecodeCase w i := by
  constructor
  · intro h
    have plain : ∀ {j : Instr}, j.isEncode = false → field w 0 4 = j.op.toNat → decodePlain w j = .ok i →
        DecodeCase w i := by
      intro j hj hop hd
      obtain ⟨hmode, rfl⟩ := decodePlain_eq_ok.mp hd
      exact .plain hj hop hmode
    unfold decode at h
    split_ifs at h with hreserved hcn
    split at h
    · exact plain rfl ‹_› h
    · exact plain rfl ‹_› h
    · exact plain rfl ‹_› h
    · exact plain rfl ‹_› h
    · unfold decodeEncode at h
      split_ifs at h with hptr
      cases h
      exact .form ‹_› (not_not.mp hreserved) (Bool.eq_false_iff.mpr hcn) (not_not.mp hptr)
    · cases h
  · rintro (⟨hi, hop, hmode⟩ | ⟨hop, hreserved, hcn, hptr⟩)
    · have low : field w 13 19 = 0 ∧ w.getLsbD 12 = false := by
        simp only [field_eq, getLsbD_eq_iff, Nat.reducePow, Bool.toNat_false] at hmode ⊢
        omega
      obtain ⟨hreserved, hcn⟩ := low
      cases i with
      | buildTable | flattenTable | buildJump | registerBuffers =>
        simp [decode, hreserved, hcn, hop, Instr.op, decodePlain, hmode, -BitVec.getLsbD_eq_getElem]
      | _ => cases hi
    · simp [decode, hreserved, hcn, hop, decodeEncode, hptr, -BitVec.getLsbD_eq_getElem]

/-- R121: the OP field of a word that decodes is the command's. -/
theorem DecodeCase.op {w : Word} {i : Instr} (h : DecodeCase w i) : field w 0 4 = i.op.toNat := by
  cases h with
  | plain hi hop hmode => exact hop
  | form hop hreserved hcn hptr => rw [hop, encodeForm_op]; rfl

/-- A word that decodes is the encoding of its command: the fields that DecodeCase names fix every bit. -/
theorem DecodeCase.encode_eq {w : Word} {i : Instr} (h : DecodeCase w i) : encode i = w := by
  apply BitVec.eq_of_toNat_eq
  cases h with
  | plain hi hop hmode =>
    rw [toNat_encode_plain hi]
    simp only [field_eq, Nat.reducePow] at hop hmode
    omega
  | form hop hreserved hcn hptr =>
    have hstrat : field w 8 4 < 16 := (w.extractLsb' 8 4).isLt
    rw [encode_encodeForm, toNat_encodeWord _ _ _ hstrat]
    have number := toNat_eq_fields w
    rw [hop, hreserved, hcn, ← hptr, Bool.toNat_false] at number
    omega

/-- The decoder reads an ENCODE word back, with every STRAT (R127, R136). -/
theorem decode_encodeWord (p so rr : Bool) {strat : Nat} (h : strat < 16) :
    decode (encodeWord p so rr strat) = .ok (encodeForm p so rr strat) := by
  have number := toNat_encodeWord p so rr h
  generalize encodeWord p so rr strat = w at number ⊢
  have hso := so.toNat_le
  have hrr := rr.toNat_le
  have fields : field w 0 4 = 5 ∧ w.getLsbD 4 = p ∧ w.getLsbD 5 = p ∧ w.getLsbD 6 = so ∧ w.getLsbD 7 = rr ∧
      field w 8 4 = strat ∧ w.getLsbD 12 = false ∧ field w 13 19 = 0 := by
    simp only [field_eq, getLsbD_eq_iff, Nat.reducePow, Bool.toNat_false]
    cases p <;> simp only [Bool.toNat_false, Bool.toNat_true] at number ⊢ <;> omega
  obtain ⟨hop, bit4, bit5, bit6, bit7, hstrat, hcn, hreserved⟩ := fields
  have legal := DecodeCase.form hop hreserved hcn (bit4.trans bit5.symm)
  rw [bit4, bit6, bit7, hstrat] at legal
  exact decode_eq_ok_iff.mpr legal

/-- Settles O2: a command without mode bits is its OP, and an ENCODE word is read back field by field. -/
theorem decodeOfEncode : Obligations.DecodeOfEncode := by
  intro i hwf
  by_cases hi : i.isEncode = true
  · obtain ⟨p, so, rr, strat, rfl⟩ := (isEncode_iff i).mp hi
    rw [encode_encodeForm]
    exact decode_encodeWord p so rr (by simpa using hwf)
  · rw [Bool.not_eq_true] at hi
    have number := toNat_encode_plain hi
    have range := op_range_plain hi
    exact decode_eq_ok_iff.mpr (.plain hi (by rw [field_eq]; omega) (by rw [field_eq]; omega))

/-- Settles O3: the decoder's cases give each of the three. -/
theorem encodeOfDecode : Obligations.EncodeOfDecode := by
  intro w i h
  have legal := decode_eq_ok_iff.mp h
  exact ⟨decode_wf h, legal.encode_eq, BitVec.eq_of_toNat_eq legal.op.symm⟩

/-- Settles O1: each of the twelve words is the encoding of its command. -/
theorem commandWordsDecode : Obligations.CommandWordsDecode :=
  ⟨decodeOfEncode .buildTable rfl, decodeOfEncode .flattenTable rfl, decodeOfEncode .buildJump rfl,
    decodeOfEncode .registerBuffers rfl, decodeOfEncode (.encodeP 0) rfl, decodeOfEncode (.encodePSo 0) rfl,
    decodeOfEncode (.encodePRr 0) rfl, decodeOfEncode (.encodePSoRr 0) rfl, decodeOfEncode (.encodeG 0) rfl,
    decodeOfEncode (.encodeGSo 0) rfl, decodeOfEncode (.encodeGRr 0) rfl, decodeOfEncode (.encodeGSoRr 0) rfl⟩

/-- A word of one of the illegal classes of R133 does not decode. -/
theorem decode_illegal {w : Word}
    (h : w.extractLsb' 13 19 ≠ 0#19 ∨ w.getLsbD 12 = true ∨ w.extractLsb' 0 4 = 0x0#4 ∨ 0x6#4 ≤ w.extractLsb' 0 4 ∨
      (w.extractLsb' 0 4 ≠ 0x5#4 ∧ w.extractLsb' 4 28 ≠ 0#28) ∨
      (w.extractLsb' 0 4 = 0x5#4 ∧ w.getLsbD 4 ≠ w.getLsbD 5)) :
    ∃ e, decode w = .error e := by
  have classes : field w 13 19 ≠ 0 ∨ w.getLsbD 12 = true ∨ field w 0 4 = 0 ∨ 6 ≤ field w 0 4 ∨
      (field w 0 4 ≠ 5 ∧ field w 4 28 ≠ 0) ∨ (field w 0 4 = 5 ∧ w.getLsbD 4 ≠ w.getLsbD 5) := by
    simpa only [ne_eq, ← BitVec.toNat_inj, BitVec.le_def, BitVec.reduceToNat, field] using h
  cases hd : decode w with
  | error e => exact ⟨e, rfl⟩
  | ok i =>
    exfalso
    cases decode_eq_ok_iff.mp hd with
    | plain hi hop hmode =>
      have range := op_range_plain hi
      simp only [field_eq, getLsbD_eq_iff, Nat.reducePow, Bool.toNat_true] at classes hop hmode
      omega
    | form hop hreserved hcn hptr => simp [hop, hreserved, hcn, hptr, -BitVec.getLsbD_eq_getElem] at classes

end Sys2Proof.Machine
end

section
/-! PROOFS. The register window (30_encoding.md R110-R120): the faults of an access, in the order of R212, what a write
to each register does, and what a read of each register returns. -/

namespace Sys2Proof.Machine

variable {s : State} {es : List Event} {off width c : Nat} {v : Word}

/-! ### A scheduled access in a live state -/

theorem State.live.nCtx_le (h : s.live) : s.nCtx ≤ 16 := by
  obtain ⟨scope, -, -⟩ := h
  by_contra many
  exact Bool.false_ne_true (((nCtxWf_eq_false_iff _).mpr (.inr (not_le.mp many))).symm.trans scope)

theorem step_regRead (hl : s.live) (hs : s.schedule = .regRead off width :: es) :
    step s = regRead off width { s with schedule := es } := by
  rw [step_of_live hl, hs]
  rfl

/-- An access that reaches no register raises the fault of R111 or R112, a read and a write alike. -/
theorem step_busTarget_error {f : Fault} (hl : s.live)
    (hs : s.schedule = .regRead off width :: es ∨ s.schedule = .regWrite off width v :: es)
    (h : busTarget s.nCtx off width = .error f) : step s = .fault f := by
  obtain hs | hs := hs
  · have target : busTarget (State.nCtx { s with schedule := es }) off width = .error f := h
    rw [step_regRead hl hs, regRead, target]
  · exact step_regWrite_fault hl hs (State.busWrite_of_error h)

/-! ### Accesses that reach no register (R111, R112) -/

theorem busTarget_misaligned (n : Nat) (h : width ≠ 32 ∨ off % 4 ≠ 0) :
    busTarget n off width = .error (.busMisaligned off width) :=
  if_pos h

theorem busTarget_unmapped {n : Nat} (ha : off % 4 = 0) (h : regAt n off = none) :
    busTarget n off 32 = .error (.busUnmapped off) := by
  simp [busTarget, ha, h]

/-- Where the registers of the window lie (R110, R115). -/
theorem Reg.offset_range {n : Nat} {r : Reg} (h : r.existsIn n) :
    r.offset ≤ 0x10 ∨ (∃ c < n, 0x100 + 0x40 * c ≤ r.offset ∧ r.offset ≤ 0x100 + 0x40 * c + 0x24) ∨
      (0x800 ≤ r.offset ∧ r.offset ≤ 0xC00) := by
  have block : ∀ c k, c < n → k ≤ 0x24 → r.offset = 0x100 + 0x40 * c + k →
      ∃ c < n, 0x100 + 0x40 * c ≤ r.offset ∧ r.offset ≤ 0x100 + 0x40 * c + 0x24 :=
    fun c k hc hk ho => ⟨c, hc, by omega, by omega⟩
  cases r with
  | id | gstatus | regInBase | regOutBase | config => exact .inl (by simp [Reg.offset])
  | tbl sym =>
    have hsym : sym ≤ 256 := h
    exact .inr (.inr (by simp only [Reg.offset]; omega))
  | cmd c => exact .inr (.inl (block c 0 h (by decide) rfl))
  | arg c a => cases a <;> exact .inr (.inl (block c _ h (by decide) rfl))
  | status c | resLen c | resRem c | resOutStart c => exact .inr (.inl (block c _ h (by decide) rfl))

/-- No register is found at an offset outside the ranges of R110 and R115. -/
theorem regAt_unmapped {n : Nat} (hn : n ≤ 16) (ha : off % 4 = 0)
    (h : (0x014 ≤ off ∧ off < 0x100) ∨ (0x100 + 0x40 * n ≤ off ∧ off < 0x800) ∨ 0xC04 ≤ off ∨
      ∃ c < n, 0x100 + 0x40 * c + 0x28 ≤ off ∧ off ≤ 0x100 + 0x40 * c + 0x3C) : regAt n off = none := by
  by_contra mapped
  obtain ⟨r, hr⟩ := Option.ne_none_iff_exists'.mp mapped
  obtain ⟨rfl, existing⟩ := regAt_sound hr ha
  rcases Reg.offset_range existing with low | ⟨c, hc, block⟩ | table <;>
    rcases h with h | h | h | ⟨c', hc', h⟩ <;> omega

/-- Settles O5: the check of R111 comes first (R212). -/
theorem misalignedAccessFaults : Obligations.MisalignedAccessFaults := by
  intro s es off width v live bad hs
  exact step_busTarget_error live hs (busTarget_misaligned _ bad)

/-- Settles O6: an aligned access reaches a register or raises F02, and no register lies at these offsets. -/
theorem unmappedAccessFaults : Obligations.UnmappedAccessFaults := by
  intro s es off v live aligned outside hs
  exact step_busTarget_error live hs (busTarget_unmapped aligned (regAt_unmapped live.nCtx_le aligned outside))

/-! ### Writes (R113, R114, R116, R120) -/

theorem step_regWrite_readOnly {r : Reg} (hl : s.live) (hr : r.existsIn s.nCtx) (ho : r.writable = false)
    (hs : s.schedule = .regWrite r.offset 32 v :: es) : step s = .fault (.busReadOnlyWrite r.offset) :=
  step_regWrite_fault hl hs (State.busWrite_of_readOnly (busTarget_offset hl.nCtx_le hr) ho)

/-- Settles O7: each of the offsets is that of a read-only register of the machine. -/
theorem readOnlyWriteFaults : Obligations.ReadOnlyWriteFaults := by
  intro s es off v live h hs
  obtain rfl | rfl | rfl | rfl | rfl | ⟨sym, hsym, rfl⟩ | ⟨c, hc, rfl | rfl | rfl | rfl⟩ := h
  · exact step_regWrite_readOnly (r := .id) live trivial rfl hs
  · exact step_regWrite_readOnly (r := .gstatus) live trivial rfl hs
  · exact step_regWrite_readOnly (r := .regInBase) live trivial rfl hs
  · exact step_regWrite_readOnly (r := .regOutBase) live trivial rfl hs
  · exact step_regWrite_readOnly (r := .config) live trivial rfl hs
  · exact step_regWrite_readOnly (r := .tbl sym) live hsym rfl hs
  · exact step_regWrite_readOnly (r := .status c) live hc rfl hs
  · exact step_regWrite_readOnly (r := .resLen c) live hc rfl hs
  · exact step_regWrite_readOnly (r := .resRem c) live hc rfl hs
  · exact step_regWrite_readOnly (r := .resOutStart c) live hc rfl hs

theorem State.busWrite_argOffset (hl : s.live) (hc : c < s.nCtx) (r : ArgReg) :
    s.busWrite (Reg.arg c r).offset 32 =
      if (s.ctx c).busy then .fault (.argWriteWhileBusy c (Reg.arg c r).offset) else .arg c r :=
  State.busWrite_of_arg (busTarget_offset hl.nCtx_le (r := .arg c r) hc)

theorem State.busWrite_cmdOffset (hl : s.live) (hc : c < s.nCtx) :
    s.busWrite (0x100 + 0x40 * c) 32 = if (s.ctx c).busy then .fault (.commandWhileBusy c) else .cmd c :=
  State.busWrite_of_cmd (busTarget_offset hl.nCtx_le (r := .cmd c) hc)

/-- Settles O8: BUSY alone decides at an argument register. -/
theorem argWriteWhileBusyFaults : Obligations.ArgWriteWhileBusyFaults := by
  intro s es c r v live hc busy hs
  exact step_regWrite_fault live hs ((State.busWrite_argOffset live hc r).trans (if_pos busy))

/-- Settles O9: the check of BUSY comes before the word is decoded. -/
theorem commandWhileBusyFaults : Obligations.CommandWhileBusyFaults := by
  intro s es c w live hc busy hs
  exact step_regWrite_fault live hs ((State.busWrite_cmdOffset live hc).trans (if_pos busy))

/-- The write of a word to CMD of an idle context is not stopped by the window. -/
theorem State.busWrite_idle_cmd (hl : s.live) (hc : c < s.nCtx) (idle : (s.ctx c).busy = false) :
    s.busWrite (0x100 + 0x40 * c) 32 = .cmd c := by
  rw [State.busWrite_cmdOffset hl hc, idle]
  rfl

/-- Settles O4: the write reaches CMD, and none of these words decodes. -/
theorem illegalWordFaults : Obligations.IllegalWordFaults := by
  intro s es c w live hc idle hs illegal
  obtain ⟨e, he⟩ := decode_illegal illegal
  exact step_regWrite_illegal live hs (State.busWrite_idle_cmd live hc idle) he

/-- Settles O12: the write reaches CMD, and the word decodes. -/
theorem commandWriteRunsDecoded : Obligations.CommandWriteRunsDecoded := by
  intro s es c w i live hc idle hs legal
  exact step_regWrite_cmd live hs (State.busWrite_idle_cmd live hc idle) legal

theorem Context.writeArg_arg_ne (k : Context) {r r' : ArgReg} (v : Word) (h : r' ≠ r) :
    (k.writeArg r v).arg r' = k.arg r' := by
  cases r <;> cases r' <;> trivial

theorem Context.writeArg_argWritten_ne (k : Context) {r r' : ArgReg} (v : Word) (h : r' ≠ r) :
    (k.writeArg r v).argWritten r' = k.argWritten r' := by
  cases r <;> cases r' <;> trivial

@[simp] theorem Context.writeArg_written_cmd (k : Context) (r : ArgReg) (v : Word) :
    (k.writeArg r v).written.cmd = k.written.cmd := by
  cases r <;> rfl

/-- Settles O10: the write reaches the register, and `writeArg` changes the register and its flag alone. -/
theorem argWriteStores : Obligations.ArgWriteStores := by
  intro s es c r v live hc idle hs
  have target : s.busWrite (Reg.arg c r).offset 32 = .arg c r := by
    rw [State.busWrite_argOffset live hc r, idle]
    rfl
  refine ⟨(s.ctx c).writeArg r v, step_regWrite_arg live hs target, ?_⟩
  simp +contextual [Context.writeArg_arg_ne, Context.writeArg_argWritten_ne]

/-! ### Reads (R117) -/

/-- The word that a read gives: the value, or the next draw (log 9). -/
def State.readWord (s : State) : ReadValue → Word
  | .value v => v
  | .draw => s.nextWord

theorem State.answer_eq (s : State) (x : ReadValue) :
    s.answer x = { s with reply := .word (s.readWord x), draws := (s.answer x).draws } := by
  cases x <;> rfl

@[simp] theorem State.readWord_readIf (s : State) (known : Bool) (v : Word) :
    s.readWord (readIf known v) = if known then v else Config.freeWord s.draws := by
  cases known <;> rfl

/-- A read looks at no field that the schedule is in. -/
theorem State.readReg_schedule (s : State) (es : List Event) (r : Reg) :
    State.readReg { s with schedule := es } r = s.readReg r := by
  cases r <;> rfl

theorem step_regRead_offset {r : Reg} (hl : s.live) (hr : r.existsIn s.nCtx)
    (hs : s.schedule = .regRead r.offset 32 :: es) :
    step s = .next (State.answer { s with schedule := es } (s.readReg r)) := by
  have target : busTarget (State.nCtx { s with schedule := es }) r.offset 32 = .ok r :=
    busTarget_offset hl.nCtx_le hr
  rw [step_regRead hl hs, regRead, target]
  simp only [State.readReg_schedule]

/-! ### The registers that are put together from fields (10_state.md R48, R50, R52, R54) -/

theorem State.toNat_gstatus (s : State) :
    s.gstatus.toNat = s.tableBuilt.toNat + 2 * s.flatBuilt.toNat + 4 * s.jumpBuilt.toNat +
      8 * (s.tableBuilt && s.flatBuilt && s.jumpBuilt).toNat + 16 * s.regValid.toNat := by
  unfold State.gstatus State.ready
  generalize s.tableBuilt = t, s.flatBuilt = f, s.jumpBuilt = j, s.regValid = r
  decide +revert

theorem Context.toNat_status (k : Context) :
    k.status.toNat = k.busy.toNat + 2 * k.done.toNat + 0x10 * k.lastOp.toNat := by
  have low : (bit k.busy 0 ||| bit k.done 1).toNat = k.busy.toNat + 2 * k.done.toNat := by
    generalize k.busy = b, k.done = d
    decide +revert
  have op : (k.lastOp.zeroExtend 32).toNat = k.lastOp.toNat := BitVec.toNat_setWidth_of_le (by decide)
  have hop := k.lastOp.isLt
  have hb := k.busy.toNat_le
  have hd := k.done.toNat_le
  rw [Context.status, toNat_or_shiftLeft (by omega) (by omega), low, op]
  rfl

theorem Code.toNat_tblWord (c : Code) : (Code.tblWord c).toNat = 0x10000 * c.len.toNat + c.pat.toNat := by
  have len : (c.len.zeroExtend 32).toNat = c.len.toNat := BitVec.toNat_setWidth_of_le (by decide)
  have pat : (c.pat.zeroExtend 32).toNat = c.pat.toNat := BitVec.toNat_setWidth_of_le (by decide)
  have hlen := c.len.isLt
  have hpat := c.pat.isLt
  rw [Code.tblWord, BitVec.or_comm, toNat_or_shiftLeft (by omega) (by omega), len, pat, Nat.add_comm]
  rfl

theorem State.toNat_configWord {s : State} (hn : s.nCtx ≤ 16) (hm : s.cfg.maxCodeLen ≤ 16) :
    s.configWord.toNat = s.nCtx + 0x100 * s.cfg.maxCodeLen + 0x10000 * 16 := by
  have small : ∀ k ≤ 16, (BitVec.ofNat 32 (k % 256)).toNat = k := fun k hk => by
    rw [BitVec.toNat_ofNat]; omega
  have contexts := small _ hn
  have length := small _ hm
  have width : (BitVec.ofNat 32 Config.codeWidth).toNat = 16 := rfl
  unfold State.configWord
  generalize BitVec.ofNat 32 (s.nCtx % 256) = x, BitVec.ofNat 32 (s.cfg.maxCodeLen % 256) = y,
    BitVec.ofNat 32 Config.codeWidth = z at *
  have low := toNat_or_shiftLeft (x := x) (y := y) (k := 8) (by omega) (by omega)
  rw [toNat_or_shiftLeft (by omega) (by omega)]
  omega

theorem Context.resultsKnown_iff (k : Context) : k.resultsKnown = true ↔ k.busy = false ∧ k.encoded = true := by
  simp [Context.resultsKnown]

/-- Settles O11: the read is answered with the register's word, and each register's word is the rule's. -/
theorem registerReads : Obligations.RegisterReads := by
  intro s es r live hr hs
  refine ⟨_, s.readWord (s.readReg r), step_regRead_offset live hr hs, State.answer_eq _ _, ?_⟩
  cases r with
  | id => rfl
  | gstatus => exact s.toNat_gstatus
  | config =>
    have ⟨_, cfgWf, _⟩ := live
    obtain ⟨-, -, -, longest, -⟩ := maxCodeLenRange s.cfg cfgWf
    exact State.toNat_configWord live.nCtx_le longest
  | tbl sym =>
    simp only [State.readReg, State.readWord_readIf]
    split
    · exact Code.toNat_tblWord _
    · rfl
  | status c => exact (s.ctx c).toNat_status
  | regInBase | regOutBase | cmd c | arg c a => exact s.readWord_readIf _ _
  | resLen c | resRem c | resOutStart c =>
    simp only [State.readReg, State.readWord_readIf, Context.resultsKnown_iff]

end Sys2Proof.Machine
end

section
/-! PROOFS. What an ENCODE's issue does with the command it is given: it latches it, and looks at nothing but its mode
(30_encoding.md R127; 41_encode.md R171). -/

namespace Sys2Proof.Machine

variable {s t : State} {c : Nat} {i j : Instr} {m : Mode}

/-- The state with another command in the latch of context `c`. -/
def State.relatch (s : State) (c : Nat) (i : Instr) : State :=
  s.setCtx c { s.ctx c with latch := { (s.ctx c).latch with cmd := i } }

theorem State.setCtx_setCtx (s : State) (c : Nat) (k k' : Context) : (s.setCtx c k).setCtx c k' = s.setCtx c k' := by
  simp only [State.setCtx, List.set_set]

theorem State.setCtx_of_le (h : s.nCtx ≤ c) (k : Context) : s.setCtx c k = s := by
  rw [State.setCtx, List.set_eq_of_length_le h]

/-- To issue a command with the same OP and operands is to replace it in the latch. -/
theorem State.relatch_issue {l : Latch} (hop : l.cmd.op = i.op) :
    (s.issue c l).relatch c i = s.issue c { l with cmd := i } := by
  by_cases hc : c < s.nCtx
  · rw [State.relatch, State.ctx_issue_same _ _ _ hc, State.issue, State.setCtx_setCtx, State.issue]
    simp only [Context.issued, hop]
  · have outside := not_lt.mp hc
    rw [State.relatch, State.issue, State.issue, State.setCtx_of_le outside, State.setCtx_of_le outside,
      State.setCtx_of_le outside]

/-- Two ENCODEs of one mode fault alike at issue, and their next states differ in the latched command alone. -/
theorem issueEncode_relatch (hop : i.op = j.op) :
    (∀ f, issueEncode i m c s = .fault f → issueEncode j m c s = .fault f) ∧
      ∀ t, issueEncode i m c s = .next t → issueEncode j m c s = .next (t.relatch c j) := by
  have checks : encodeChecks m c (s.encodeLatch j m c) s = encodeChecks m c (s.encodeLatch i m c) s := rfl
  constructor
  · intro f h
    rw [issueEncode, faultOr_eq_fault] at h ⊢
    rw [checks]
    exact h
  · intro t h
    rw [issueEncode, faultOr_eq_next] at h ⊢
    obtain ⟨passed, rfl⟩ := h
    exact ⟨checks ▸ passed, (State.relatch_issue (l := s.encodeLatch i m c) hop).symm⟩

/-- Settles O40: STRAT is decoded and latched, and neither the issue's checks nor the Perform look at it. -/
theorem strategyHasNoEffect : Obligations.StrategyHasNoEffect := by
  intro s c p so rr n n'
  refine ⟨decode_encodeWord p so rr, fun ht => ?_, fun ht => ?_⟩
  · rw [exec_encodeForm_perform _ _ _ _ ht, exec_encodeForm_perform _ _ _ _ ht]
  · rw [exec_encodeForm_issue _ _ _ _ ht, exec_encodeForm_issue _ _ _ _ ht]
    exact issueEncode_relatch (by rw [encodeForm_op, encodeForm_op])

end Sys2Proof.Machine
end

section
/-! PROOFS. The build commands (40_table_build.md R140-R149): their issue and their Perform as equations, all that a step
can do to TABLE, FLAT, JUMP and the build flags, and what a built table keeps. -/

namespace Sys2Proof.Machine

variable {s t : State} {c : Nat} {i : Instr}

/-! ### The checks of an issue, one by one -/

theorem faultOr_firstFault_nil (t : State) : faultOr (firstFault []) t = .next t :=
  rfl

theorem faultOr_firstFault_check (b : Bool) (f : Fault) (rest : List (Option Fault)) (t : State) :
    faultOr (firstFault (check b f :: rest)) t = if b = true then .fault f else faultOr (firstFault rest) t := by
  cases b <;> rfl

theorem State.inFlightElsewhere_racesWithBuildTable :
    s.inFlightElsewhere c racesWithBuildTable = true ↔
      s.busyElsewhere c fun i => i.isEncode = true ∨ i = .flattenTable := by
  simp only [State.inFlightElsewhere_iff, racesWithBuildTable, Bool.or_eq_true, decide_eq_true_eq]

theorem State.inFlightElsewhere_racesWithFlatten :
    s.inFlightElsewhere c racesWithFlatten = true ↔
      s.busyElsewhere c fun i => i.isEncode = true ∨ i = .buildTable := by
  simp only [State.inFlightElsewhere_iff, racesWithFlatten, Bool.or_eq_true, decide_eq_true_eq]

/-! ### Issue and Perform of each build command -/

theorem exec_buildTable_issue (h : s.turn = .issue c) :
    exec .buildTable s =
      if s.inFlightElsewhere c racesWithBuildTable = true then .fault (.initRace c)
      else .next (s.issue c (buildLatch .buildTable)) := by
  rw [show exec .buildTable s = _ from byTurn_issue h, issueBuildTable, faultOr_firstFault_check,
    faultOr_firstFault_nil]

theorem exec_buildTable_perform (h : s.turn = .perform c) :
    exec .buildTable s = .next (State.complete { s with table := s.cfg.codeTable, tableBuilt := true } c) :=
  byTurn_perform h

theorem exec_flattenTable_issue (h : s.turn = .issue c) :
    exec .flattenTable s =
      if s.inFlightElsewhere c racesWithFlatten = true then .fault (.initRace c)
      else if s.tableBuilt = false then .fault (.flattenBeforeBuild c)
      else .next (s.issue c (buildLatch .flattenTable)) := by
  rw [show exec .flattenTable s = _ from byTurn_issue h, issueFlattenTable]
  simp only [faultOr_firstFault_check, faultOr_firstFault_nil, Bool.not_eq_true']

theorem exec_flattenTable_perform (h : s.turn = .perform c) :
    exec .flattenTable s = .next (State.complete { s with flat := flatten s.table, flatBuilt := true } c) :=
  byTurn_perform h

theorem exec_buildJump_issue (h : s.turn = .issue c) :
    exec .buildJump s =
      if s.inFlightElsewhere c Instr.isEncode = true then .fault (.initRace c)
      else .next (s.issue c (buildLatch .buildJump)) := by
  rw [show exec .buildJump s = _ from byTurn_issue h, issueBuildJump, faultOr_firstFault_check,
    faultOr_firstFault_nil]

theorem exec_buildJump_perform (h : s.turn = .perform c) :
    exec .buildJump s = .next (State.complete { s with jump := s.cfg.jumpTable, jumpBuilt := true } c) :=
  byTurn_perform h

/-- Settles O17: whether a racing command is in flight elsewhere decides the issue, and the Perform has no check. -/
theorem buildTableCommand : Obligations.BuildTableCommand := by
  refine ⟨rfl, fun s c => ⟨fun ht race => ?_, fun ht noRace => ⟨buildLatch .buildTable, rfl, ?_⟩,
    exec_buildTable_perform⟩⟩
  · rw [exec_buildTable_issue ht, if_pos (State.inFlightElsewhere_racesWithBuildTable.mpr race)]
  · rw [exec_buildTable_issue ht, if_neg (mt State.inFlightElsewhere_racesWithBuildTable.mp noRace)]
    rfl

/-- FLAT holds a length and a pattern for each entry of the table (R144). -/
theorem length_flatten (table : List Code) : (flatten table).length = 2 * table.length := by
  simp [flatten, mul_comm]

/-- Settles O18: the race is checked before TABLE_BUILT, and the Perform has no check. -/
theorem flattenTableCommand : Obligations.FlattenTableCommand := by
  refine ⟨rfl, fun s c => ⟨fun ht race => ?_, fun ht noRace unbuilt => ?_, fun ht noRace built => ?_, fun ht => ?_⟩⟩
  · rw [exec_flattenTable_issue ht, if_pos (State.inFlightElsewhere_racesWithFlatten.mpr race)]
  · rw [exec_flattenTable_issue ht, if_neg (mt State.inFlightElsewhere_racesWithFlatten.mp noRace), if_pos unbuilt]
  · refine ⟨buildLatch .flattenTable, rfl, ?_⟩
    rw [exec_flattenTable_issue ht, if_neg (mt State.inFlightElsewhere_racesWithFlatten.mp noRace),
      if_neg (ne_false_of_eq_true built)]
    rfl
  · exact ⟨flatten s.table, exec_flattenTable_perform ht, length_flatten s.table,
      fun sym _ => ⟨flatAt_flatten_len s.table sym, flatAt_flatten_pat s.table sym⟩⟩

/-- Settles O19: whether an ENCODE is in flight elsewhere decides the issue, and the Perform has no check. -/
theorem buildJumpCommand : Obligations.BuildJumpCommand := by
  refine ⟨rfl, fun s c => ⟨fun ht race => ?_, fun ht noRace => ⟨buildLatch .buildJump, rfl, ?_⟩,
    exec_buildJump_perform⟩⟩
  · rw [exec_buildJump_issue ht, if_pos ((s.inFlightElsewhere_iff c _).mpr race)]
  · rw [exec_buildJump_issue ht, if_neg (mt (s.inFlightElsewhere_iff c _).mp noRace)]
    rfl

/-! ### A repeated build -/

/-- TABLE, once built, is what BUILD_TABLE loads (R142). -/
theorem TablesSound.reload_table (h : TablesSound s) (built : s.tableBuilt = true) :
    { s with table := s.cfg.codeTable, tableBuilt := true } = s := by
  rw [← h.table built, ← built]

/-- FLAT, once built, is what FLATTEN_TABLE loads from a TABLE that is built (R146). -/
theorem TablesSound.reload_flat (h : TablesSound s) (built : s.tableBuilt = true) (flatBuilt : s.flatBuilt = true) :
    { s with flat := flatten s.table, flatBuilt := true } = s := by
  have holds : s.flat = flatten s.table := by rw [h.flat flatBuilt, h.table built]
  rw [← holds, ← flatBuilt]

/-- Settles O20: what the Perform loads is what the register file holds. -/
theorem repeatedBuildChangesNothing : Obligations.RepeatedBuildChangesNothing := by
  intro s c sound ht built
  refine ⟨?_, fun flatBuilt => ?_⟩
  · rw [exec_buildTable_perform ht, sound.reload_table built]
    rfl
  · rw [exec_flattenTable_perform ht, sound.reload_flat built flatBuilt]
    rfl

/-! ### All that a step can do to the built tables -/

/-- The two states hold the same tables and build flags (10_state.md R38-R41). -/
structure State.SameTables (s t : State) : Prop where
  table : t.table = s.table
  tableBuilt : t.tableBuilt = s.tableBuilt
  flat : t.flat = s.flat
  flatBuilt : t.flatBuilt = s.flatBuilt
  jump : t.jump = s.jump
  jumpBuilt : t.jumpBuilt = s.jumpBuilt

theorem State.sameTables_answer (s : State) (x : ReadValue) : s.SameTables (s.answer x) :=
  ⟨s.answer_table x, s.answer_tableBuilt x, s.answer_flat x, s.answer_flatBuilt x, s.answer_jump x,
    s.answer_jumpBuilt x⟩

/-- An issue changes no table and no build flag. -/
theorem IssueCase.sameTables (h : IssueCase s c i t) : s.SameTables t := by
  obtain ⟨l, -, rfl, -⟩ := h.checked
  exact ⟨rfl, rfl, rfl, rfl, rfl, rfl⟩

/-- What a step from `s` to `t` can do to the tables and their flags. -/
inductive TablesCase (s t : State) : Prop
  /-- Nothing. -/
  | kept (h : s.SameTables t)
  /-- A Reset makes them unspecified (10_state.md R59). -/
  | reset (es : List Event) (hs : s.schedule = .reset :: es)
  /-- The Perform of a BUILD_TABLE in flight, which ends it (R140). -/
  | buildTable (c : Nat) (hb : (s.ctx c).busy = true) (hl : (s.ctx c).latch.cmd = .buildTable)
      (h : State.SameTables { s with table := s.cfg.codeTable, tableBuilt := true } t)
      (ends : (t.ctx c).busy = false ∧ (t.ctx c).done = true)
  /-- The Perform of a FLATTEN_TABLE in flight (R144). -/
  | flattenTable (c : Nat) (hb : (s.ctx c).busy = true) (hl : (s.ctx c).latch.cmd = .flattenTable)
      (h : State.SameTables { s with flat := flatten s.table, flatBuilt := true } t)
  /-- The Perform of a BUILD_JUMP in flight (R148). -/
  | buildJump (c : Nat) (hb : (s.ctx c).busy = true) (hl : (s.ctx c).latch.cmd = .buildJump)
      (h : State.SameTables { s with jump := s.cfg.jumpTable, jumpBuilt := true } t)

/-- The Perform of a build command writes its own table and flag; that of another command writes none. -/
theorem PerformCase.tables {es : List Event} {u : Turn} (h : PerformCase { s with schedule := es, turn := u } c i t)
    (hb : (s.ctx c).busy = true) (hl : (s.ctx c).latch.cmd = i) : TablesCase s t := by
  have ends := h.ends (State.busy_lt hb)
  cases h with
  | buildTable => exact .buildTable c hb hl ⟨rfl, rfl, rfl, rfl, rfl, rfl⟩ ends
  | flattenTable => exact .flattenTable c hb hl ⟨rfl, rfl, rfl, rfl, rfl, rfl⟩
  | buildJump => exact .buildJump c hb hl ⟨rfl, rfl, rfl, rfl, rfl, rfl⟩
  | registerBuffers | encode => exact .kept ⟨rfl, rfl, rfl, rfl, rfl, rfl⟩

theorem step_tables (h : step s = .next t) : TablesCase s t := by
  cases step_cases h with
  | regRead off es r hs hr ho => exact .kept { State.sameTables_answer { s with schedule := es } _ with }
  | issue es c v i t hs hc hb hd ht => exact .kept { (exec_issue_next rfl ht).sameTables with }
  | reset es t hs ht => exact .reset es hs
  | perform es c t hs hc hb ht => exact (exec_perform_next rfl ht).tables hb rfl
  | writeArg | memReadRace | memRead | memWrite | final => exact .kept ⟨rfl, rfl, rfl, rfl, rfl, rfl⟩

/-- Settles O21: of the Performs, that of BUILD_TABLE alone writes TABLE. -/
theorem onlyBuildTableWritesTable : Obligations.OnlyBuildTableWritesTable := by
  intro s t hstep changed
  cases step_tables hstep with
  | reset es hs => exact .inl ⟨es, hs⟩
  | buildTable c hb hl h ends =>
    obtain ⟨idle, done⟩ := ends
    exact .inr ⟨c, hb, hl, idle, done, h.table⟩
  | kept h | flattenTable c hb hl h | buildJump c hb hl h => exact absurd h.table changed

/-- Settles O22: a step leaves a table, or loads it again with what it holds once built. -/
theorem builtTablesStay : Obligations.BuiltTablesStay := by
  intro s t sound hstep noReset
  cases step_tables hstep with
  | reset es hs => exact absurd hs (noReset es)
  | kept h =>
    exact ⟨fun b => ⟨h.tableBuilt.trans b, h.table⟩, fun b => ⟨h.flatBuilt.trans b, h.flat⟩,
      fun b => ⟨h.jumpBuilt.trans b, h.jump⟩⟩
  | buildTable c hb hl h ends =>
    exact ⟨fun b => ⟨h.tableBuilt, h.table.trans (sound.table b).symm⟩, fun b => ⟨h.flatBuilt.trans b, h.flat⟩,
      fun b => ⟨h.jumpBuilt.trans b, h.jump⟩⟩
  | flattenTable c hb hl h =>
    have loaded : flatten s.table = flatten s.cfg.codeTable :=
      congrArg flatten (sound.table (sound.flattenLater c (State.busy_lt hb) hb hl))
    exact ⟨fun b => ⟨h.tableBuilt.trans b, h.table⟩,
      fun b => ⟨h.flatBuilt, (h.flat.trans loaded).trans (sound.flat b).symm⟩,
      fun b => ⟨h.jumpBuilt.trans b, h.jump⟩⟩
  | buildJump c hb hl h =>
    exact ⟨fun b => ⟨h.tableBuilt.trans b, h.table⟩, fun b => ⟨h.flatBuilt.trans b, h.flat⟩,
      fun b => ⟨h.jumpBuilt, h.jump.trans (sound.jump b).symm⟩⟩

end Sys2Proof.Machine
end

section
/-! PROOFS. The bits of an ENCODE's output (41_encode.md R161-R168, R194; 00_scope.md R16, R17): reading OUT bit 7 first
undoes the packing up to the zero pad, and the lengths that follow from it. -/

namespace Sys2Proof.Machine

variable {cfg : Config} {table : List Code}

/-! ### Packing and reading back (R17, R181) -/

@[simp] theorem length_byteBits (b : Byte) : (byteBits b).length = 8 := by
  simp [byteBits]

@[simp] theorem unpack_cons (b : Byte) (bs : List Byte) : unpack (b :: bs) = byteBits b ++ unpack bs :=
  rfl

theorem length_unpack (bytes : List Byte) : (unpack bytes).length = 8 * bytes.length := by
  induction bytes with
  | nil => rfl
  | cons b bs ih =>
    rw [unpack_cons, List.length_append, length_byteBits, ih, List.length_cons, Nat.mul_succ, Nat.add_comm]

/-- The bits of a packed byte, bit 7 first, are the eight it was packed from. -/
theorem byteBits_packByte (p : List Bool) (base : Nat) :
    byteBits (packByte p base) = (List.range 8).map fun k => p.getD (base + k) false := by
  have key : ∀ b0 b1 b2 b3 b4 b5 b6 b7 : Bool,
      byteBits (BitVec.ofNat 8
        ([(b0, 128), (b1, 64), (b2, 32), (b3, 16), (b4, 8), (b5, 4), (b6, 2), (b7, 1)].map fun x =>
          if x.1 then x.2 else 0).sum) = [b0, b1, b2, b3, b4, b5, b6, b7] := by decide
  exact key _ _ _ _ _ _ _ _

/-- Eight bits for each index in turn are the bits in order. -/
theorem flatMap_range_eight {α : Type} (f : Nat → α) (n : Nat) :
    ((List.range n).flatMap fun j => (List.range 8).map fun k => f (8 * j + k)) = (List.range (8 * n)).map f := by
  induction n with
  | zero => rfl
  | succ n ih =>
    rw [List.range_succ (n := n), List.flatMap_append, ih, Nat.mul_succ, List.range_add, List.map_append, List.map_map]
    simp [Function.comp_def]

/-- Bits read past the end of a list are zero pad bits. -/
theorem map_getD_range (bits : List Bool) (pad : Nat) :
    (List.range (bits.length + pad)).map (fun k => bits.getD k false) = bits ++ List.replicate pad false := by
  refine List.ext_getElem (by simp) fun k _ _ => ?_
  by_cases h : k < bits.length <;> simp [List.getElem_append, h]

theorem le_eight_mul_ceilDiv (n : Nat) : n ≤ 8 * ceilDiv n 8 := by
  rw [ceilDiv]
  omega

/-- A packed bit string, read bit 7 first, is itself and the zero pad (R17, R164). -/
theorem unpack_pack (bits : List Bool) :
    unpack (pack bits) = bits ++ List.replicate (8 * ceilDiv bits.length 8 - bits.length) false := by
  simp only [unpack, pack, List.flatMap_map, byteBits_packByte]
  rw [flatMap_range_eight (fun k => bits.getD k false), ← map_getD_range,
    Nat.add_sub_cancel' (le_eight_mul_ceilDiv bits.length)]

/-! ### The bits of an input (R161-R163) -/

@[simp] theorem tableBits_nil : tableBits table [] = (codeAt table 256).bits :=
  rfl

@[simp] theorem tableBits_cons (b : Byte) (bs : List Byte) :
    tableBits table (b :: bs) = (codeAt table b.toNat).bits ++ tableBits table bs := by
  simp [tableBits]

theorem encodeOut_flatten (input : List Byte) : encodeOut (flatten table) input = pack (tableBits table input) := by
  rw [encodeOut, encodeBits_flatten]

/-- N is the number of bits in whole bytes (R165). -/
theorem length_encodeOut (input : List Byte) :
    (encodeOut (flatten table) input).length = ((tableBits table input).length + 7) / 8 := by
  rw [encodeOut_flatten, length_pack, ceilDiv]

theorem codeTableWf_of_wf (h : cfg.wf = true) : codeTableWf cfg.codeTable = true :=
  (Bool.and_eq_true_iff.mp h).2

theorem codeAt_terminator (h : codeTableWf table = true) : codeAt table 256 = ⟨4#5, 0x0D#16⟩ := by
  obtain ⟨-, -, -, -, -, -, terminator⟩ := codeTableWf_iff.mp h
  exact terminator

/-- The pinned terminator's code is 1101 (10_state.md R36). -/
theorem bits_terminator (h : codeTableWf table = true) : (codeAt table 256).bits = [true, true, false, true] := by
  rw [codeAt_terminator h]
  rfl

/-- The pinned code of the byte 64 is 01010 (10_state.md R36). -/
theorem bits_64 (h : codeTableWf table = true) : (codeAt table 64).bits = [false, true, false, true, false] := by
  obtain ⟨-, -, -, -, -, pinned, -⟩ := codeTableWf_iff.mp h
  rw [pinned]
  rfl

theorem length_tableBits (h : codeTableWf table = true) (input : List Byte) :
    (tableBits table input).length = (input.map fun b => (codeAt table b.toNat).len.toNat).sum + 4 := by
  induction input with
  | nil => rw [tableBits_nil, bits_terminator h]; rfl
  | cons b bs ih =>
    rw [tableBits_cons, List.length_append, Code.length_bits, ih, List.map_cons, List.sum_cons, Nat.add_assoc]

/-- Every byte gives at least as many bits as the shortest code has (R168). -/
theorem le_length_tableBits (h : codeTableWf table = true) {m : Nat}
    (hm : ∀ sym ≤ 256, m ≤ (codeAt table sym).len.toNat) (input : List Byte) :
    input.length * m + 4 ≤ (tableBits table input).length := by
  rw [length_tableBits h, ← List.length_map (f := fun b : Byte => (codeAt table b.toNat).len.toNat)]
  refine Nat.add_le_add_right (List.card_nsmul_le_sum _ _ (List.forall_mem_map.mpr fun b _ => hm _ ?_)) 4
  have := b.isLt
  omega

/-! ### The footprints (20_memory.md R85) -/

theorem Latch.srcFP_contains_iff (l : Latch) (a : Nat) :
    l.srcFP.contains a = true ↔
      l.sbase.toNat + l.soff.toNat ≤ a ∧ a < l.sbase.toNat + l.soff.toNat + l.len.toNat :=
  Region.contains_iff _ _

theorem Latch.dstFP_contains_iff (cfg : Config) (l : Latch) (a : Nat) :
    (l.dstFP cfg).contains a = true ↔
      l.dbase.toNat + l.doff.toNat ≤ a ∧ a < l.dbase.toNat + l.doff.toNat + cfg.bound l.len.toNat :=
  Region.contains_iff _ _

/-! ### The statements -/

/-- Settles O28: OUT packs the bits of the input, and reading a packed string back only adds the pad. -/
theorem outputBits : Obligations.OutputBits := by
  intro cfg input h
  refine ⟨8 * ceilDiv (tableBits cfg.codeTable input).length 8 - (tableBits cfg.codeTable input).length, ?_, ?_, ?_,
    length_tableBits (codeTableWf_of_wf h) input, length_encodeOut input⟩
  · rw [ceilDiv]
    omega
  · rw [encodeOut_flatten, unpack_pack]
  · rw [length_encodeOut, ceilDiv]
    omega

/-- Settles O29: the bits of the input lie between the shortest and the longest code for each byte, plus 4. -/
theorem outputLengthBounds : Obligations.OutputLengthBounds := by
  intro cfg input m h hm
  have hwf := codeTableWf_of_wf h
  have lower := le_length_tableBits hwf hm input
  refine ⟨rfl, length_encodeOut_le_bound hwf input, ?_, ?_⟩ <;> rw [length_encodeOut]
  · exact Nat.div_le_div_right (Nat.add_le_add_right lower 7)
  · omega

/-- Settles O30: only the terminator's code is packed, and the bound is its one byte. -/
theorem zeroLengthOutput : Obligations.ZeroLengthOutput := by
  intro cfg h
  have hbits : tableBits cfg.codeTable [] = [true, true, false, true] := bits_terminator (codeTableWf_of_wf h)
  have hbound : cfg.bound 0 = 1 := by rw [Config.bound, Nat.mul_zero]; rfl
  refine ⟨hbits, ?_, hbound, fun l hl a => ⟨?_, ?_⟩⟩
  · rw [encodeOut_flatten, hbits]
    rfl
  · rw [Bool.eq_false_iff, ne_eq, Latch.srcFP_contains_iff, hl, BitVec.toNat_ofNat]
    omega
  · rw [Latch.dstFP_contains_iff, hl, BitVec.toNat_ofNat, hbound]
    omega

/-- Settles O31: both codes are pinned. -/
theorem workedExample : Obligations.WorkedExample := by
  intro cfg h
  have hbits : tableBits cfg.codeTable [64#8] = [false, true, false, true, false, true, true, false, true] := by
    rw [tableBits_cons, tableBits_nil, bits_terminator (codeTableWf_of_wf h)]
    exact congrArg (· ++ _) (bits_64 (codeTableWf_of_wf h))
  refine ⟨hbits, ?_⟩
  rw [encodeOut_flatten, hbits]
  decide

end Sys2Proof.Machine
end

section
/-! PROOFS. The reference decoder (41_encode.md R180, R181, R184): a stream begins with the code of at most one symbol,
so the decoder reads the input back, and OUT determines it. -/

namespace Sys2Proof.Machine

variable {table : List Code}

/-- No code of an accepted table begins another (10_state.md R35). -/
theorem bits_prefixFree (h : codeTableWf table = true) {a b : Nat} (ha : a ≤ 256) (hb : b ≤ 256)
    (hp : (codeAt table a).bits <+: (codeAt table b).bits) : a = b := by
  obtain ⟨hlen, range, stray, free, -⟩ := codeTableWf_iff.mp h
  by_contra hne
  exact (prefixFree_iff hlen (fun c hc => (range c hc).2) stray).mp free a ha b hb hne hp

/-- Every code of an accepted table has a bit (R33). -/
theorem one_le_len (h : codeTableWf table = true) : ∀ sym ≤ 256, 1 ≤ (codeAt table sym).len.toNat := by
  obtain ⟨hlen, range, -⟩ := codeTableWf_iff.mp h
  exact (forall_mem_iff_codeAt hlen fun c => 1 ≤ c.len.toNat).mp fun c hc => (range c hc).1

/-- The symbol whose code a stream begins with is the only one. -/
theorem matchingSymbols_append (h : codeTableWf table = true) {sym : Nat} (hs : sym ≤ 256) (rest : List Bool) :
    matchingSymbols table ((codeAt table sym).bits ++ rest) = [sym] := by
  have only : ∀ s ∈ List.range Config.numSymbols,
      (codeAt table s).bits.isPrefixOf ((codeAt table sym).bits ++ rest) = decide (s = sym) := by
    intro s hmem
    have hs' : s ≤ 256 := Nat.le_of_lt_succ (List.mem_range.mp hmem)
    rw [Bool.eq_iff_iff, List.isPrefixOf_iff_prefix, decide_eq_true_iff]
    refine ⟨fun hp => ?_, fun he => he ▸ List.prefix_append _ _⟩
    rcases List.prefix_or_prefix_of_prefix hp (List.prefix_append _ rest) with hp | hp
    · exact bits_prefixFree h hs' hs hp
    · exact (bits_prefixFree h hs hs' hp).symm
  rw [matchingSymbols, List.filter_congr only, List.filter_eq,
    List.count_eq_one_of_mem List.nodup_range (List.mem_range.mpr (Nat.lt_succ_of_le hs)), List.replicate_one]

/-- The decoder stops at the terminator's code. -/
theorem decodeStream_terminator (h : codeTableWf table = true) (fuel : Nat) (rest : List Bool) :
    decodeStream table (fuel + 1) ((codeAt table 256).bits ++ rest) = some [] := by
  rw [decodeStream, matchingSymbols_append h le_rfl]
  rfl

/-- The decoder takes a byte's code off the stream and goes on. -/
theorem decodeStream_byte (h : codeTableWf table = true) (fuel : Nat) (b : Byte) (rest : List Bool) :
    decodeStream table (fuel + 1) ((codeAt table b.toNat).bits ++ rest) =
      (decodeStream table fuel rest).map (b :: ·) := by
  have := b.isLt
  rw [decodeStream, matchingSymbols_append h (by omega : b.toNat ≤ 256)]
  simp only
  rw [if_neg (show b.toNat ≠ 256 by omega), List.drop_left, BitVec.ofNat_toNat, BitVec.setWidth_eq]

/-- The decoder reads an input back from its bits, whatever follows them. -/
theorem decodeStream_tableBits (h : codeTableWf table = true) (input : List Byte) (rest : List Bool) {fuel : Nat}
    (hf : input.length < fuel) : decodeStream table fuel (tableBits table input ++ rest) = some input := by
  induction input generalizing fuel with
  | nil =>
    obtain ⟨fuel, rfl⟩ := Nat.exists_eq_add_one.mpr hf
    exact decodeStream_terminator h fuel rest
  | cons b bs ih =>
    obtain ⟨fuel, rfl⟩ := Nat.exists_eq_add_one.mpr (Nat.zero_lt_of_lt hf)
    rw [tableBits_cons, List.append_assoc, decodeStream_byte h, ih (Nat.lt_of_succ_lt_succ hf), Option.map_some]

/-- Settles O32: OUT read bit 7 first is the bits of the input and a pad, and has more bits than the input has bytes. -/
theorem roundTrip : Obligations.RoundTrip := by
  intro cfg input h
  have hwf := codeTableWf_of_wf h
  have enough := le_length_tableBits hwf (one_le_len hwf) input
  rw [refDecode, encodeOut_flatten, unpack_pack]
  refine decodeStream_tableBits hwf input _ ?_
  rw [List.length_append]
  omega

/-- Settles O33: the decoder gives each input back from its OUT. -/
theorem outputDeterminesInput : Obligations.OutputDeterminesInput := by
  intro cfg x y h heq
  have decoded := roundTrip cfg x h
  rw [heq, roundTrip cfg y h] at decoded
  exact (Option.some.inj decoded).symm

end Sys2Proof.Machine
end

section
/-! PROOFS. The reference datapath (41_encode.md R185-R190). Its invariant: the bits of the bytes it has written, those
pending in ACC, and those of the symbols still to come are together the bits of the input. -/

namespace Sys2Proof.Machine

variable {table : List Code} {m : Memory} {base n l : Nat} {total later : List Bool} {written : List Byte} {e : Engine}

/-! ### The bits pending in ACC (10_state.md R56) -/

theorem length_codeBits (n : Nat) (acc : Word) : (codeBits n acc).length = n := by
  simp [codeBits]

theorem getElem_codeBits {acc : Word} {k : Nat} (h : k < (codeBits n acc).length) :
    (codeBits n acc)[k] = acc.getLsbD (n - 1 - k) := by
  simp [codeBits]

theorem getElem_byteBits {b : Byte} {k : Nat} (h : k < (byteBits b).length) : (byteBits b)[k] = b.getLsbD (7 - k) := by
  simp [byteBits]

/-- A symbol's pattern, shifted in below the pending bits, stands behind them (R186). -/
theorem codeBits_append {acc p : Word} (hp : p.toNat < 2 ^ l) (fits : n + l ≤ 32) :
    codeBits (n + l) (acc <<< l ||| p) = codeBits n acc ++ codeBits l p := by
  refine List.ext_getElem (by simp only [List.length_append, length_codeBits]) fun k hk _ => ?_
  rw [length_codeBits] at hk
  rw [getElem_codeBits, BitVec.getLsbD_or, BitVec.getLsbD_shiftLeft, List.getElem_append]
  simp only [length_codeBits, getElem_codeBits]
  split
  next inAcc =>
    have noStray : p.getLsbD (n + l - 1 - k) = false :=
      Nat.testBit_lt_two_pow (hp.trans_le (Nat.pow_le_pow_right two_pos (by omega)))
    rw [noStray, decide_eq_true (by omega), decide_eq_false (by omega), show n + l - 1 - k - l = n - 1 - k by omega]
    simp
  next inPattern =>
    rw [decide_eq_true (show n + l - 1 - k < l by omega), show n + l - 1 - k = l - 1 - (k - n) by omega]
    simp

/-- The byte that Drain emits holds the eight oldest pending bits, and leaves the others pending (R187). -/
theorem byteBits_append_codeBits {acc : Word} (h : 8 ≤ n) :
    byteBits ((acc >>> (n - 8)).truncate 8) ++ codeBits (n - 8) acc = codeBits n acc := by
  refine List.ext_getElem (by simp [length_codeBits, h]) fun k _ hk => ?_
  rw [length_codeBits] at hk
  rw [List.getElem_append]
  simp only [length_byteBits, getElem_byteBits, getElem_codeBits, BitVec.truncate_eq_setWidth, BitVec.getLsbD_setWidth,
    BitVec.getLsbD_ushiftRight]
  split
  next emitted =>
    rw [decide_eq_true (by omega), Bool.true_and]
    congr 1
    omega
  next pending =>
    congr 1
    omega

/-- The last byte holds the pending bits and zero pad bits (R189). -/
theorem byteBits_flush {acc : Word} (h : n < 8) :
    byteBits ((acc <<< (8 - n)).truncate 8) = codeBits n acc ++ List.replicate (8 - n) false := by
  refine List.ext_getElem (by simp [length_codeBits, h.le]) fun k hk _ => ?_
  rw [length_byteBits] at hk
  rw [List.getElem_append]
  simp only [length_codeBits, getElem_byteBits, getElem_codeBits, BitVec.truncate_eq_setWidth, BitVec.getLsbD_setWidth,
    BitVec.getLsbD_shiftLeft, List.getElem_replicate]
  split
  next pending =>
    rw [decide_eq_true (show 7 - k < 8 by omega), decide_eq_true (show 7 - k < 32 by omega),
      decide_eq_false (show ¬ 7 - k < 8 - n by omega), show 7 - k - (8 - n) = n - 1 - k by omega]
    simp
  next pad =>
    rw [decide_eq_true (show 7 - k < 8 - n by omega)]
    simp

/-! ### Bytes and their bits -/

theorem byteBits_injective {a b : Byte} (h : byteBits a = byteBits b) : a = b := by
  refine BitVec.eq_of_getLsbD_eq fun i hi => ?_
  have same := List.getElem_of_eq h (i := 7 - i) (by rw [length_byteBits]; omega)
  rwa [getElem_byteBits, getElem_byteBits, show 7 - (7 - i) = i by omega] at same

theorem unpack_injective : ∀ {xs ys : List Byte}, unpack xs = unpack ys → xs = ys
  | [], [], _ => rfl
  | [], y :: ys, h | y :: ys, [], h => by
    have := congrArg List.length h
    simp only [length_unpack, List.length_nil, List.length_cons] at this
    omega
  | x :: xs, y :: ys, h => by
    rw [unpack_cons, unpack_cons] at h
    obtain ⟨first, others⟩ := List.append_inj h (by rw [length_byteBits, length_byteBits])
    rw [byteBits_injective first, unpack_injective others]

theorem unpack_append (xs ys : List Byte) : unpack (xs ++ ys) = unpack xs ++ unpack ys :=
  List.flatMap_append

/-- Bytes whose bits are `total` and fewer than eight pad bits are `total` packed. -/
theorem eq_pack_of_unpack {pad : Nat} (hpad : pad < 8) (h : unpack written = total ++ List.replicate pad false) :
    written = pack total := by
  have length := congrArg List.length h
  rw [length_unpack, List.length_append, List.length_replicate] at length
  refine unpack_injective ?_
  rw [h, unpack_pack, show 8 * ceilDiv total.length 8 - total.length = pad by rw [ceilDiv]; omega]

theorem Memory.writeBytes_concat (m : Memory) (a : Nat) (bs : List Byte) (b : Byte) :
    m.writeBytes a (bs ++ [b]) = (m.writeBytes a bs).write (a + bs.length) b := by
  induction bs generalizing m a with
  | nil => rfl
  | cons x xs ih =>
    rw [List.cons_append, Memory.writeBytes, ih, Memory.writeBytes, List.length_cons, Nat.add_right_comm, Nat.add_assoc]

theorem Memory.readBytes_succ (m : Memory) (a n : Nat) :
    m.readBytes a (n + 1) = m.read a :: m.readBytes (a + 1) n := by
  simp [Memory.readBytes, List.range_succ_eq_map, Function.comp_def, Nat.add_assoc, Nat.add_comm 1]

/-! ### What is written, pending and still to come -/

/-- The engine has written these bytes from `base` on, and DPTR stands behind them. -/
structure Engine.Wrote (m : Memory) (base : Nat) (written : List Byte) (e : Engine) : Prop where
  mem : e.mem = m.writeBytes base written
  dptr : e.dp.dptr = BitVec.ofNat 32 (base + written.length)

/-- The invariant: the bits of what is written, of ACC and of what is to come later are the whole stream. -/
def Engine.Owes (m : Memory) (base : Nat) (total later : List Bool) (e : Engine) : Prop :=
  ∃ written, e.Wrote m base written ∧ unpack written ++ (codeBits e.dp.nbits e.dp.acc ++ later) = total

@[simp] theorem Engine.put_nbits (e : Engine) (b : Byte) (n : Nat) : (e.put b n).dp.nbits = n :=
  rfl

@[simp] theorem Engine.put_acc (e : Engine) (b : Byte) (n : Nat) : (e.put b n).dp.acc = e.dp.acc :=
  rfl

theorem Engine.Wrote.put (h : e.Wrote m base written) (inSpace : base + written.length < 2 ^ 32) (b : Byte) (n : Nat) :
    (e.put b n).Wrote m base (written ++ [b]) where
  mem := by
    rw [Memory.writeBytes_concat, ← h.mem, Engine.put, h.dptr, BitVec.toNat_ofNat, Nat.mod_eq_of_lt inSpace]
  dptr := by
    rw [List.length_append, ← Nat.add_assoc, BitVec.ofNat_add, ← h.dptr]
    rfl

/-- The invariant is about memory, DPTR, NBITS and ACC alone. -/
theorem Engine.Owes.of_eq {e' : Engine} (h : e.Owes m base total later) (hm : e'.mem = e.mem)
    (hd : e'.dp.dptr = e.dp.dptr) (hn : e'.dp.nbits = e.dp.nbits) (ha : e'.dp.acc = e.dp.acc) :
    e'.Owes m base total later := by
  obtain ⟨written, wrote, parts⟩ := h
  exact ⟨written, ⟨hm.trans wrote.mem, hd.trans wrote.dptr⟩, by rw [hn, ha, parts]⟩

/-- The bits of the three parts add up. -/
theorem length_parts (h : unpack written ++ (codeBits e.dp.nbits e.dp.acc ++ later) = total) :
    8 * written.length + e.dp.nbits + later.length = total.length := by
  rw [← h, List.length_append, List.length_append, length_unpack, length_codeBits, Nat.add_assoc]

/-! ### Drain (R187) -/

/-- Drain changes memory, DPTR and NBITS alone. -/
theorem Engine.drainLoop_dp (fuel : Nat) (e : Engine) :
    (Engine.drainLoop fuel e).dp =
      { e.dp with dptr := (Engine.drainLoop fuel e).dp.dptr, nbits := (Engine.drainLoop fuel e).dp.nbits } := by
  induction fuel generalizing e with
  | zero => rfl
  | succ fuel ih =>
    rw [Engine.drainLoop]
    split
    · exact ih _
    · rfl

@[simp] theorem Engine.drain_cnt (e : Engine) : e.drain.dp.cnt = e.dp.cnt := by
  rw [Engine.drain, Engine.drainLoop_dp]

@[simp] theorem Engine.drain_sptr (e : Engine) : e.drain.dp.sptr = e.dp.sptr := by
  rw [Engine.drain, Engine.drainLoop_dp]

@[simp] theorem Engine.drain_phase (e : Engine) : e.drain.dp.phase = e.dp.phase := by
  rw [Engine.drain, Engine.drainLoop_dp]

/-- The room for the whole stream lies in the address space. -/
abbrev InSpace (base : Nat) (total : List Bool) : Prop :=
  base + (total.length + 7) / 8 ≤ 2 ^ 32

/-- Emitting a byte moves eight bits from ACC to memory. -/
theorem Engine.Owes.emit (h : e.Owes m base total later) (space : InSpace base total) (full : 8 ≤ e.dp.nbits) :
    (e.put ((e.dp.acc >>> (e.dp.nbits - 8)).truncate 8) (e.dp.nbits - 8)).Owes m base total later := by
  obtain ⟨written, wrote, parts⟩ := h
  have := length_parts parts
  refine ⟨_, wrote.put (by omega) _ _, ?_⟩
  rw [← parts, ← byteBits_append_codeBits full, unpack_append, unpack_cons]
  simp [unpack]

/-- Drain leaves fewer than eight bits pending. -/
theorem Engine.Owes.drainLoop (space : InSpace base total) {fuel : Nat} (h : e.Owes m base total later)
    (enough : e.dp.nbits < 8 + fuel) :
    (Engine.drainLoop fuel e).Owes m base total later ∧ (Engine.drainLoop fuel e).dp.nbits < 8 := by
  induction fuel generalizing e with
  | zero => exact ⟨h, enough⟩
  | succ fuel ih =>
    rw [Engine.drainLoop]
    split
    next full => exact ih (h.emit space full) (by rw [Engine.put_nbits]; omega)
    next rest => exact ⟨h, not_le.mp rest⟩

theorem Engine.Owes.drain (h : e.Owes m base total later) (space : InSpace base total) :
    e.drain.Owes m base total later ∧ e.drain.dp.nbits < 8 :=
  h.drainLoop space (by omega)

/-! ### The symbols (R186, R188) -/

/-- A code fits its length, and at most 16 bits (10_state.md R33, R34). -/
theorem codeAt_fits (h : codeTableWf table = true) {sym : Nat} (hs : sym ≤ 256) :
    (codeAt table sym).len.toNat ≤ 16 ∧ (codeAt table sym).pat.toNat < 2 ^ (codeAt table sym).len.toNat := by
  obtain ⟨hlen, range, stray, -⟩ := codeTableWf_iff.mp h
  exact (forall_mem_iff_codeAt hlen fun c => c.len.toNat ≤ 16 ∧ c.pat.toNat < 2 ^ c.len.toNat).mp
    (fun c hc => ⟨(range c hc).2, stray c hc⟩) sym hs

/-- Taking a symbol moves its code from what is to come to ACC. -/
theorem Engine.Owes.append (hwf : codeTableWf table = true) {sym : Nat} (hs : sym ≤ 256)
    (h : e.Owes m base total ((codeAt table sym).bits ++ later)) (few : e.dp.nbits < 8) :
    (e.append (flatten table) sym).Owes m base total later := by
  obtain ⟨written, wrote, parts⟩ := h
  obtain ⟨short, fits⟩ := codeAt_fits hwf hs
  refine ⟨written, ⟨wrote.mem, wrote.dptr⟩, ?_⟩
  have len : (flatAt (flatten table) (2 * sym)).toNat = (codeAt table sym).len.toNat := by
    rw [flatAt_flatten_len, BitVec.toNat_setWidth_of_le (by decide)]
  have pat : (flatAt (flatten table) (2 * sym + 1)).toNat = (codeAt table sym).pat.toNat := by
    rw [flatAt_flatten_pat, BitVec.toNat_setWidth_of_le (by decide)]
  simp only [Engine.append]
  rw [codeBits_append (by rwa [pat, len]) (by omega), ← symbolBits, symbolBits_flatten, List.append_assoc, parts]

/-- The engine is about to take the bytes `rest`, which stand from address `a` on. -/
structure Engine.Reading (table : List Code) (m : Memory) (base : Nat) (total : List Bool) (a : Nat) (rest : List Byte)
    (e : Engine) : Prop where
  owes : e.Owes m base total (tableBits table rest)
  few : e.dp.nbits < 8
  sptr : e.dp.sptr = BitVec.ofNat 32 a
  cnt : e.dp.cnt = BitVec.ofNat 32 rest.length
  phase : e.dp.phase = if rest = [] then .term else .sym

/-- A byte outside the room for the stream is that of the memory before (20_memory.md R86, R98). -/
theorem Engine.Owes.read {a : Nat} (h : e.Owes m base total later)
    (ha : a < base ∨ base + (total.length + 7) / 8 ≤ a) : e.mem.read a = m.read a := by
  obtain ⟨written, wrote, parts⟩ := h
  have := length_parts parts
  rw [wrote.mem]
  exact m.read_writeBytes_outside _ _ _ (by omega)

/-- One symbol micro-step (R186). -/
theorem Engine.Reading.symStep (hwf : codeTableWf table = true) (space : InSpace base total) {a : Nat} {b : Byte}
    {bs : List Byte} (h : e.Reading table m base total a (b :: bs)) (hb : m.read a = b) (ha : a < 2 ^ 32)
    (apart : a < base ∨ base + (total.length + 7) / 8 ≤ a) (hbs : bs.length < 2 ^ 32) :
    (e.symStep (flatten table)).Reading table m base total (a + 1) bs := by
  have byte : e.mem.read e.dp.sptr.toNat = b := by
    rw [h.sptr, BitVec.toNat_ofNat, Nat.mod_eq_of_lt ha, h.owes.read apart, hb]
  have taken : (e.takeByte (flatten table)).Owes m base total (tableBits table bs) := by
    have owes := h.owes
    rw [tableBits_cons, ← byte] at owes
    exact (owes.append hwf (by have := (e.mem.read e.dp.sptr.toNat).isLt; omega) h.few).of_eq rfl rfl rfl rfl
  have cnt : (e.takeByte (flatten table)).dp.cnt = BitVec.ofNat 32 bs.length := by
    show e.dp.cnt - 1#32 = _
    rw [h.cnt, List.length_cons, BitVec.ofNat_add, BitVec.add_sub_cancel]
  obtain ⟨owes, few⟩ := taken.drain space
  refine ⟨owes.of_eq rfl rfl rfl rfl, few, ?_, by simpa [Engine.symStep] using cnt, ?_⟩
  · show (e.takeByte (flatten table)).drain.dp.sptr = _
    rw [Engine.drain_sptr, BitVec.ofNat_add, ← h.sptr]
    rfl
  · show (if (e.takeByte (flatten table)).drain.dp.cnt = 0#32 then Phase.term
      else (e.takeByte (flatten table)).drain.dp.phase) = _
    rw [Engine.drain_cnt, Engine.drain_phase, cnt, show (e.takeByte (flatten table)).dp.phase = e.dp.phase from rfl,
      h.phase]
    cases bs with
    | nil => rfl
    | cons x xs =>
      rw [if_neg fun zero => ?_]
      · rfl
      · have := congrArg BitVec.toNat zero
        rw [BitVec.toNat_ofNat, Nat.mod_eq_of_lt hbs] at this
        cases this

/-- The symbol micro-steps take every byte. -/
theorem Engine.Reading.symLoop (hwf : codeTableWf table = true) (space : InSpace base total) {a : Nat}
    {rest : List Byte} (h : e.Reading table m base total a rest) (source : m.readBytes a rest.length = rest)
    (inSpace : a + rest.length ≤ 2 ^ 32)
    (apart : ∀ x, a ≤ x → x < a + rest.length → x < base ∨ base + (total.length + 7) / 8 ≤ x) :
    (Engine.symLoop (flatten table) rest.length e).Reading table m base total (a + rest.length) [] := by
  induction rest generalizing e a with
  | nil => exact h
  | cons b bs ih =>
    rw [List.length_cons] at source inSpace apart ⊢
    rw [Memory.readBytes_succ, List.cons.injEq] at source
    obtain ⟨first, others⟩ := source
    have next := h.symStep hwf space first (by omega) (apart a le_rfl (by omega)) (by omega)
    rw [Engine.symLoop, if_pos (h.phase.trans (if_neg (List.cons_ne_nil b bs))), Nat.add_comm bs.length 1,
      ← Nat.add_assoc]
    exact ih next others (by omega) fun x hx hx' => apart x (by omega) (by omega)

/-- Before the first micro-step nothing is written or pending (R185). -/
theorem Engine.reading_start {l : Latch} {input : List Byte} (hlen : l.len.toNat = input.length) :
    (Engine.start l m).Reading table m (l.dbase.toNat + l.doff.toNat) (tableBits table input)
      (l.sbase.toNat + l.soff.toNat) input where
  owes := ⟨[], ⟨rfl, by simp [Engine.start, BitVec.ofNat_add]⟩, rfl⟩
  few := by simp [Engine.start]
  sptr := by simp [Engine.start, BitVec.ofNat_add]
  cnt := by rw [← hlen, BitVec.ofNat_toNat, BitVec.setWidth_eq]; rfl
  phase := by
    cases input with
    | nil => exact if_neg (by rw [hlen]; exact Nat.lt_irrefl 0)
    | cons b bs => exact if_pos (by rw [hlen]; exact Nat.succ_pos _)

/-! ### The end of the stream (R188, R189) -/

/-- Bytes whose bits are the stream and fewer than eight pad bits are the stream packed. -/
theorem Engine.Wrote.packed (h : e.Wrote m base written) {pad : Nat} (hpad : pad < 8)
    (bits : unpack written = total ++ List.replicate pad false) : e.Wrote m base (pack total) :=
  eq_pack_of_unpack hpad bits ▸ h

/-- The flush writes what is pending: then the stream is packed. -/
theorem Engine.Owes.flushStep (h : e.Owes m base total []) (space : InSpace base total) (few : e.dp.nbits < 8) :
    e.flushStep.Wrote m base (pack total) := by
  obtain ⟨written, wrote, parts⟩ := h
  have := length_parts parts
  rw [List.length_nil] at this
  rw [List.append_nil] at parts
  rw [Engine.flushStep]
  by_cases pending : 0 < e.dp.nbits
  · rw [if_pos pending]
    have last := (wrote.put (by omega) ((e.dp.acc <<< (8 - e.dp.nbits)).truncate 8) 0).packed (total := total)
      (pad := 8 - e.dp.nbits) (by omega)
      (by rw [unpack_append, unpack_cons, byteBits_flush few, ← parts]; simp [unpack])
    exact ⟨last.mem, last.dptr⟩
  · rw [if_neg pending]
    have noBits : codeBits e.dp.nbits e.dp.acc = [] := by rw [Nat.eq_zero_of_not_pos pending]; rfl
    have last := wrote.packed (total := total) (pad := 0) (by omega) (by rw [← parts, noBits]; simp)
    exact ⟨last.mem, last.dptr⟩

/-- The terminator micro-step (R188). -/
theorem Engine.Reading.termStep (hwf : codeTableWf table = true) (space : InSpace base total) {a : Nat}
    (h : e.Reading table m base total a []) :
    (e.termStep (flatten table)).Owes m base total [] ∧ (e.termStep (flatten table)).dp.nbits < 8 := by
  have owes := h.owes
  rw [tableBits_nil, ← List.append_nil (codeAt table 256).bits] at owes
  obtain ⟨drained, few⟩ := (owes.append hwf le_rfl h.few).drain space
  exact ⟨drained.of_eq rfl rfl rfl rfl, few⟩

@[simp] theorem Engine.termStep_cnt (flat : List Word) (e : Engine) : (e.termStep flat).dp.cnt = e.dp.cnt :=
  (e.append flat Config.terminator).drain_cnt

@[simp] theorem Engine.flushStep_cnt (e : Engine) : e.flushStep.dp.cnt = e.dp.cnt := by
  rw [Engine.flushStep]
  split <;> rfl

/-- The whole datapath writes OUT, and ends with DPTR behind it and CNT = 0 (R190). -/
theorem Engine.run_wrote {cfg : Config} {l : Latch} {input : List Byte} (hwf : codeTableWf cfg.codeTable = true)
    (hinput : input = m.readBytes (l.sbase.toNat + l.soff.toNat) l.len.toNat)
    (srcInSpace : l.sbase.toNat + l.soff.toNat + l.len.toNat ≤ 2 ^ 32)
    (dstInSpace : l.dbase.toNat + l.doff.toNat + cfg.bound l.len.toNat ≤ 2 ^ 32)
    (disjoint : ¬ Region.meets l.srcFP (l.dstFP cfg)) :
    (Engine.run (flatten cfg.codeTable) l m).Wrote m (l.dbase.toNat + l.doff.toNat)
        (encodeOut (flatten cfg.codeTable) input) ∧
      (Engine.run (flatten cfg.codeTable) l m).dp.cnt = 0#32 := by
  have hlen : input.length = l.len.toNat := by rw [hinput, Memory.length_readBytes]
  have fits := length_encodeOut_le_bound hwf input
  rw [length_encodeOut, hlen] at fits
  have space : InSpace (l.dbase.toNat + l.doff.toNat) (tableBits cfg.codeTable input) := by
    rw [InSpace]
    omega
  have apart : ∀ x, l.sbase.toNat + l.soff.toNat ≤ x → x < l.sbase.toNat + l.soff.toNat + input.length →
      x < l.dbase.toNat + l.doff.toNat ∨
        l.dbase.toNat + l.doff.toNat + ((tableBits cfg.codeTable input).length + 7) / 8 ≤ x := by
    intro x hx hx'
    by_contra inDst
    exact disjoint ⟨x, (l.srcFP_contains_iff x).mpr (by omega), (l.dstFP_contains_iff cfg x).mpr (by omega)⟩
  have taken := (Engine.reading_start (m := m) (table := cfg.codeTable) hlen.symm).symLoop hwf space
    (by rw [hlen, ← hinput]) (by omega) apart
  obtain ⟨owes, few⟩ := taken.termStep hwf space
  have wrote := owes.flushStep space few
  rw [hlen] at taken wrote
  rw [encodeOut_flatten]
  refine ⟨wrote, ?_⟩
  rw [Engine.run, Engine.flushStep_cnt, Engine.termStep_cnt, taken.cnt]
  rfl

/-- OUT has fewer than 2^32 bytes: a DstFP of 2^32 bytes would leave none for the source, and the OUT of an empty
source is one byte (R167). -/
theorem Latch.length_out_lt {cfg : Config} {l : Latch} {input : List Byte} (hwf : codeTableWf cfg.codeTable = true)
    (hlen : input.length = l.len.toNat)
    (inSpace : ∀ a, l.srcFP.contains a = true ∨ (l.dstFP cfg).contains a = true → a < 2 ^ 32)
    (disjoint : ¬ Region.meets l.srcFP (l.dstFP cfg)) :
    (encodeOut (flatten cfg.codeTable) input).length < 2 ^ 32 := by
  by_contra large
  have fits := length_encodeOut_le_bound hwf input
  rw [hlen] at fits
  have last := inSpace (l.dbase.toNat + l.doff.toNat + (cfg.bound l.len.toNat - 1))
    (.inr ((l.dstFP_contains_iff cfg _).mpr (by omega)))
  cases input with
  | nil => exact large (by simp [length_encodeOut, bits_terminator hwf])
  | cons b bs =>
    have first : l.srcFP.contains (l.sbase.toNat + l.soff.toNat) = true :=
      (l.srcFP_contains_iff _).mpr ⟨le_rfl, by rw [← hlen, List.length_cons]; omega⟩
    have below := inSpace _ (.inl first)
    exact disjoint ⟨_, first, (l.dstFP_contains_iff cfg _).mpr (by omega)⟩

/-- Settles O34: the invariant gives the bytes written and DPTR, and RES_LEN is how far DPTR has come. -/
theorem datapathRefinesEncode : Obligations.DatapathRefinesEncode := by
  rintro cfg l m h - srcInSpace dstInSpace disjoint out rfl
  have hwf := codeTableWf_of_wf h
  obtain ⟨wrote, cnt⟩ := Engine.run_wrote (m := m) hwf rfl srcInSpace dstInSpace disjoint
  refine ⟨wrote.mem, ?_, cnt, Engine.phase_run _ _ _⟩
  have short := l.length_out_lt hwf (m.length_readBytes (l.sbase.toNat + l.soff.toNat) l.len.toNat)
    (fun a ha => by rw [Latch.srcFP_contains_iff, Latch.dstFP_contains_iff] at ha; omega) disjoint
  rw [Engine.resLen, wrote.dptr, BitVec.ofNat_add, BitVec.ofNat_add, BitVec.ofNat_toNat, BitVec.ofNat_toNat,
    BitVec.setWidth_eq, BitVec.setWidth_eq, BitVec.add_comm (l.dbase + l.doff), BitVec.add_sub_cancel,
    BitVec.toNat_ofNat, Nat.mod_eq_of_lt short]

end Sys2Proof.Machine
end

section
/-! PROOFS. The Perform of an ENCODE (41_encode.md R165, R170-R174, R179, R183): the bytes it leaves in its DstFP, its
result registers, and that both depend on FLAT and the source bytes alone. -/

namespace Sys2Proof.Machine

variable {s t : State} {c j : Nat} {l : Latch}

/-! ### The bytes written (R172, R173) -/

/-- An admitted byte is a byte of the address space (20_memory.md R93). -/
theorem Config.lt_of_admits {cfg : Config} {a : Nat} (h : cfg.admits a = true) : a < 2 ^ 32 :=
  of_decide_eq_true (Bool.and_eq_true_iff.mp h).1

/-- Each byte that an admitted ENCODE writes is read back. -/
theorem State.read_encodeWrites (hm : s.mem.wf = true) (hcfg : s.cfg.wf = true)
    (hflat : s.flat = flatten s.cfg.codeTable) (admitted : l.admitted s.cfg) (hj : j < (s.encodeWrites l).length) :
    (s.mem.writeBytes (l.dstFP s.cfg).base (s.encodeWrites l)).read ((l.dstFP s.cfg).base + j) =
      (s.encodeWrites l)[j] := by
  have fits := State.length_encodeWrites hcfg hflat l
  have inDst : (l.dstFP s.cfg).contains ((l.dstFP s.cfg).base + j) = true :=
    (Region.contains_iff _ _).mpr (by omega)
  exact s.mem.read_writeBytes_inside _ j _ hm hj (Config.lt_of_admits (admitted _ (.inr inDst)))

theorem State.length_encodeOutput_le (s : State) (l : Latch) :
    (s.encodeOutput l).length ≤ (s.encodeWrites l).length := by
  rw [State.encodeWrites, List.length_append]
  exact Nat.le_add_right _ _

theorem State.getElem_encodeWrites_out (hj : j < (s.encodeOutput l).length) :
    (s.encodeWrites l)[j]'(hj.trans_le (s.length_encodeOutput_le l)) = (s.encodeOutput l)[j] :=
  List.getElem_append_left hj

theorem State.getElem_encodeWrites_tail (hj : j < (s.encodeWrites l).length) (tail : (s.encodeOutput l).length ≤ j) :
    (s.encodeWrites l)[j] = Config.freeByte (s.draws + (j - (s.encodeOutput l).length)) := by
  simp only [State.encodeWrites]
  rw [List.getElem_append_right tail]
  simp [State.nextBytes]

/-! ### The next state -/

/-- The Perform of every form completes exactly when both footprints are admitted. -/
theorem exec_encodeForm_perform_next (p so rr : Bool) (strat : Nat) (ht : s.turn = .perform c) :
    exec (encodeForm p so rr strat) s = .next t ↔
      (s.ctx c).latch.admitted s.cfg ∧ t = (s.encodeEffect rr c).complete c := by
  rw [exec_encodeForm_perform p so rr strat ht, performEncode_next]

/-- The context after a Perform: its results, BUSY = 0 and DONE = 1 (R174). -/
theorem State.ctx_complete_encodeEffect (rr : Bool) (hc : c < s.nCtx) :
    ((s.encodeEffect rr c).complete c).ctx c =
      ((s.ctx c).encodeResults rr (s.encodeOutput (s.ctx c).latch).length
        (Config.freeWord (s.draws + s.tailSize (s.ctx c).latch))
        (Engine.run s.flat (s.ctx c).latch s.mem).dp).performed := by
  rw [State.ctx_complete_same _ _ (by rwa [State.encodeEffect_nCtx]), State.ctx_encodeEffect_same _ _ _ hc]

/-- A Perform changes memory, the draw counter and its own context alone. -/
theorem State.complete_encodeEffect (rr : Bool) :
    (s.encodeEffect rr c).complete c =
      { s with
        mem := ((s.encodeEffect rr c).complete c).mem
        draws := ((s.encodeEffect rr c).complete c).draws
        ctxs := s.ctxs.set c ((s.encodeEffect rr c).ctx c).performed } := by
  rw [State.complete, State.encodeEffect, State.setCtx_setCtx]
  rfl

theorem State.encodeEffect_draws (rr : Bool) :
    (s.encodeEffect rr c).draws = s.draws + s.tailSize (s.ctx c).latch + 1 :=
  rfl

/-- The bytes of OUT stand from dbase + doff on (R172). -/
theorem State.read_complete_encodeEffect_out (rr : Bool) (hm : s.mem.wf = true) (hcfg : s.cfg.wf = true)
    (hflat : s.flat = flatten s.cfg.codeTable) (admitted : (s.ctx c).latch.admitted s.cfg)
    (hj : j < (s.encodeOutput (s.ctx c).latch).length) :
    ((s.encodeEffect rr c).complete c).mem.read (((s.ctx c).latch.dstFP s.cfg).base + j) =
      (s.encodeOutput (s.ctx c).latch)[j] :=
  (State.read_encodeWrites hm hcfg hflat admitted _).trans (State.getElem_encodeWrites_out hj)

theorem State.encodeOutput_def (s : State) (l : Latch) :
    s.encodeOutput l = encodeOut s.flat (s.mem.readBytes l.srcFP.base l.len.toNat) :=
  rfl

/-- What an ENCODE writes is OUT of its source bytes, once FLAT is built. -/
theorem State.encodeOutput_eq (hflat : s.flat = flatten s.cfg.codeTable) (l : Latch) :
    s.encodeOutput l =
      encodeOut (flatten s.cfg.codeTable) (s.mem.readBytes (l.sbase.toNat + l.soff.toNat) l.len.toNat) := by
  rw [State.encodeOutput_def, hflat]
  rfl

/-- Settles O37: a Perform's writes fill the DstFP, OUT first and then the draws. -/
theorem encodePerformWrites : Obligations.EncodePerformWrites := by
  intro s c p so rr strat out ht hc hcfg hm hflat admitted _ hout
  rw [← State.encodeOutput_eq hflat] at hout
  subst hout
  have fits := State.length_encodeWrites hcfg hflat (s.ctx c).latch
  refine ⟨_, (exec_encodeForm_perform_next p so rr strat ht).mpr ⟨admitted, rfl⟩,
    fun j hj => State.read_complete_encodeEffect_out rr hm hcfg hflat admitted hj, fun j tail hj => ?_,
    fun a outside => ?_⟩
  · have inside : j < (s.encodeWrites (s.ctx c).latch).length := fits ▸ hj
    refine ⟨s.draws + (j - (s.encodeOutput (s.ctx c).latch).length), by omega, ?_, ?_⟩
    · rw [State.complete_draws, State.encodeEffect_draws, State.tailSize, ← fits]
      omega
    · rw [← State.getElem_encodeWrites_tail inside tail]
      exact State.read_encodeWrites hm hcfg hflat admitted inside
  · rw [Bool.eq_false_iff, ne_eq, Region.contains_iff, ← fits] at outside
    exact s.mem.read_writeBytes_outside _ _ _ (by omega)

/-- Settles O38: the result registers are those of the context after the Perform, and N fits RES_LEN. -/
theorem encodePerformCompletes : Obligations.EncodePerformCompletes := by
  intro s c p so rr strat out ht hc hcfg hm hflat admitted disjoint hout
  rw [← State.encodeOutput_eq hflat] at hout
  subst hout
  have short : (s.encodeOutput (s.ctx c).latch).length < 2 ^ 32 := by
    rw [State.encodeOutput_eq hflat]
    exact Latch.length_out_lt (codeTableWf_of_wf hcfg) (s.mem.length_readBytes _ _)
      (fun a ha => Config.lt_of_admits (admitted a ha)) disjoint
  refine ⟨_, (exec_encodeForm_perform_next p so rr strat ht).mpr ⟨admitted, rfl⟩, ?_, ?_, ?_, ?_⟩
  · rw [State.ctx_complete_encodeEffect rr hc]
    exact Nat.mod_eq_of_lt short
  · rintro rfl
    rw [State.ctx_complete_encodeEffect true hc]
    rfl
  · rintro rfl
    rw [State.ctx_complete_encodeEffect false hc]
    exact ⟨_, Nat.le_add_right _ _, Nat.lt_succ_self _, rfl⟩
  · conv_lhs => rw [State.complete_encodeEffect, State.ctx_encodeEffect_same _ _ _ hc]
    rw [State.ctx_complete_encodeEffect rr hc]
    rfl

/-- Settles O43: N and the bytes of OUT are those of FLAT and the source bytes, which both Performs share. -/
theorem encodeStateless : Obligations.EncodeStateless := by
  intro s s' t t' c c' p so rr p' so' rr' n n' ht ht' hc hc' hm hm' hcfg hcfg' hflat sameFlat sameTable sameLen
    sameSource next next'
  obtain ⟨admitted, rfl⟩ := (exec_encodeForm_perform_next p so rr n ht).mp next
  obtain ⟨admitted', rfl⟩ := (exec_encodeForm_perform_next p' so' rr' n' ht').mp next'
  have hflat' : s'.flat = flatten s'.cfg.codeTable := by rw [sameFlat, hflat, sameTable]
  have sameOut : s'.encodeOutput (s'.ctx c').latch = s.encodeOutput (s.ctx c).latch := by
    rw [State.encodeOutput_def, State.encodeOutput_def, sameFlat, ← sameLen, sameSource]
  refine ⟨?_, fun j hj => ?_⟩
  · rw [State.ctx_complete_encodeEffect rr hc, State.ctx_complete_encodeEffect rr' hc', Context.performed_resLen,
      Context.performed_resLen, Context.encodeResults_resLen, Context.encodeResults_resLen, sameOut]
  · rw [← State.encodeOutput_def] at hj
    rw [State.read_complete_encodeEffect_out rr hm hcfg hflat admitted hj,
      State.read_complete_encodeEffect_out rr' hm' hcfg' hflat' admitted' (by rwa [sameOut])]
    simp only [sameOut]

end Sys2Proof.Machine
end

section
/-! PROOFS. The issue of an ENCODE (41_encode.md R171, R175-R177; 60_exceptions.md R212): the first check that fails
decides the fault, and with none failing the command is latched. -/

namespace Sys2Proof.Machine

variable {s t : State} {c : Nat} {i : Instr} {m : Mode} {l : Latch} {f : Fault}

/-! ### The checks of R171, one by one -/

theorem State.inFlightElsewhere_build_iff :
    s.inFlightElsewhere c Instr.isBuild = true ↔
      s.busyElsewhere c fun i => i = .buildTable ∨ i = .flattenTable ∨ i = .buildJump := by
  simp only [State.inFlightElsewhere_iff, isBuild_iff]

theorem registrationRace_iff {p : Bool} :
    (!p && s.inFlightElsewhere c fun i => decide (i = .registerBuffers)) = true ↔
      p = false ∧ s.busyElsewhere c fun i => i = .registerBuffers := by
  simp only [Bool.and_eq_true, Bool.not_eq_true', State.inFlightElsewhere_iff, decide_eq_true_eq]

theorem State.not_ready_iff :
    (!s.ready) = true ↔ s.tableBuilt = false ∨ s.flatBuilt = false ∨ s.jumpBuilt = false := by
  simp only [Bool.not_eq_true', State.ready, Bool.and_eq_false_iff, or_assoc]

/-- Where a needed register was never written, the first such one is found (log 18). -/
theorem Context.exists_firstUnwritten {k : Context} {need : List ArgReg} (h : ∃ r ∈ need, k.argWritten r = false) :
    ∃ r, k.firstUnwritten need = some r ∧ r ∈ need ∧ k.argWritten r = false := by
  obtain ⟨r, needed, unwritten⟩ := h
  have missing : k.firstUnwritten need ≠ none := fun all =>
    Bool.false_ne_true (unwritten.symm.trans ((k.firstUnwritten_eq_none need).mp all r needed))
  obtain ⟨r', hr'⟩ := Option.ne_none_iff_exists'.mp missing
  exact ⟨r', hr', List.mem_of_find?_eq_some hr', by simpa using List.find?_some hr'⟩

theorem Latch.firstNegative_eq_some {r : ArgReg} (h : l.firstNegative = some r) :
    r = .doff ∧ l.doff.toInt < 0 ∨ r = .len ∧ l.len.toInt < 0 ∨ r = .soff ∧ l.soff.toInt < 0 := by
  unfold Latch.firstNegative at h
  split at h
  next neg => cases h; exact .inl ⟨rfl, of_decide_eq_true neg⟩
  split at h
  next neg => cases h; exact .inr (.inl ⟨rfl, of_decide_eq_true neg⟩)
  split at h
  next neg => cases h; exact .inr (.inr ⟨rfl, of_decide_eq_true neg⟩)
  cases h

/-- Where an offset or the length is negative, the first such one is found (log 18). -/
theorem Latch.exists_firstNegative (h : l.doff.toInt < 0 ∨ l.len.toInt < 0 ∨ l.soff.toInt < 0) :
    ∃ r, l.firstNegative = some r := by
  refine Option.ne_none_iff_exists'.mp fun nonneg => ?_
  have := l.firstNegative_eq_none.mp nonneg
  omega

theorem Latch.overflows_iff (cfg : Config) (l : Latch) :
    l.overflows cfg = true ↔
      2 ^ 32 < l.sbase.toNat + l.soff.toNat + l.len.toNat ∨
        2 ^ 32 < l.dbase.toNat + l.doff.toNat + cfg.bound l.len.toNat := by
  rw [← Bool.not_eq_false, Latch.overflows_false_iff]
  omega

/-- The state holds an ENCODE in flight in the other context `c'`, whose footprints conflict with those of `l` (R97). -/
abbrev State.Conflicting (s : State) (c : Nat) (l : Latch) (c' : Nat) : Prop :=
  c' < s.nCtx ∧ c' ≠ c ∧ (s.ctx c').busy = true ∧ (s.ctx c').latch.cmd.isEncode = true ∧
    footprintsConflict s.cfg l (s.ctx c').latch

/-- Where a context conflicts, the first such one is found (log 18). -/
theorem State.exists_footprintConflict (h : ∃ c', s.Conflicting c l c') :
    ∃ c', s.footprintConflict c l = some c' ∧ s.Conflicting c l c' := by
  obtain ⟨c', hc', hne, hb, he, conflict⟩ := h
  have race : s.footprintConflict c l ≠ none := fun clear =>
    (s.footprintConflict_eq_none c l).mp clear c' hc' hne hb he conflict
  obtain ⟨d, hd⟩ := Option.ne_none_iff_exists'.mp race
  have found := List.find?_some hd
  simp only [Bool.and_eq_true, decide_eq_true_eq, State.inFlight_iff, Latch.conflicts_iff] at found
  obtain ⟨⟨dne, db, de⟩, conflict'⟩ := found
  exact ⟨d, hd, List.mem_range.mp (List.mem_of_find?_eq_some hd), dne, db, de, conflict'⟩

/-! ### The checks on the machine: F07, F08, F10, F11 -/

/-- The checks of R171 on the operands, which follow those on the machine. -/
def encodeOperandChecks (m : Mode) (c : Nat) (l : Latch) (s : State) : List (Option Fault) :=
  [((s.ctx c).firstUnwritten m.needs).map (.unwrittenOperand c), l.firstNegative.map (.negativeOperand c),
    check (l.overflows s.cfg) (.addressOverflow c), check (l.selfOverlap s.cfg) (.overlap c),
    (s.footprintConflict c l).map (.footprintRace c)]

theorem faultOr_encodeChecks (t : State) :
    faultOr (firstFault (encodeChecks m c l s)) t =
      if s.inFlightElsewhere c Instr.isBuild = true then .fault (.initRace c)
      else if (!m.p && s.inFlightElsewhere c fun i => decide (i = .registerBuffers)) = true then
        .fault (.registrationRace c)
      else if (!s.ready) = true then .fault (.notInitialised c)
      else if (!m.p && !s.regValid) = true then .fault (.noRegistration c)
      else faultOr (firstFault (encodeOperandChecks m c l s)) t := by
  rw [encodeChecks, faultOr_firstFault_check, faultOr_firstFault_check, faultOr_firstFault_check,
    faultOr_firstFault_check]
  rfl

/-- Where the machine allows the ENCODE, its operands decide. -/
theorem EncodeAllowed.faultOr_encodeChecks (h : EncodeAllowed s c m) (t : State) :
    faultOr (firstFault (encodeChecks m c l s)) t = faultOr (firstFault (encodeOperandChecks m c l s)) t := by
  obtain ⟨noBuild, noRegister, ready, registered⟩ := h
  obtain ⟨tableBuilt, flatBuilt, jumpBuilt⟩ := ready
  rw [Machine.faultOr_encodeChecks, if_neg (mt State.inFlightElsewhere_build_iff.mp noBuild),
    if_neg fun race => ?_, if_neg (by simp [State.ready, tableBuilt, flatBuilt, jumpBuilt]), if_neg fun race => ?_]
  · simp only [Bool.and_eq_true, Bool.not_eq_true'] at race
    exact Bool.false_ne_true (race.2.symm.trans (registered race.1))
  · obtain ⟨hp, race⟩ := registrationRace_iff.mp race
    exact noRegister hp race

/-! ### The checks on the operands: F12 to F16 -/

theorem firstFault_unwritten {r : ArgReg} (h : (s.ctx c).firstUnwritten m.needs = some r) :
    firstFault (encodeOperandChecks m c l s) = some (.unwrittenOperand c r) := by
  rw [encodeOperandChecks, h]
  rfl

section
variable (written : (s.ctx c).firstUnwritten m.needs = none)

include written in
theorem firstFault_negative {r : ArgReg} (h : l.firstNegative = some r) :
    firstFault (encodeOperandChecks m c l s) = some (.negativeOperand c r) := by
  rw [encodeOperandChecks, written, h]
  rfl

variable (nonneg : l.firstNegative = none)

include written nonneg in
theorem firstFault_overflow (h : l.overflows s.cfg = true) :
    firstFault (encodeOperandChecks m c l s) = some (.addressOverflow c) := by
  rw [encodeOperandChecks, written, nonneg, h]
  rfl

variable (inSpace : l.overflows s.cfg = false)

include written nonneg inSpace in
theorem firstFault_overlap (h : l.selfOverlap s.cfg = true) :
    firstFault (encodeOperandChecks m c l s) = some (.overlap c) := by
  rw [encodeOperandChecks, written, nonneg, inSpace, h]
  rfl

include written nonneg inSpace in
theorem firstFault_conflict {c' : Nat} (disjoint : l.selfOverlap s.cfg = false)
    (h : s.footprintConflict c l = some c') :
    firstFault (encodeOperandChecks m c l s) = some (.footprintRace c c') := by
  rw [encodeOperandChecks, written, nonneg, inSpace, disjoint, h]
  rfl

end

/-! ### The statements -/

/-- Settles O35: the conditions are those of a next state, which is the one that latches the command. -/
theorem encodeIssueCompletes : Obligations.EncodeIssueCompletes := by
  rintro s c p so rr strat l ht rfl allowed operands
  rw [exec_encodeForm_issue p so rr strat ht, (issueEncode_next _ _).mpr ⟨allowed, operands, rfl⟩]
  simp only [State.issue, State.setCtx, Context.issued, State.encodeLatch, encodeForm_op]

/-- Settles O36: in the order of R171, each clause gives the check that fails first. -/
theorem encodeIssueFaults : Obligations.EncodeIssueFaults := by
  intro s c p so rr strat l ht hl
  have issue : exec (encodeForm p so rr strat) s =
      faultOr (firstFault (encodeChecks ⟨p, so, rr⟩ c l s)) (s.issue c l) := by
    rw [exec_encodeForm_issue p so rr strat ht, issueEncode, hl]
  clear hl
  rw [issue]
  refine ⟨fun build => ?_, fun noBuild => ⟨fun race => ?_, fun noRace => ⟨fun unready => ?_, ?_⟩⟩,
    fun allowed => ?_⟩
  · rw [faultOr_encodeChecks, if_pos (State.inFlightElsewhere_build_iff.mpr build)]
  · rw [faultOr_encodeChecks, if_neg (mt State.inFlightElsewhere_build_iff.mp noBuild),
      if_pos (registrationRace_iff.mpr race)]
  · rw [faultOr_encodeChecks, if_neg (mt State.inFlightElsewhere_build_iff.mp noBuild),
      if_neg (mt registrationRace_iff.mp noRace), if_pos (State.not_ready_iff.mpr unready)]
  · intro tableBuilt flatBuilt jumpBuilt hp unregistered
    rw [faultOr_encodeChecks, if_neg (mt State.inFlightElsewhere_build_iff.mp noBuild),
      if_neg (mt registrationRace_iff.mp noRace), if_neg (by simp [State.ready, tableBuilt, flatBuilt, jumpBuilt]),
      if_pos (by simp [hp, unregistered])]
  rw [allowed.faultOr_encodeChecks]
  simp only [faultOr_eq_fault]
  refine ⟨fun unwritten => ?_, fun allWritten => ?_⟩
  · obtain ⟨r, hr, needed, unwritten⟩ := Context.exists_firstUnwritten unwritten
    exact ⟨r, needed, unwritten, firstFault_unwritten hr⟩
  have written := (Context.firstUnwritten_eq_none _ _).mpr allWritten
  refine ⟨fun negative => ?_, fun doff len soff => ?_⟩
  · obtain ⟨r, hr⟩ := Latch.exists_firstNegative negative
    exact ⟨r, firstFault_negative written hr, Latch.firstNegative_eq_some hr⟩
  have nonneg := l.firstNegative_eq_none.mpr ⟨doff, len, soff⟩
  refine ⟨fun overflow => ?_, fun srcInSpace dstInSpace => ?_⟩
  · exact firstFault_overflow written nonneg ((l.overflows_iff s.cfg).mpr overflow)
  have inSpace := (l.overflows_false_iff s.cfg).mpr ⟨srcInSpace, dstInSpace⟩
  refine ⟨fun meets => ?_, fun apart conflicting => ?_⟩
  · exact firstFault_overlap written nonneg inSpace ((Region.overlaps_iff _ _).mpr meets)
  have disjoint : l.selfOverlap s.cfg = false := Bool.eq_false_iff.mpr (mt (Region.overlaps_iff _ _).mp apart)
  obtain ⟨c', hc', inRange, hne, hb, he, conflict⟩ := State.exists_footprintConflict conflicting
  exact ⟨c', inRange, hne, hb, he, conflict, firstFault_conflict written nonneg inSpace disjoint hc'⟩

end Sys2Proof.Machine
end

section
/-! PROOFS. The forms of ENCODE (41_encode.md R174, R177, R178): RR decides only what the Perform leaves in RES_REM, and
SO = 1 with ARG_SOFF = 0 resolves to the operands of SO = 0. -/

namespace Sys2Proof.Machine

variable {s t : State} {c : Nat} {i : Instr}

/-! ### RR (R178) -/

/-- An issue does not look at RR. -/
theorem issueEncode_rr (p so rr rr' : Bool) : issueEncode i ⟨p, so, rr⟩ c s = issueEncode i ⟨p, so, rr'⟩ c s :=
  rfl

/-- A Perform's check does not look at RR. -/
theorem performEncode_fault_rr {rr rr' : Bool} {f : Fault} (h : performEncode rr c s = .fault f) :
    performEncode rr' c s = .fault f := by
  rw [performEncode, faultOr_eq_fault] at h ⊢
  exact h

/-- The state after the Perform of an RR = 1 form is that of the RR = 0 form with RES_REM = 0. -/
theorem State.complete_encodeEffect_report (hc : c < s.nCtx) :
    (s.encodeEffect true c).complete c =
      ((s.encodeEffect false c).complete c).setCtx c
        { ((s.encodeEffect false c).complete c).ctx c with resRem := 0#32 } := by
  rw [State.ctx_complete_encodeEffect false hc, State.complete, State.ctx_encodeEffect_same _ _ true hc, State.complete,
    State.setCtx_setCtx, State.encodeEffect, State.encodeEffect, State.setCtx_setCtx, State.setCtx_setCtx]
  rfl

/-- Settles O41: no check looks at RR, and of the results only RES_REM depends on it. -/
theorem reportFormsDifferOnlyInResRem : Obligations.ReportFormsDifferOnlyInResRem := by
  intro s c p so strat hc
  have issue : ∀ {c'}, s.turn = .issue c' →
      exec (encodeForm p so true strat) s = issueEncode (encodeForm p so true strat) ⟨p, so, false⟩ c' s :=
    fun ht => (exec_encodeForm_issue p so true strat ht).trans (issueEncode_rr p so true false)
  have sameOp : (encodeForm p so false strat).op = (encodeForm p so true strat).op := by
    rw [encodeForm_op, encodeForm_op]
  refine ⟨fun f hf => ?_, fun t hn => ⟨fun ht => ?_, fun ht => ?_⟩⟩
  · cases ht : s.turn with
    | issue c' =>
      rw [exec_encodeForm_issue _ _ _ _ ht] at hf
      rw [issue ht]
      exact (issueEncode_relatch sameOp).1 f hf
    | perform c' =>
      rw [exec_encodeForm_perform _ _ _ _ ht] at hf ⊢
      exact performEncode_fault_rr hf
  · rw [exec_encodeForm_issue _ _ _ _ ht] at hn
    rw [issue ht]
    exact (issueEncode_relatch sameOp).2 t hn
  · obtain ⟨admitted, rfl⟩ := (exec_encodeForm_perform_next p so false strat ht).mp hn
    exact (exec_encodeForm_perform_next p so true strat ht).mpr
      ⟨admitted, (State.complete_encodeEffect_report hc).symm⟩

/-! ### SO (R177) -/

/-- With ARG_SOFF written, an SO = 1 form misses no register that the SO = 0 form does not. -/
theorem Context.firstUnwritten_so {k : Context} (p rr : Bool) (written : k.written.soff = true) :
    k.firstUnwritten (Mode.needs ⟨p, true, rr⟩) = k.firstUnwritten (Mode.needs ⟨p, false, rr⟩) := by
  have soff : [ArgReg.soff].find? (fun r => !k.argWritten r) = none := by simp [Context.argWritten, written]
  have needs : Mode.needs ⟨p, true, rr⟩ = Mode.needs ⟨p, false, rr⟩ ++ [.soff] := by simp [Mode.needs]
  rw [Context.firstUnwritten, needs, List.find?_append, soff, Option.or_none, Context.firstUnwritten]

/-- With ARG_SOFF written as 0, the issue of an SO = 1 form is that of the SO = 0 form. -/
theorem issueEncode_so (p rr : Bool) (written : (s.ctx c).written.soff = true) (zero : (s.ctx c).argSoff = 0#32) :
    issueEncode i ⟨p, true, rr⟩ c s = issueEncode i ⟨p, false, rr⟩ c s := by
  have latch : s.encodeLatch i ⟨p, true, rr⟩ c = s.encodeLatch i ⟨p, false, rr⟩ c := by
    simp only [State.encodeLatch, zero, ite_self]
  rw [issueEncode, issueEncode, encodeChecks, encodeChecks, latch, Context.firstUnwritten_so p rr written]

/-- Settles O42: the Perform does not look at SO, and the issues have the same checks and operands. -/
theorem offsetFormsAgree : Obligations.OffsetFormsAgree := by
  intro s c p rr strat
  refine ⟨fun ht => ?_, fun ht _ written zero => ?_⟩
  · rw [exec_encodeForm_perform _ _ _ _ ht, exec_encodeForm_perform _ _ _ _ ht]
  · rw [exec_encodeForm_issue _ _ _ _ ht, exec_encodeForm_issue _ _ _ _ ht, issueEncode_so p rr written zero]
    exact issueEncode_relatch (by rw [encodeForm_op, encodeForm_op])

end Sys2Proof.Machine
end

section
/-! PROOFS. The registration (42_registration.md R200-R204; 10_state.md R42, R53): the issue and the Perform of
REGISTER_BUFFERS as equations, all that a step can do to the slot, and that ENCODE.P neither reads it nor races with its
writer. -/

namespace Sys2Proof.Machine

variable {s t : State} {c : Nat} {i : Instr} {f : Fault}

/-! ### Issue and Perform of REGISTER_BUFFERS -/

theorem firstFault_singleton (x : Option Fault) : firstFault [x] = x := by
  cases x <;> rfl

theorem exec_registerBuffers_issue (h : s.turn = .issue c) :
    exec .registerBuffers s =
      if s.inFlightElsewhere c Instr.isEncodeG = true then .fault (.registrationRace c)
      else faultOr (((s.ctx c).firstUnwritten registerNeeds).map (.unwrittenOperand c))
        (s.issue c (s.registerLatch c)) := by
  rw [show exec .registerBuffers s = _ from byTurn_issue h, issueRegisterBuffers, faultOr_firstFault_check,
    firstFault_singleton]

theorem exec_registerBuffers_perform (h : s.turn = .perform c) :
    exec .registerBuffers s =
      .next
        (State.complete
          { s with regInBase := (s.ctx c).latch.sbase, regOutBase := (s.ctx c).latch.dbase, regValid := true } c) :=
  byTurn_perform h

/-- The operands of REGISTER_BUFFERS are ARG_SRC and ARG_DST (R200). -/
theorem mem_registerNeeds (r : ArgReg) : r ∈ registerNeeds ↔ r = .src ∨ r = .dst := by
  simp [registerNeeds]

/-- Settles O23: the race is checked before the operands, and the Perform has no check. -/
theorem registerBuffersCommand : Obligations.RegisterBuffersCommand := by
  refine ⟨rfl, fun s c => ⟨fun ht race => ?_, fun ht noRace unwritten => ?_, fun ht noRace src dst => ?_,
    exec_registerBuffers_perform⟩⟩
  · rw [exec_registerBuffers_issue ht, if_pos ((s.inFlightElsewhere_iff c _).mpr race)]
  · have missing : ∃ r ∈ registerNeeds, (s.ctx c).argWritten r = false := by
      obtain src | dst := unwritten
      · exact ⟨.src, (mem_registerNeeds _).mpr (.inl rfl), src⟩
      · exact ⟨.dst, (mem_registerNeeds _).mpr (.inr rfl), dst⟩
    obtain ⟨r, found, needed, hr⟩ := Context.exists_firstUnwritten missing
    refine ⟨r, hr, (mem_registerNeeds r).mp needed, ?_⟩
    rw [exec_registerBuffers_issue ht, if_neg (mt (s.inFlightElsewhere_iff c _).mp noRace), found]
    rfl
  · have written : (s.ctx c).firstUnwritten registerNeeds = none := by
      rw [Context.firstUnwritten_eq_none]
      intro r needed
      obtain rfl | rfl := (mem_registerNeeds r).mp needed
      · exact src
      · exact dst
    refine ⟨s.registerLatch c, rfl, rfl, rfl, ?_⟩
    rw [exec_registerBuffers_issue ht, if_neg (mt (s.inFlightElsewhere_iff c _).mp noRace), written]
    rfl

/-! ### All that a step can do to the registration -/

/-- The registration slot of `t` is `inBase`, `outBase` and `valid` (10_state.md R42). -/
structure State.HasSlot (t : State) (inBase outBase : Addr) (valid : Bool) : Prop where
  regInBase : t.regInBase = inBase
  regOutBase : t.regOutBase = outBase
  regValid : t.regValid = valid

/-- The two states hold the same registration. -/
abbrev State.SameSlot (s t : State) : Prop :=
  t.HasSlot s.regInBase s.regOutBase s.regValid

theorem State.sameSlot_answer (s : State) (x : ReadValue) : s.SameSlot (s.answer x) :=
  ⟨s.answer_regInBase x, s.answer_regOutBase x, s.answer_regValid x⟩

/-- An issue leaves the registration. -/
theorem IssueCase.sameSlot (h : IssueCase s c i t) : s.SameSlot t := by
  obtain ⟨l, -, rfl, -⟩ := h.checked
  exact ⟨rfl, rfl, rfl⟩

/-- Of the Performs, that of REGISTER_BUFFERS alone writes the registration (R200). -/
theorem PerformCase.slot (h : PerformCase s c i t) :
    s.SameSlot t ∨ i = .registerBuffers ∧ t.HasSlot (s.ctx c).latch.sbase (s.ctx c).latch.dbase true := by
  cases h with
  | registerBuffers => exact .inr ⟨rfl, rfl, rfl, rfl⟩
  | buildTable | flattenTable | buildJump | encode => exact .inl ⟨rfl, rfl, rfl⟩

/-- What a step from `s` to `t` can do to the registration. -/
inductive SlotCase (s t : State) : Prop
  /-- Nothing. -/
  | kept (h : s.SameSlot t)
  /-- A Reset clears it (10_state.md R59). -/
  | reset (es : List Event) (hs : s.schedule = .reset :: es)
  /-- The Perform of a REGISTER_BUFFERS in flight, which ends it (R200). -/
  | registered (c : Nat) (hb : (s.ctx c).busy = true) (hl : (s.ctx c).latch.cmd = .registerBuffers)
      (h : t.HasSlot (s.ctx c).latch.sbase (s.ctx c).latch.dbase true)
      (ends : (t.ctx c).busy = false ∧ (t.ctx c).done = true)

theorem step_slot (h : step s = .next t) : SlotCase s t := by
  cases step_cases h with
  | regRead off es r hs hr ho => exact .kept { State.sameSlot_answer { s with schedule := es } _ with }
  | issue es c v i t hs hc hb hd ht => exact .kept { (exec_issue_next rfl ht).sameSlot with }
  | reset es t hs ht => exact .reset es hs
  | perform es c t hs hc hb ht =>
    have performed := exec_perform_next rfl ht
    obtain same | ⟨hl, registered⟩ := performed.slot
    · exact .kept { same with }
    · exact .registered c hb hl registered (performed.ends hc)
  | writeArg | memReadRace | memRead | memWrite | final => exact .kept ⟨rfl, rfl, rfl⟩

/-- Settles O24: a step that is no Reset keeps the registration, or is the Perform of a REGISTER_BUFFERS. -/
theorem registrationKept : Obligations.RegistrationKept := by
  intro s t hstep changed
  cases step_slot hstep with
  | kept h =>
    obtain inBase | outBase | valid := changed
    · exact absurd h.regInBase inBase
    · exact absurd h.regOutBase outBase
    · exact absurd h.regValid valid
  | reset es hs => exact .inl ⟨es, hs⟩
  | registered c hb hl h ends =>
    obtain ⟨idle, done⟩ := ends
    exact .inr ⟨c, hb, hl, idle, done, h.regValid, h.regInBase, h.regOutBase⟩

/-! ### ENCODE.P does not look at the registration (R203) -/

/-- The state with another registration. -/
def State.withSlot (s : State) (inBase outBase : Addr) (valid : Bool) : State :=
  { s with regInBase := inBase, regOutBase := outBase, regValid := valid }

/-- The outcome with `g` applied to its next state. -/
def mapNext (g : State → State) : Result → Result
  | .next t => .next (g t)
  | .fault f => .fault f
  | .refused r => .refused r

theorem mapNext_faultOr (g : State → State) (f : Option Fault) (t : State) :
    mapNext g (faultOr f t) = faultOr f (g t) := by
  cases f <;> rfl

section
variable (inBase outBase : Addr) (valid : Bool)

/-- With PS = PD = 1 the checks of the issue do not look at the registration, and the bases are the argument registers
(41_encode.md R171). -/
theorem issueEncode_withSlot (so rr : Bool) :
    issueEncode i ⟨true, so, rr⟩ c (s.withSlot inBase outBase valid) =
      mapNext (·.withSlot inBase outBase valid) (issueEncode i ⟨true, so, rr⟩ c s) := by
  rw [issueEncode, issueEncode, mapNext_faultOr]
  rfl

/-- A Perform works from the latch, whatever the registration holds by then (41_encode.md R170). -/
theorem performEncode_withSlot (rr : Bool) :
    performEncode rr c (s.withSlot inBase outBase valid) =
      mapNext (·.withSlot inBase outBase valid) (performEncode rr c s) := by
  rw [performEncode, performEncode, mapNext_faultOr]
  rfl

/-- With another registration an ENCODE.P has the same outcome, the registration apart. -/
theorem exec_explicitEncode_withSlot (so rr : Bool) (strat : Nat) :
    exec (encodeForm true so rr strat) (s.withSlot inBase outBase valid) =
      mapNext (·.withSlot inBase outBase valid) (exec (encodeForm true so rr strat) s) := by
  cases ht : s.turn with
  | issue c =>
    rw [exec_encodeForm_issue _ _ _ _ ht, ← issueEncode_withSlot]
    exact exec_encodeForm_issue _ _ _ _ ht
  | perform c =>
    rw [exec_encodeForm_perform _ _ _ _ ht, ← performEncode_withSlot]
    exact exec_encodeForm_perform _ _ _ _ ht

end

/-! ### ENCODE.P and REGISTER_BUFFERS do not race (R203) -/

/-- The fault of a list of checks is that of one of them. -/
theorem some_mem_of_firstFault {checks : List (Option Fault)} (h : firstFault checks = some f) : some f ∈ checks := by
  obtain ⟨x, hx, rfl⟩ := List.exists_of_findSome?_eq_some h
  exact hx

/-- With PS = PD = 1 the check for a REGISTER_BUFFERS elsewhere does not fail, and it is the only one of F08. -/
theorem registrationRace_notMem_encodeChecks (so rr : Bool) (l : Latch) (c' : Nat) :
    some (.registrationRace c') ∉ encodeChecks ⟨true, so, rr⟩ c l s := by
  simp [encodeChecks, eq_comm (a := some _), check_eq_some]

/-- An ENCODE.P does not raise F08, at its issue or at its Perform. -/
theorem exec_explicitEncode_ne_registrationRace (so rr : Bool) (strat c' : Nat) :
    exec (encodeForm true so rr strat) s ≠ .fault (.registrationRace c') := by
  intro h
  cases ht : s.turn with
  | issue c =>
    rw [exec_encodeForm_issue _ _ _ _ ht, issueEncode, faultOr_eq_fault] at h
    exact registrationRace_notMem_encodeChecks so rr _ c' (some_mem_of_firstFault h)
  | perform c =>
    obtain ⟨-, a, ha⟩ := exec_perform_fault ht h
    cases ha

/-- The issue of a REGISTER_BUFFERS raises F08 only against an ENCODE.G elsewhere (R200). -/
theorem exec_registerBuffers_race (ht : s.turn = .issue c) {c' : Nat}
    (h : exec .registerBuffers s = .fault (.registrationRace c')) :
    s.busyElsewhere c fun i => i.isEncodeG = true := by
  rw [exec_registerBuffers_issue ht] at h
  split at h
  · next race => exact (s.inFlightElsewhere_iff c _).mp race
  · rw [faultOr_eq_fault, Option.map_eq_some_iff] at h
    obtain ⟨r, -, hr⟩ := h
    cases hr

/-- Settles O25: the slot is read by no check, operand or Perform of an ENCODE.P, and F08 is about ENCODE.G alone. -/
theorem explicitEncodeIgnoresRegistration : Obligations.ExplicitEncodeIgnoresRegistration := by
  intro s so rr strat inBase outBase valid
  have same := exec_explicitEncode_withSlot (s := s) inBase outBase valid so rr strat
  refine ⟨fun t ht => ?_, fun f hf => ?_, exec_explicitEncode_ne_registrationRace so rr strat, ?_⟩
  · rw [ht] at same
    exact same
  · rw [hf] at same
    exact same
  · intro c ht explicit hrace
    obtain ⟨c', hc', hne, hb, hg⟩ := exec_registerBuffers_race ht hrace
    obtain ⟨so', rr', strat', hcmd⟩ := explicit c' hc' hne hb
    rw [hcmd, encodeForm_isEncodeG] at hg
    exact absurd hg (by decide)

end Sys2Proof.Machine
end

section
/-! PROOFS. Faults and the end of a run (60_exceptions.md R214, R215, R227; 70_reset_and_hazards.md R262, R264): a
faulted machine only repeats its fault, and with the schedule used up the contexts perform from the lowest busy one
upwards, until none is busy or an ENCODE raises F17. -/

namespace Sys2Proof.Machine

variable {s t : State} {c k n : Nat} {i : Instr} {f : Fault}

/-! ### A faulted machine (R214, R215) -/

/-- A well-formed machine that has faulted answers its fault, whatever its schedule holds. -/
theorem step_of_fault (hn : nCtxWf s.nCtx = true) (hcfg : s.cfg.wf = true) (hf : s.fault = some f) :
    step s = .fault f := by
  simp [step, nextAction, hn, hcfg, hf]

/-- Only a machine that the model gives a meaning faults (R15): any other is refused. -/
theorem wf_of_step_fault (h : step s = .fault f) : nCtxWf s.nCtx = true ∧ s.cfg.wf = true := by
  by_contra illFormed
  rw [not_and_or, Bool.not_eq_true, Bool.not_eq_true] at illFormed
  cases (step_of_illFormed illFormed).symm.trans h

theorem advance_of_step_fault (h : step s = .fault f) : advance s = s.markFault f := by
  rw [advance, h]

theorem State.markFault_of_fault (hf : s.fault = some f) : s.markFault f = s := by
  rw [State.markFault, ← hf]

/-- The two answers of a faulted machine leave it as it was: its own fault, and the refusal of an ill-formed one. -/
theorem advance_of_fault (hf : s.fault = some f) : advance s = s := by
  cases hs : step s with
  | next t =>
    obtain ⟨-, -, noFault⟩ := step_live hs
    cases hf.symm.trans noFault
  | fault g =>
    obtain ⟨hn, hcfg⟩ := wf_of_step_fault hs
    cases hs.symm.trans (step_of_fault hn hcfg hf)
    rw [advance_of_step_fault hs, State.markFault_of_fault hf]
  | refused r => rw [advance, hs]

/-- Settles O51: a step that answers a next state, and a final state, ask for no fault mark. -/
theorem faultIsAbsorbing : Obligations.FaultIsAbsorbing := by
  intro s f hf
  have marked : s.fault ≠ none := by simp [hf]
  refine ⟨fun t ht => ?_, advance_of_fault hf, fun hfinal => ?_, fun hn hcfg => step_of_fault hn hcfg hf⟩
  · obtain ⟨-, -, noFault⟩ := step_live ht
    exact marked noFault
  · obtain ⟨-, -, noFault⟩ := hfinal
    exact marked noFault

/-- Settles O52: the mark leaves the number of contexts and the configuration as they were, so the marked state is
well-formed where the step faulted. -/
theorem faultIsPrecise : Obligations.FaultIsPrecise := by
  intro s f h
  have marked := advance_of_step_fault h
  obtain ⟨hn, hcfg⟩ := wf_of_step_fault h
  exact ⟨marked, marked ▸ step_of_fault (s := s.markFault f) hn hcfg rfl⟩

/-! ### Runs -/

theorem run_succ_of_next (M : Host.Core) {s t : M.State} (h : M.step s = .next t) : M.run (k + 1) s = M.run k t := by
  rw [Host.Core.run, h]

theorem run_succ_of_fault (M : Host.Core) {s : M.State} {f : M.Fault} (h : M.step s = .fault f) :
    M.run (k + 1) s = .fault f := by
  rw [Host.Core.run, h]

theorem runSteps_succ_of_next (h : step s = .next t) : runSteps (k + 1) s = runSteps k t :=
  run_succ_of_next Sys2Proof.core h

theorem runSteps_succ_of_fault (h : step s = .fault f) : runSteps (k + 1) s = .fault f :=
  run_succ_of_fault Sys2Proof.core h

/-- A step that answers a next state leaves the machine live. -/
theorem State.live.next (hl : s.live) (h : step s = .next t) : t.live := by
  obtain ⟨hn, hcfg, noFault⟩ := hl
  obtain ⟨cfg_eq, nCtx_eq, fault_eq⟩ := step_config h
  exact ⟨by rw [nCtx_eq, hn], by rw [cfg_eq, hcfg], by rw [fault_eq, noFault]⟩

/-- A final state stays as it is (R264). -/
theorem step_of_final (hl : s.live) (h : s.final) : step s = .next s := by
  obtain ⟨hs, hq, -⟩ := h
  simp only [step_of_live hl, hs, idleStep, (State.firstBusy_eq_none s).mpr hq]

/-! ### The step when no host step is left (R262) -/

/-- A Perform answers a next state or F17. -/
theorem exec_perform_cases (i : Instr) (ht : s.turn = .perform c) :
    (∃ t, exec i s = .next t ∧ PerformCase s c i t) ∨ ∃ a, exec i s = .fault (.outOfBounds c a) := by
  cases h : exec i s with
  | next t => exact .inl ⟨t, rfl, exec_perform_next ht h⟩
  | fault f =>
    obtain ⟨-, a, rfl⟩ := exec_perform_fault ht h
    exact .inr ⟨a, rfl⟩
  | refused r => exact absurd h (exec_ne_refused i s r)

/-- A Perform takes no step off the schedule. -/
theorem PerformCase.schedule_eq (h : PerformCase s c i t) : t.schedule = s.schedule := by
  cases h <;> rfl

/-- The contexts below `n` have no command in flight. -/
def State.IdleBelow (s : State) (n : Nat) : Prop :=
  ∀ c < n, (s.ctx c).busy = false

/-- After the Perform of the lowest busy context one more context is idle. -/
theorem PerformCase.idleBelow (h : PerformCase s c i t) (hc : c < s.nCtx) (idle : s.IdleBelow c) :
    t.IdleBelow (c + 1) := by
  intro c' hc'
  obtain rfl | below := Nat.eq_or_lt_of_le (Nat.le_of_lt_succ hc')
  · exact (h.ends hc).1
  · rw [h.ctx_ne below.ne, idle c' below]

/-- The step of the lowest busy context: the contexts up to it are idle after it, or it raises F17. -/
theorem step_firstBusy (hl : s.live) (hs : s.schedule = []) (hb : s.firstBusy = some c) :
    (∃ t, step s = .next t ∧ t.schedule = [] ∧ t.IdleBelow (c + 1)) ∨ ∃ a, step s = .fault (.outOfBounds c a) := by
  obtain ⟨hc, busy, lowest⟩ := State.firstBusy_eq_some hb
  rw [performRunsLatched s [] c hl busy (.inr ⟨hs, rfl, lowest⟩)]
  obtain ⟨t, ht, hp⟩ | outOfBounds :=
    exec_perform_cases (s := { s with schedule := [], turn := .perform c }) (s.ctx c).latch.cmd rfl
  · exact .inl ⟨t, ht, hp.schedule_eq, hp.idleBelow hc lowest⟩
  · exact .inr outOfBounds

/-! ### Draining (R227) -/

/-- At most `n` steps reach a final state that stays as it is, or one of them raises F17. -/
def State.DrainsWithin (s : State) (n : Nat) : Prop :=
  ∃ k ≤ n, (∃ t, runSteps k s = .next t ∧ t.final ∧ step t = .next t) ∨ ∃ c a, runSteps k s = .fault (.outOfBounds c a)

theorem State.drainsWithin_of_quiet (hl : s.live) (hs : s.schedule = []) (hq : s.quiet) : s.DrainsWithin n := by
  have hfinal : s.final := by
    obtain ⟨-, -, noFault⟩ := hl
    exact ⟨hs, hq, noFault⟩
  exact ⟨0, Nat.zero_le n, .inl ⟨s, rfl, hfinal, step_of_final hl hfinal⟩⟩

theorem State.DrainsWithin.of_next (h : t.DrainsWithin n) (hstep : step s = .next t) : s.DrainsWithin (n + 1) := by
  obtain ⟨k, hk, hrun⟩ := h
  rw [← runSteps_succ_of_next hstep] at hrun
  exact ⟨k + 1, Nat.succ_le_succ hk, hrun⟩

theorem State.drainsWithin_of_outOfBounds {a : Nat} (hstep : step s = .fault (.outOfBounds c a)) :
    s.DrainsWithin (n + 1) :=
  ⟨1, Nat.succ_le_succ (Nat.zero_le n), .inr ⟨c, a, runSteps_succ_of_fault hstep⟩⟩

/-- The bound, strengthened for the induction: as many steps as contexts from the first `m` idle ones on. -/
theorem State.drainsWithin {m : Nat} (hl : s.live) (hs : s.schedule = []) (idle : s.IdleBelow m)
    (bound : s.nCtx ≤ m + n) : s.DrainsWithin n := by
  induction n generalizing s m with
  | zero => exact s.drainsWithin_of_quiet hl hs fun c hc => idle c (hc.trans_le bound)
  | succ n ih =>
    cases hb : s.firstBusy with
    | none => exact s.drainsWithin_of_quiet hl hs ((State.firstBusy_eq_none s).mp hb)
    | some c =>
      obtain ⟨t, hstep, ht, idle'⟩ | ⟨a, hstep⟩ := step_firstBusy hl hs hb
      · have m_le : m ≤ c := by
          obtain ⟨-, busy, -⟩ := State.firstBusy_eq_some hb
          by_contra hlt
          exact Bool.false_ne_true ((idle c (Nat.lt_of_not_le hlt)).symm.trans busy)
        have bound' : t.nCtx ≤ c + 1 + n := by
          obtain ⟨-, nCtx_eq, -⟩ := step_config hstep
          omega
        exact (ih (hl.next hstep) ht idle' bound').of_next hstep
      · exact State.drainsWithin_of_outOfBounds hstep

/-- Settles O16: each step makes one more of the N_CTX contexts idle for good, from the lowest upwards (log 6). -/
theorem engineDrains : Obligations.EngineDrains :=
  fun s hl hs => s.drainsWithin hl hs (m := 0) (fun _ hc => absurd hc (Nat.not_lt_zero _)) (Nat.zero_add _).ge

end Sys2Proof.Machine
end

section
/-! PROOFS. A Reset (70_reset_and_hazards.md R240, R241): the contexts are abandoned one after another, and each keeps a
byte that is already a draw or draws it anew; all that is not memory is as after a power-on (10_state.md R59). -/

namespace Sys2Proof.Machine

variable {s t : State} {c a d : Nat}

/-! ### The bytes that a Reset draws (R241) -/

/-- The address lies in the `DstFP` of an ENCODE in flight in context `c`. -/
def State.AbandonsByte (s : State) (c a : Nat) : Prop :=
  s.inFlight Instr.isEncode c = true ∧ ((s.ctx c).latch.dstFP s.cfg).contains a = true

/-- The byte of MEM at `a` is a draw, the `d`-th or a later one. -/
def State.DrawnSince (s : State) (d a : Nat) : Prop :=
  ∃ k, d ≤ k ∧ k < s.draws ∧ s.mem.read a = Config.freeByte k

/-- Abandoning a command changes no context, so it changes no footprint in flight. -/
theorem State.abandonsByte_abandon (s : State) (c c' a : Nat) :
    (s.abandon c).AbandonsByte c' a ↔ s.AbandonsByte c' a := by
  rw [State.abandon_eq]
  rfl

theorem State.draws_le_abandon (s : State) (c : Nat) : s.draws ≤ (s.abandon c).draws := by
  unfold State.abandon
  split
  · exact Nat.le_add_right _ _
  · exact Nat.le_refl _

/-- Abandoning an ENCODE draws every byte of its DstFP anew. -/
theorem State.drawnSince_abandon_of_mem (wf : s.mem.wf = true) (ha : a < Config.memSize) (hit : s.AbandonsByte c a) :
    (s.abandon c).DrawnSince s.draws a := by
  obtain ⟨flying, inside⟩ := hit
  rw [State.abandon, if_pos flying]
  obtain ⟨lower, upper⟩ := (Region.contains_iff _ a).mp inside
  obtain ⟨j, rfl⟩ := Nat.exists_eq_add_of_le lower
  have hj : j < ((s.ctx c).latch.dstFP s.cfg).size := by omega
  refine ⟨s.draws + j, Nat.le_add_right _ _, Nat.add_lt_add_left hj _, ?_⟩
  calc (s.mem.writeBytes _ (s.nextBytes _)).read (_ + j)
    _ = (s.nextBytes _)[j]'(by rwa [State.length_nextBytes]) := s.mem.read_writeBytes_inside _ j _ wf _ ha
    _ = Config.freeByte (s.draws + j) := by simp [State.nextBytes]

/-- Abandoning a command leaves a byte outside its DstFP as drawn as it was. -/
theorem State.DrawnSince.abandon (h : s.DrawnSince d a) (miss : ¬ s.AbandonsByte c a) :
    (s.abandon c).DrawnSince d a := by
  obtain ⟨k, hd, hk, hread⟩ := h
  have kept := State.abandon_read fun flying => Bool.eq_false_iff.mpr fun inside => miss ⟨flying, inside⟩
  exact ⟨k, hd, hk.trans_le (s.draws_le_abandon c), kept.trans hread⟩

/-- Abandoning the contexts of a list in turn draws a byte that lies in the DstFP of one of them, and keeps one that is
drawn already. -/
theorem State.drawnSince_foldl_abandon (cs : List Nat) (wf : s.mem.wf = true) (ha : a < Config.memSize)
    (hd : d ≤ s.draws) (h : (∃ c ∈ cs, s.AbandonsByte c a) ∨ s.DrawnSince d a) :
    (cs.foldl State.abandon s).DrawnSince d a := by
  induction cs generalizing s with
  | nil => simpa using h
  | cons c cs ih =>
    refine ih (State.wf_mem_abandon c wf) (hd.trans (s.draws_le_abandon c)) ?_
    simp only [State.abandonsByte_abandon]
    by_cases hit : s.AbandonsByte c a
    · obtain ⟨k, hk, drawn⟩ := State.drawnSince_abandon_of_mem wf ha hit
      exact .inr ⟨k, hd.trans hk, drawn⟩
    · obtain ⟨c', hc', hit'⟩ | drawn := h
      · obtain rfl | later := List.mem_cons.mp hc'
        · exact absurd hit' hit
        · exact .inl ⟨c', later, hit'⟩
      · exact .inr (drawn.abandon hit)

/-- R241: a Reset draws every byte of the address space that lies in the DstFP of an ENCODE in flight. -/
theorem State.drawnSince_abandonAll (wf : s.mem.wf = true) (ha : a < Config.memSize) (h : s.inFlightDst a = true) :
    s.abandonAll.DrawnSince s.draws a := by
  obtain ⟨c, hc, hit⟩ := (s.inFlightDst_iff a).mp h
  exact State.drawnSince_foldl_abandon _ wf ha (Nat.le_refl _) (.inl ⟨c, List.mem_range.mpr hc, hit⟩)

/-! ### The step -/

theorem step_reset {es : List Event} (hl : s.live) (hs : s.schedule = .reset :: es) :
    step s = resetStep { s with schedule := es } := by
  rw [step_of_live hl, hs]
  rfl

/-- Every context is as R59 has it after a Reset. -/
theorem ctx_of_resetStep (h : resetStep s = .next t) (c : Nat) : t.ctx c = Context.reset := by
  rw [resetStep_next h]
  exact State.ctx_powerOn s.cfg s.nCtx s.abandonAll.mem s.schedule c

/-- Settles O50: outside memory the next state is as after a power-on (R59), and a byte of memory is read as before or
is a draw by whether it lies in a DstFP in flight. (The name `resetStep` is the model's.) -/
theorem resetStep_spec : Obligations.ResetStep := by
  intro s es hl wf hs
  obtain ⟨t, ht⟩ : ∃ t, resetStep { s with schedule := es } = .next t := ⟨_, rfl⟩
  have ctx := ctx_of_resetStep ht
  refine ⟨t, (step_reset hl hs).trans ht, ?_⟩
  simp only [ctx]
  obtain ⟨-, -, noFault⟩ := hl
  obtain rfl := resetStep_next ht
  refine ⟨rfl, rfl, List.length_replicate, noFault, rfl, rfl, rfl, rfl, fun _ _ => ⟨rfl, rfl, rfl, rfl, rfl, rfl⟩,
    fun a => ⟨fun outside => ?_, fun ha inside => ?_⟩⟩
  · exact (State.abandonAll_spec _).2 a ((s.inFlightDst_eq_false_iff a).mpr outside)
  · refine State.drawnSince_abandonAll (s := { s with schedule := es }) wf ha ((s.inFlightDst_iff a).mpr ?_)
    simpa only [State.inFlight_iff, and_assoc] using inside

end Sys2Proof.Machine
end
